-- ==== Sys2Proof/Word.lean ====
section
/-! DEFINITION. The word types of the machine (00_scope.md R6, R7). -/

namespace Sys2Proof

/-- A byte: 8 bits (R7). -/
abbrev Byte := BitVec 8

/-- A longword: the width of a general register and of an address (R6: `REGW` = 32, `VAW` = 32). -/
abbrev Word := BitVec 32

end Sys2Proof
end

