-- ==== Sys2Proof/Syntax.lean ====
section
/-! DEFINITION. The instructions as data: operand notation (00_scope.md R8), operand specifiers
(30_encoding.md R63, R64) and one constructor of `Instr` for each row of spec/opcode_table.json. -/

namespace Sys2Proof

/-- A general register number, 0 to 15 (10_state.md R20). -/
abbrev Reg := Fin 16

/-- The four floating data types (40_floating_sub_tst.md R100). -/
inductive FType where
  | f | d | g | h
deriving DecidableEq, Repr

/-- The data-type letter of an operand (00_scope.md R8); `x` is one of the four floating types. -/
inductive DataType where
  | byte | word | long
  | floating (t : FType)
deriving DecidableEq, Repr

/-- The access-type letter of an operand (00_scope.md R8). -/
inductive Access where
  | read | write | modify | address
deriving DecidableEq, Repr

/-- A displacement of 1, 2 or 4 bytes (R64, modes A to F). -/
inductive Disp where
  | byte (d : BitVec 8)
  | word (d : BitVec 16)
  | long (d : BitVec 32)
deriving DecidableEq, Repr

/-- An operand specifier that is not index mode (R64). In `immediate` the data bytes are the low bytes of
`value`; how many there are is the operand's size (R66). -/
inductive BaseSpec where
  | literal (lit : BitVec 6)
  | register (n : Reg)
  | deferred (n : Reg)
  | autodecrement (n : Reg)
  | autoincrement (n : Reg)
  | immediate (value : BitVec 128)
  | autoincrementDeferred (n : Reg)
  | absolute (addr : Word)
  | displacement (n : Reg) (d : Disp)
  | displacementDeferred (n : Reg) (d : Disp)
deriving DecidableEq, Repr

/-- An operand specifier: a base form, or index mode over one (R67). Index mode over index mode is not a
term; the decoder rejects those bytes. -/
inductive Specifier where
  | plain (b : BaseSpec)
  | index (rx : Reg) (b : BaseSpec)
deriving DecidableEq, Repr

/-- The opcodes of 30_encoding.md R62. -/
inductive Opcode where
  | movc3 | cmpc3 | scanc | spanc | movc5 | cmpc5 | movtc | movtuc | matchc | locc | skpc
  | subf2 | subf3 | tstf | subd2 | subd3 | tstd
  | subg2 | subg3 | tstg | subh2 | subh3 | tsth
deriving DecidableEq, Repr

/-- One constructor for each row of spec/opcode_table.json; the arguments are the explicit operands in the
order of the Format line (R60, R62). Implied operands are not encoded (R74). -/
inductive Instr where
  | movc3 (len srcaddr dstaddr : Specifier)
  | cmpc3 (len src1addr src2addr : Specifier)
  | scanc (len addr tbladdr mask : Specifier)
  | spanc (len addr tbladdr mask : Specifier)
  | movc5 (srclen srcaddr fill dstlen dstaddr : Specifier)
  | cmpc5 (src1len src1addr fill src2len src2addr : Specifier)
  | movtc (srclen srcaddr fill tbladdr dstlen dstaddr : Specifier)
  | movtuc (srclen srcaddr esc tbladdr dstlen dstaddr : Specifier)
  | matchc (objlen objaddr srclen srcaddr : Specifier)
  | locc (char len addr : Specifier)
  | skpc (char len addr : Specifier)
  | subf2 (sub dif : Specifier)
  | subf3 (sub min dif : Specifier)
  | tstf (src : Specifier)
  | subd2 (sub dif : Specifier)
  | subd3 (sub min dif : Specifier)
  | tstd (src : Specifier)
  | subg2 (sub dif : Specifier)
  | subg3 (sub min dif : Specifier)
  | tstg (src : Specifier)
  | subh2 (sub dif : Specifier)
  | subh3 (sub min dif : Specifier)
  | tsth (src : Specifier)
deriving DecidableEq, Repr

/-- The opcode of an instruction. -/
def Instr.opcode : Instr → Opcode
  | .movc3 .. => .movc3
  | .cmpc3 .. => .cmpc3
  | .scanc .. => .scanc
  | .spanc .. => .spanc
  | .movc5 .. => .movc5
  | .cmpc5 .. => .cmpc5
  | .movtc .. => .movtc
  | .movtuc .. => .movtuc
  | .matchc .. => .matchc
  | .locc .. => .locc
  | .skpc .. => .skpc
  | .subf2 .. => .subf2
  | .subf3 .. => .subf3
  | .tstf .. => .tstf
  | .subd2 .. => .subd2
  | .subd3 .. => .subd3
  | .tstd .. => .tstd
  | .subg2 .. => .subg2
  | .subg3 .. => .subg3
  | .tstg .. => .tstg
  | .subh2 .. => .subh2
  | .subh3 .. => .subh3
  | .tsth .. => .tsth

/-- The operand specifiers of an instruction, in encoding order (R60). -/
def Instr.specifiers : Instr → List Specifier
  | .movc3 a b c => [a, b, c]
  | .cmpc3 a b c => [a, b, c]
  | .scanc a b c d => [a, b, c, d]
  | .spanc a b c d => [a, b, c, d]
  | .movc5 a b c d e => [a, b, c, d, e]
  | .cmpc5 a b c d e => [a, b, c, d, e]
  | .movtc a b c d e f => [a, b, c, d, e, f]
  | .movtuc a b c d e f => [a, b, c, d, e, f]
  | .matchc a b c d => [a, b, c, d]
  | .locc a b c => [a, b, c]
  | .skpc a b c => [a, b, c]
  | .subf2 a b => [a, b]
  | .subf3 a b c => [a, b, c]
  | .tstf a => [a]
  | .subd2 a b => [a, b]
  | .subd3 a b c => [a, b, c]
  | .tstd a => [a]
  | .subg2 a b => [a, b]
  | .subg3 a b c => [a, b, c]
  | .tstg a => [a]
  | .subh2 a b => [a, b]
  | .subh3 a b c => [a, b, c]
  | .tsth a => [a]

end Sys2Proof
end

