-- ==== Sys2Proof/Machine/Opcodes.lean ====
section
/-! DEFINITION. The opcode map of 30_encoding.md R62: each opcode's bytes in memory order, its explicit
operands with access and data type, and operand sizes (R64). -/

namespace Sys2Proof

/-- The size of a floating datum in bytes (40_floating_sub_tst.md R100, R101). -/
def FType.size : FType → Nat
  | .f => 4
  | .d => 8
  | .g => 8
  | .h => 16

/-- The size of an operand in bytes (R64). -/
def DataType.size : DataType → Nat
  | .byte => 1
  | .word => 2
  | .long => 4
  | .floating t => t.size

/-- The number of consecutive general registers a register-mode operand occupies (R69). -/
def DataType.registers : DataType → Nat
  | .floating .d => 2
  | .floating .g => 2
  | .floating .h => 4
  | _ => 1

/-- The opcode bytes in memory order (R61, R62). -/
def Opcode.bytes : Opcode → List Byte
  | .movc3 => [0x28]
  | .cmpc3 => [0x29]
  | .scanc => [0x2A]
  | .spanc => [0x2B]
  | .movc5 => [0x2C]
  | .cmpc5 => [0x2D]
  | .movtc => [0x2E]
  | .movtuc => [0x2F]
  | .matchc => [0x39]
  | .locc => [0x3A]
  | .skpc => [0x3B]
  | .subf2 => [0x42]
  | .subf3 => [0x43]
  | .tstf => [0x53]
  | .subd2 => [0x62]
  | .subd3 => [0x63]
  | .tstd => [0x73]
  | .subg2 => [0xFD, 0x42]
  | .subg3 => [0xFD, 0x43]
  | .tstg => [0xFD, 0x53]
  | .subh2 => [0xFD, 0x62]
  | .subh3 => [0xFD, 0x63]
  | .tsth => [0xFD, 0x73]

/-- All opcodes, in the order of R62. -/
def Opcode.all : List Opcode :=
  [.movc3, .cmpc3, .scanc, .spanc, .movc5, .cmpc5, .movtc, .movtuc, .matchc, .locc, .skpc, .subf2]
  ++ [.subf3, .tstf, .subd2, .subd3, .tstd, .subg2, .subg3, .tstg, .subh2, .subh3, .tsth]

/-- The explicit operands of an opcode, as access and data type, in encoding order (R62). -/
def Opcode.signature : Opcode → List (Access × DataType)
  | .movc3 | .cmpc3 => [(.read, .word), (.address, .byte), (.address, .byte)]
  | .scanc | .spanc => [(.read, .word), (.address, .byte), (.address, .byte), (.read, .byte)]
  | .movc5 | .cmpc5 =>
    [(.read, .word), (.address, .byte), (.read, .byte), (.read, .word), (.address, .byte)]
  | .movtc | .movtuc =>
    [(.read, .word), (.address, .byte), (.read, .byte), (.address, .byte), (.read, .word),
      (.address, .byte)]
  | .matchc => [(.read, .word), (.address, .byte), (.read, .word), (.address, .byte)]
  | .locc | .skpc => [(.read, .byte), (.read, .word), (.address, .byte)]
  | .subf2 => [(.read, .floating .f), (.modify, .floating .f)]
  | .subd2 => [(.read, .floating .d), (.modify, .floating .d)]
  | .subg2 => [(.read, .floating .g), (.modify, .floating .g)]
  | .subh2 => [(.read, .floating .h), (.modify, .floating .h)]
  | .subf3 => [(.read, .floating .f), (.read, .floating .f), (.write, .floating .f)]
  | .subd3 => [(.read, .floating .d), (.read, .floating .d), (.write, .floating .d)]
  | .subg3 => [(.read, .floating .g), (.read, .floating .g), (.write, .floating .g)]
  | .subh3 => [(.read, .floating .h), (.read, .floating .h), (.write, .floating .h)]
  | .tstf => [(.read, .floating .f)]
  | .tstd => [(.read, .floating .d)]
  | .tstg => [(.read, .floating .g)]
  | .tsth => [(.read, .floating .h)]

/-- The opcode has a description; MOVTUC, SCANC, SKPC and SPANC have none (R62, R71). -/
def Opcode.described : Opcode → Bool
  | .scanc | .spanc | .movtuc | .skpc => false
  | _ => true

/-- The character string instructions, the four without a description included (41_character_string.md R130 to
R146). -/
def Opcode.isString : Opcode → Bool
  | .movc3 | .movc5 | .movtc | .movtuc | .cmpc3 | .cmpc5 | .scanc | .spanc | .locc | .skpc | .matchc => true
  | .subf2 | .subf3 | .subd2 | .subd3 | .subg2 | .subg3 | .subh2 | .subh3 => false
  | .tstf | .tstd | .tstg | .tsth => false

/-- The implied registers, written at completion (R62; 10_state.md R21). -/
def Opcode.implied : Opcode → List Reg
  | .cmpc3 | .cmpc5 | .matchc | .scanc | .spanc => [0, 1, 2, 3]
  | .locc | .skpc => [0, 1]
  | .movc3 | .movc5 | .movtc | .movtuc => [0, 1, 2, 3, 4, 5]
  | _ => []

/-- The registers of a register-mode operand that starts at `r` (R69). -/
def DataType.regsFrom (ty : DataType) (r : Reg) : List Reg :=
  (List.range ty.registers).map fun i => Fin.ofNat 16 (r.val + i)

/-- The explicit operands of an instruction: access, data type and specifier, in encoding order (R60). -/
def Instr.operands (i : Instr) : List ((Access × DataType) × Specifier) :=
  i.opcode.signature.zip i.specifiers

/-- The bytes of a displacement (R64). -/
def Disp.length : Disp → Nat
  | .byte _ => 1
  | .word _ => 2
  | .long _ => 4

/-- The length of a specifier that is not index mode, in bytes: 1 and the bytes after `s` (R64, R70). -/
def BaseSpec.length (size : Nat) : BaseSpec → Nat
  | .immediate _ => 1 + size
  | .absolute _ => 5
  | .displacement _ d => 1 + d.length
  | .displacementDeferred _ d => 1 + d.length
  | _ => 1

/-- The length of a specifier in bytes (R70). -/
def Specifier.length (size : Nat) : Specifier → Nat
  | .plain b => b.length size
  | .index _ b => 1 + b.length size

/-- The length of an instruction in bytes (R70). -/
def Instr.length (i : Instr) : Nat :=
  i.opcode.bytes.length + (i.operands.map fun o => o.2.length o.1.2.size).sum

/-- The registers of a written operand in register mode; none for an operand that is only read (R21, R69). -/
def writtenRegs (o : (Access × DataType) × Specifier) : List Reg :=
  match o with
  | ((.modify, ty), .plain (.register r)) => ty.regsFrom r
  | ((.write, ty), .plain (.register r)) => ty.regsFrom r
  | _ => []

/-- The registers that the instruction's explicit written operands name (10_state.md R21). -/
def Instr.writtenRegs (i : Instr) : List Reg :=
  i.operands.flatMap Sys2Proof.writtenRegs

end Sys2Proof
end

