-- ==== Sys2Proof/Machine/Forms.lean ====
section
/-! DEFINITION. Which operand forms have a meaning (30_encoding.md R68). A form that this file calls illegal is
`Refused(operand form)` when the operand is reached. -/

namespace Sys2Proof

/-- A specifier outside index mode, as an operand of access `acc` and type `ty` (R68). The register-mode bound
keeps the operand's registers below R15: n = 15 for every type, n = 14 for D and G, n >= 12 for H are out. -/
def BaseSpec.legal (acc : Access) (ty : DataType) : BaseSpec → Bool
  | .literal _ => acc == .read
  | .register n => acc != .address && n.val + ty.registers ≤ 15
  | .deferred n => n != 15
  | .autodecrement n => n != 15
  | .autoincrement n => n != 15
  | .immediate _ => acc == .read || acc == .address
  | .autoincrementDeferred n => n != 15
  | .absolute _ => true
  | .displacement _ _ => true
  | .displacementDeferred _ _ => true

/-- The register that a base specifier steps, if it steps one (R64). -/
def BaseSpec.stepped : BaseSpec → Option Reg
  | .autodecrement n => some n
  | .autoincrement n => some n
  | .autoincrementDeferred n => some n
  | _ => none

/-- A base specifier under index mode: short literal, register and immediate are out (R67, R68). -/
def BaseSpec.indexable : BaseSpec → Bool
  | .literal _ => false
  | .register _ => false
  | .immediate _ => false
  | _ => true

/-- A specifier as an operand of access `acc` and type `ty` (R68). -/
def Specifier.legal (acc : Access) (ty : DataType) : Specifier → Bool
  | .plain b => b.legal acc ty
  | .index rx b => rx != 15 && b.indexable && b.legal acc ty && b.stepped != some rx

/-- Every operand of the instruction has a legal form. -/
def Instr.formsLegal (i : Instr) : Bool :=
  i.operands.all fun o => o.2.legal o.1.1 o.1.2

/-- The registers that a specifier steps by autoincrement or autodecrement (R64). -/
def Specifier.stepped : Specifier → List Reg
  | .plain b => b.stepped.toList
  | .index _ b => b.stepped.toList

/-- The registers that the instruction's specifiers step (R64). -/
def Instr.steppedRegs (i : Instr) : List Reg :=
  i.operands.flatMap fun o => o.2.stepped

end Sys2Proof
end

