-- ==== Sys2Proof/WellFormed.lean ====
section
/-! DEFINITION. Which terms of `Instr` are instructions: `encodable` says that the bytes of 30_encoding.md R63
to R67 exist for the term, `wellFormed` says moreover that R68 gives every operand form a meaning. -/

namespace Sys2Proof

/-- The specifier has bytes: register 15 in modes 8 and 9 is immediate and absolute mode (R64), and immediate
data has the operand's size (R66). -/
def BaseSpec.encodable (size : Nat) : BaseSpec → Bool
  | .autoincrement n => n != 15
  | .autoincrementDeferred n => n != 15
  | .immediate v => decide (v.toNat < 256 ^ size)
  | _ => true

/-- The specifier has bytes. -/
def Specifier.encodable (size : Nat) : Specifier → Bool
  | .plain b => b.encodable size
  | .index _ b => b.encodable size

/-- Every operand of the instruction has bytes. -/
def Instr.encodable (i : Instr) : Bool :=
  i.operands.all fun o => o.2.encodable o.1.2.size

/-- The instruction has bytes, and R68 gives each of its operand forms a meaning. -/
def Instr.wellFormed (i : Instr) : Bool :=
  i.encodable && i.formsLegal

end Sys2Proof
end

