-- ==== Sys2Proof/Decode.lean ====
section
/-! DEFINITION. Bytes to instructions and back (30_encoding.md R60 to R67, R76). The decoder reads bytes from a
supply by offset, so that a byte is asked for only when the bytes before it need it; the machine supplies
fetched memory (Machine/Fetch.lean), `decode` supplies a list. -/

namespace Sys2Proof

/-- Why decoding stops: the supply has no byte to give, or the bytes are no instruction of R62. An operand form
is rejected here only where no term stands for it (index mode over index mode, R68); every other form that
R68 leaves without a meaning decodes, and its meaning refuses. -/
inductive DecodeError (ε : Type) where
  | noByte (e : ε)
  | unknownOpcode
  | operandForm
deriving DecidableEq, Repr

/-- A supply of instruction bytes: the byte at an offset, or why there is none. -/
abbrev Supply (ε : Type) := Nat → Except ε Byte

/-- The byte at offset `k`. -/
def byteAt {ε : Type} (src : Supply ε) (k : Nat) : Except (DecodeError ε) Byte :=
  match src k with
  | .ok b => .ok b
  | .error e => .error (.noByte e)

/-- The `n`-byte little-endian field at offset `k` (R63; 20_memory.md R41). -/
def fieldAt {ε : Type} (src : Supply ε) (k : Nat) : Nat → Except (DecodeError ε) Nat
  | 0 => .ok 0
  | n + 1 => do
    let b ← byteAt src k
    let rest ← fieldAt src (k + 1) n
    .ok (b.toNat + 256 * rest)

/-- The register number of a specifier byte, `s[3:0]` (R63). -/
def regField (s : Byte) : Reg :=
  Fin.ofNat 16 s.toNat

/-- The specifier of a mode number that is not index mode, its specifier byte `s` at offset `k` and its register
`n`, and the offset after it (R64). -/
def decodeMode {ε : Type} (src : Supply ε) (size k : Nat) (s : Byte) (n : Reg) :
    Nat → Except (DecodeError ε) (BaseSpec × Nat)
  | 0 | 1 | 2 | 3 => .ok (.literal (BitVec.ofNat 6 s.toNat), k + 1)
  | 4 => .error .operandForm
  | 5 => .ok (.register n, k + 1)
  | 6 => .ok (.deferred n, k + 1)
  | 7 => .ok (.autodecrement n, k + 1)
  | 8 =>
    if n = 15 then do
      let v ← fieldAt src (k + 1) size
      .ok (.immediate (BitVec.ofNat 128 v), k + (1 + size))
    else .ok (.autoincrement n, k + 1)
  | 9 =>
    if n = 15 then do
      let a ← fieldAt src (k + 1) 4
      .ok (.absolute (BitVec.ofNat 32 a), k + 5)
    else .ok (.autoincrementDeferred n, k + 1)
  | 10 => do
    let d ← fieldAt src (k + 1) 1
    .ok (.displacement n (.byte (BitVec.ofNat 8 d)), k + 2)
  | 11 => do
    let d ← fieldAt src (k + 1) 1
    .ok (.displacementDeferred n (.byte (BitVec.ofNat 8 d)), k + 2)
  | 12 => do
    let d ← fieldAt src (k + 1) 2
    .ok (.displacement n (.word (BitVec.ofNat 16 d)), k + 3)
  | 13 => do
    let d ← fieldAt src (k + 1) 2
    .ok (.displacementDeferred n (.word (BitVec.ofNat 16 d)), k + 3)
  | 14 => do
    let d ← fieldAt src (k + 1) 4
    .ok (.displacement n (.long (BitVec.ofNat 32 d)), k + 5)
  | _ => do
    let d ← fieldAt src (k + 1) 4
    .ok (.displacementDeferred n (.long (BitVec.ofNat 32 d)), k + 5)

/-- The specifier that is not index mode at offset `k`, and the offset after it: mode `s[7:4]`, register `s[3:0]`
(R63, R64). -/
def decodeBase {ε : Type} (src : Supply ε) (size k : Nat) : Except (DecodeError ε) (BaseSpec × Nat) := do
  let s ← byteAt src k
  decodeMode src size k s (regField s) (s.toNat / 16)

/-- The operand specifier at offset `k`, and the offset after it (R63, R67). -/
def decodeSpecifier {ε : Type} (src : Supply ε) (size k : Nat) :
    Except (DecodeError ε) (Specifier × Nat) := do
  let s ← byteAt src k
  if s.toNat / 16 = 4 then do
    let (b, k') ← decodeBase src size (k + 1)
    .ok (.index (regField s) b, k')
  else do
    let (b, k') ← decodeBase src size k
    .ok (.plain b, k')

/-- One specifier for each operand of the signature, left to right (R60, R76). -/
def decodeSpecifiers {ε : Type} (src : Supply ε) :
    List (Access × DataType) → Nat → Except (DecodeError ε) (List Specifier × Nat)
  | [], k => .ok ([], k)
  | o :: os, k => do
    let (sp, k) ← decodeSpecifier src o.2.size k
    let (sps, k) ← decodeSpecifiers src os k
    .ok (sp :: sps, k)

/-- The operands whose specifiers can be read, one after another, from offset `k` on: all of them when
`decodeSpecifiers` answers, else those before the one at which it stops (R76 (3)). -/
def specifiersRead {ε : Type} (src : Supply ε) :
    List (Access × DataType) → Nat → List ((Access × DataType) × Specifier)
  | [], _ => []
  | o :: os, k =>
    match decodeSpecifier src o.2.size k with
    | .ok (sp, k) => (o, sp) :: specifiersRead src os k
    | .error _ => []

/-- The opcode whose bytes are `bs` (R62). -/
def Opcode.ofBytes (bs : List Byte) : Option Opcode :=
  Opcode.all.find? fun op => op.bytes == bs

/-- The instruction with this opcode and these operand specifiers, if their number is right. -/
def Instr.ofParts : Opcode → List Specifier → Option Instr
  | .movc3, [a, b, c] => some (.movc3 a b c)
  | .cmpc3, [a, b, c] => some (.cmpc3 a b c)
  | .scanc, [a, b, c, d] => some (.scanc a b c d)
  | .spanc, [a, b, c, d] => some (.spanc a b c d)
  | .movc5, [a, b, c, d, e] => some (.movc5 a b c d e)
  | .cmpc5, [a, b, c, d, e] => some (.cmpc5 a b c d e)
  | .movtc, [a, b, c, d, e, f] => some (.movtc a b c d e f)
  | .movtuc, [a, b, c, d, e, f] => some (.movtuc a b c d e f)
  | .matchc, [a, b, c, d] => some (.matchc a b c d)
  | .locc, [a, b, c] => some (.locc a b c)
  | .skpc, [a, b, c] => some (.skpc a b c)
  | .subf2, [a, b] => some (.subf2 a b)
  | .subf3, [a, b, c] => some (.subf3 a b c)
  | .tstf, [a] => some (.tstf a)
  | .subd2, [a, b] => some (.subd2 a b)
  | .subd3, [a, b, c] => some (.subd3 a b c)
  | .tstd, [a] => some (.tstd a)
  | .subg2, [a, b] => some (.subg2 a b)
  | .subg3, [a, b, c] => some (.subg3 a b c)
  | .tstg, [a] => some (.tstg a)
  | .subh2, [a, b] => some (.subh2 a b)
  | .subh3, [a, b, c] => some (.subh3 a b c)
  | .tsth, [a] => some (.tsth a)
  | _, _ => none

/-- The opcode bytes at offset 0: two when byte 0 is FD, else one (R61, R76). -/
def opcodeBytes {ε : Type} (src : Supply ε) : Except (DecodeError ε) (List Byte) := do
  let b0 ← byteAt src 0
  if b0 = 0xFD then do
    let b1 ← byteAt src 1
    .ok [b0, b1]
  else .ok [b0]

/-- The opcode at offset 0, and its length (R61, R71, R76). -/
def decodeOpcode {ε : Type} (src : Supply ε) : Except (DecodeError ε) (Opcode × Nat) := do
  let bs ← opcodeBytes src
  match Opcode.ofBytes bs with
  | some op => .ok (op, bs.length)
  | none => .error .unknownOpcode

/-- The instruction at offset 0 of the supply, and its length (R76). -/
def decodeFrom {ε : Type} (src : Supply ε) : Except (DecodeError ε) (Instr × Nat) := do
  let (op, k) ← decodeOpcode src
  let (sps, k) ← decodeSpecifiers src op.signature k
  match Instr.ofParts op sps with
  | some i => .ok (i, k)
  | none => .error .unknownOpcode

/-- A list of bytes as a supply. -/
def listSupply (bs : List Byte) : Supply Unit := fun k =>
  match bs[k]? with
  | some b => .ok b
  | none => .error ()

/-- The decoder on a list of bytes: the instruction at its head and the bytes after it. -/
def decode (bs : List Byte) : Except (DecodeError Unit) (Instr × List Byte) :=
  match decodeFrom (listSupply bs) with
  | .ok (i, k) => .ok (i, bs.drop k)
  | .error e => .error e

/-- The `n` low bytes of `v`, least significant first (20_memory.md R41). -/
def leBytes : Nat → Nat → List Byte
  | 0, _ => []
  | n + 1, v => BitVec.ofNat 8 v :: leBytes n (v / 256)

/-- A specifier byte: the mode in bits 7:4, the register in bits 3:0 (R63). -/
def modeByte (mode : Nat) (n : Reg) : Byte :=
  BitVec.ofNat 8 (16 * mode + n.val)

/-- The bytes of a displacement (R64). -/
def Disp.bytes : Disp → List Byte
  | .byte d => leBytes 1 d.toNat
  | .word d => leBytes 2 d.toNat
  | .long d => leBytes 4 d.toNat

/-- The mode number of a displacement specifier: A, C, E by width (R64). -/
def Disp.mode : Disp → Nat
  | .byte _ => 10
  | .word _ => 12
  | .long _ => 14

/-- The bytes of a specifier that is not index mode (R64). -/
def BaseSpec.encode (size : Nat) : BaseSpec → List Byte
  | .literal lit => [lit.setWidth 8]
  | .register n => [modeByte 5 n]
  | .deferred n => [modeByte 6 n]
  | .autodecrement n => [modeByte 7 n]
  | .autoincrement n => [modeByte 8 n]
  | .immediate v => modeByte 8 15 :: leBytes size v.toNat
  | .autoincrementDeferred n => [modeByte 9 n]
  | .absolute a => modeByte 9 15 :: leBytes 4 a.toNat
  | .displacement n d => modeByte d.mode n :: d.bytes
  | .displacementDeferred n d => modeByte (d.mode + 1) n :: d.bytes

/-- The bytes of a specifier (R63, R67). -/
def Specifier.encode (size : Nat) : Specifier → List Byte
  | .plain b => b.encode size
  | .index rx b => modeByte 4 rx :: b.encode size

/-- The bytes of an instruction: its opcode, then its specifiers (R60). -/
def encode (i : Instr) : List Byte :=
  i.opcode.bytes ++ i.operands.flatMap fun o => o.2.encode o.1.2.size

/-- The number of bytes of the longest instruction the decoder reads: FD, an opcode byte and three H_floating
immediates, each under index mode (R70 gives 53 bytes for the longest legal one). -/
def longestInstruction : Nat := 56

/-- The bytes of a word of spec/opcode_table.json: bit 0 is the least significant bit of the first byte, and
every bit from `nbits` on is 0. -/
def tableWordBytes (nbits w : Nat) : List Byte :=
  leBytes longestInstruction (w % 2 ^ nbits)

/-- The instruction the decoder reads from a word of spec/opcode_table.json. -/
def decodeTableWord (nbits w : Nat) : Option Instr :=
  match decode (tableWordBytes nbits w) with
  | .ok (i, _) => some i
  | .error _ => none

end Sys2Proof
end

