-- ==== Sys2Proof/Config.lean ====
section
/-! DEFINITION. The free values: what the spec calls UNPREDICTABLE and makes a `draw` (00_scope.md R10).
Each is a constant with no body, applied to the number of draws taken so far, so nothing in Lean can
evaluate it (notes/assumptions/8.md). Everything else that R6 lists as a parameter is part of the launch
state (10_state.md R31) and stands in `Machine.Platform`. -/

namespace Sys2Proof

/-- `draw(1)`: an UNPREDICTABLE condition code (10_state.md R26). -/
opaque Config.freeBit : Nat → Bool

/-- `draw(8)`: a byte of an UNPREDICTABLE destination string (41_character_string.md R142). -/
opaque Config.freeByte : Nat → Byte

/-- `draw(32)`: a register after a memory access fault inside a string instruction (20_memory.md R46). -/
opaque Config.freeWord : Nat → Word

end Sys2Proof
end

