-- ==== Sys2Proof/Machine/Floating.lean ====
section
/-! DEFINITION. The four floating data types and the subtraction function (40_floating_sub_tst.md R100 to
R104; 30_encoding.md R65). A datum is the unsigned integer of `8 * size` bits that a read of its bytes gives
(R100). -/

namespace Sys2Proof

/-- The bit field `v[hi:lo]` (00_scope.md R7). -/
def bitField (v hi lo : Nat) : Nat :=
  v / 2 ^ lo % 2 ^ (hi + 1 - lo)

/-- The sign `s`, B[15] (R101). -/
def FType.sign (_ : FType) (B : Nat) : Nat := bitField B 15 15

/-- The exponent field `e` (R101). -/
def FType.exponent (t : FType) (B : Nat) : Nat :=
  match t with
  | .f => bitField B 14 7
  | .d => bitField B 14 7
  | .g => bitField B 14 4
  | .h => bitField B 14 0

/-- The fraction field `f`, most significant part first (R101). -/
def FType.fraction (t : FType) (B : Nat) : Nat :=
  match t with
  | .f => bitField B 6 0 * 2 ^ 16 + bitField B 31 16
  | .d => bitField B 6 0 * 2 ^ 48 + bitField B 31 16 * 2 ^ 32 + bitField B 47 32 * 2 ^ 16
      + bitField B 63 48
  | .g => bitField B 3 0 * 2 ^ 48 + bitField B 31 16 * 2 ^ 32 + bitField B 47 32 * 2 ^ 16
      + bitField B 63 48
  | .h => bitField B 31 16 * 2 ^ 96 + bitField B 47 32 * 2 ^ 80 + bitField B 63 48 * 2 ^ 64
      + bitField B 79 64 * 2 ^ 48 + bitField B 95 80 * 2 ^ 32 + bitField B 111 96 * 2 ^ 16
      + bitField B 127 112

/-- The exponent bias (R101). -/
def FType.bias : FType → Nat
  | .f => 128
  | .d => 128
  | .g => 1024
  | .h => 16384

/-- The precision `p`, with the hidden bit (R101). -/
def FType.precision : FType → Nat
  | .f => 24
  | .d => 56
  | .g => 53
  | .h => 113

/-- The largest exponent field (R101). -/
def FType.maxExponent : FType → Nat
  | .f => 255
  | .d => 255
  | .g => 2047
  | .h => 32767

/-- `Pack_T(s, e, f)`: the datum with these fields (R103). -/
def FType.pack (t : FType) (s e f : Nat) : Nat :=
  match t with
  | .f => s * 2 ^ 15 + e * 2 ^ 7 + bitField f 22 16 + bitField f 15 0 * 2 ^ 16
  | .d => s * 2 ^ 15 + e * 2 ^ 7 + bitField f 54 48 + bitField f 47 32 * 2 ^ 16
      + bitField f 31 16 * 2 ^ 32 + bitField f 15 0 * 2 ^ 48
  | .g => s * 2 ^ 15 + e * 2 ^ 4 + bitField f 51 48 + bitField f 47 32 * 2 ^ 16
      + bitField f 31 16 * 2 ^ 32 + bitField f 15 0 * 2 ^ 48
  | .h => s * 2 ^ 15 + e + bitField f 111 96 * 2 ^ 16 + bitField f 95 80 * 2 ^ 32
      + bitField f 79 64 * 2 ^ 48 + bitField f 63 48 * 2 ^ 64 + bitField f 47 32 * 2 ^ 80
      + bitField f 31 16 * 2 ^ 96 + bitField f 15 0 * 2 ^ 112

/-- `IsReserved_T(B)`: exponent 0 and sign 1 (R102). -/
def FType.isReserved (t : FType) (B : Nat) : Bool :=
  t.exponent B == 0 && t.sign B == 1

/-- `IsZero_T(B)`, and `B EQL 0`: exponent 0 and sign 0, whatever the fraction (R102). -/
def FType.isZero (t : FType) (B : Nat) : Bool :=
  t.exponent B == 0 && t.sign B == 0

/-- `B LSS 0`: sign 1 and exponent not 0 (R102). -/
def FType.isNegative (t : FType) (B : Nat) : Bool :=
  t.exponent B != 0 && t.sign B == 1

/-- The value of a datum times 2^(bias + p), an integer: (-1)^s * (2^(p-1) + f) * 2^e, and 0 for a zero (R102:
`Val_T(B) = (-1)^s * 2^(e - bias) * (2^(p-1) + f) / 2^p`). -/
def FType.scaled (t : FType) (B : Nat) : Int :=
  if t.exponent B = 0 then 0
  else (if t.sign B = 1 then -1 else 1)
    * ((2 ^ (t.precision - 1) + t.fraction B) * 2 ^ t.exponent B : Nat)

/-- The result zero: all bits 0 (R103). -/
def zeroDatum : Nat := 0

/-- What the subtraction function answers (R104). -/
inductive FSubResult where
  | value (B : Nat)
  | overflow
  | underflow
deriving DecidableEq, Repr

/-- The number of bits of a number that is not 0: 2^(L-1) <= n < 2^L. -/
def bitLength (n : Nat) : Nat := Nat.log2 n + 1

/-- The `p` leading bits of a number, rounded to nearest with a tie going up: with L its length, R104's
M = floor(n / 2^L * 2^p + 1/2). -/
def roundSignificand (p n : Nat) : Nat :=
  (n * 2 ^ (p + 1) + 2 ^ bitLength n) / 2 ^ (bitLength n + 1)

/-- An exact value rounded to the type and its range tested (R104): `q` is the value times 2^(bias + p). With
n = |q| and L its length, R104's E is L - bias - p, so that its e is L - p. -/
def FType.round (t : FType) (q : Int) : FSubResult :=
  if q = 0 then .value zeroDatum
  else
    let p := t.precision
    let L := bitLength q.natAbs
    let M := roundSignificand p q.natAbs
    let M' := if M = 2 ^ p then 2 ^ (p - 1) else M
    let e : Int := if M = 2 ^ p then (L : Int) - p + 1 else (L : Int) - p
    if e > t.maxExponent then .overflow
    else if e < 1 then .underflow
    else .value (t.pack (if q < 0 then 1 else 0) e.toNat (M' - 2 ^ (p - 1)))

/-- The default definition of `FSub_T(a, b)` (R104, D11): the rounded difference a - b. The platform can supply
another one: `Machine.Platform.fsub`. -/
def FType.fsub (t : FType) (a b : Nat) : FSubResult :=
  t.round (t.scaled a - t.scaled b)

/-- The difference of `a` and `b` is the value of a datum: the default stores it without rounding. -/
def FType.isExact (t : FType) (a b : Nat) : Bool :=
  match t.fsub a b with
  | .value r => t.scaled r == t.scaled a - t.scaled b
  | _ => false

/-- What a subtraction function can answer: of the values, data that are no reserved operand, and the zero with
all bits 0 only (R103, R104). -/
def FType.isResult (t : FType) : FSubResult → Bool
  | .value B => decide (B < 256 ^ t.size) && !t.isReserved B && (B == zeroDatum || !t.isZero B)
  | _ => true

/-- The value of a 6-bit literal as an operand of type `ty` (30_encoding.md R65). -/
def expandLiteral (ty : DataType) (lit : BitVec 6) : Nat :=
  let e := bitField lit.toNat 5 3
  let f := bitField lit.toNat 2 0
  match ty with
  | .floating t => t.pack 0 (t.bias + e) (f * 2 ^ (t.precision - 4))
  | _ => lit.toNat

end Sys2Proof
end

