-- ==== Sys2Proof/Machine/State.lean ====
section
/-! DEFINITION. The machine's state (10_state.md), why a step can stop (60_exceptions.md R200; 00_scope.md
R11), and the state after reset. -/

namespace Sys2Proof.Machine

/-- The processor status longword, one field for each of the rows of 10_state.md R23. N, Z, V, C, FU and FPD
are the six bits that rules name; the other fields together are R23's 26 bits that no instruction reads or
writes. Bit positions are `Psl.toWord`'s. -/
structure Psl where
  n : Bool
  z : Bool
  v : Bool
  c : Bool
  fu : Bool
  fpd : Bool
  t : Bool
  iv : Bool
  dv : Bool
  mbz15to8 : BitVec 8
  ipl : BitVec 5
  mbz21 : Bool
  prvMod : BitVec 2
  curMod : BitVec 2
  interruptStack : Bool
  mbz29to28 : BitVec 2
  tp : Bool
  cm : Bool
deriving DecidableEq, Repr

/-- Memory as data: (address, byte) pairs, addresses strictly rising, no entry equal to what an unlisted
address reads as (Machine/Memory.lean: `Memory.wf`, `unlistedByte`). -/
abbrev Memory := List Host.Cell

/-- The kinds of memory access (20_memory.md R46). -/
inductive AccessKind where
  | read | write | fetch
deriving DecidableEq, Repr

/-- One row of the platform's memory map: accesses of `kind` to the `size` bytes from `base` on are admitted
or not. -/
structure AdmitRule where
  kind : AccessKind
  base : Nat
  size : Nat
  admitted : Bool
deriving DecidableEq, Repr

/-- What MOVTC does when its destination overlaps its table (00_scope.md R6, `movtc_overlap`). -/
inductive OverlapPolicy where
  | draw | refuse
deriving DecidableEq, Repr

/-- One row of the platform's subtraction function: the answer of `FSub_T` for these two operands (00_scope.md R6). -/
structure SubtractionRule where
  ty : FType
  minuend : Nat
  subtrahend : Nat
  result : FSubResult
deriving DecidableEq, Repr

/-- The platform parameters of 00_scope.md R6, which 10_state.md R31 makes part of the launch state. `admission`
is `Admit` as data: the first rule that covers an address decides, and an address no rule covers is admitted
(notes/assumptions/5.md); every predicate on the 2^32 addresses is one such list. `notImplemented` lists the
opcodes for which `Implemented` is false. `subtraction` is `FSub_T` as data: the operands for which it answers
otherwise than the default of R104, which stands where no row does (notes/assumptions/11.md); data being finitely
many, every such function is one list. -/
structure Platform where
  admission : List AdmitRule
  notImplemented : List Opcode
  movtcOverlap : OverlapPolicy
  subtraction : List SubtractionRule
deriving DecidableEq, Repr

/-- The whole state. `regs` holds R0 to R15, and R15 is the PC (10_state.md R20, R22). `written` and `draws` are
the model's own: the addresses an instruction has stored to (20_memory.md R54; strictly rising, as
Machine/Memory.lean's `Written.wf` says), and how many free values have been taken (00_scope.md R10). -/
structure State where
  regs : Vector Word 16
  psl : Psl
  mem : Memory
  platform : Platform
  written : List Nat
  draws : Nat
deriving DecidableEq, Repr

/-- The exceptions of 60_exceptions.md R200, each with the state it leaves (R11: `Fault(cause, state)`). A fault
is terminal: no handler runs (R203). Safe: the model says nothing of what a handler would do. -/
inductive Fault where
  /-- A source operand of SUB or TST is a reserved operand. Raised by the SUB and TST meanings while they
  evaluate their operands. Safe. -/
  | reservedOperand (s : State)
  /-- The rounded difference is too large. Raised by the SUB meanings. Safe. -/
  | floatingOverflow (s : State)
  /-- The rounded difference is too small and FU is set. Raised by the SUB meanings. Safe. -/
  | floatingUnderflow (s : State)
  /-- The platform does not admit an access to this address. Raised by the fetch, by operand evaluation, by
  the SUB meanings before they store, and by the string meanings before they start. Safe. -/
  | accessFault (addr : Word) (kind : AccessKind) (s : State)
deriving DecidableEq, Repr

/-- Why the model gives a step no meaning (00_scope.md R11: `Refused(reason)`). Every one is safe: the model
stops where the hardware goes on. -/
inductive Refusal where
  /-- An arm of `exec` without a meaning yet; no arm is in that case. Safe. -/
  | notModelled (mnemonic : String)
  /-- The instruction has a name and an operand list and no description (41_character_string.md R143 to
  R146). Raised by the meanings of MOVTUC, SCANC, SKPC and SPANC. Safe. -/
  | noSemanticsInSource (mnemonic : String)
  /-- The opcode is not in 30_encoding.md R62 (R71). Raised by the fetch. Safe. -/
  | unknownOpcode
  /-- An operand form that 30_encoding.md R68 gives no meaning. Raised by the fetch (index mode over index
  mode; an operand before a byte that cannot be fetched) and by operand evaluation. Safe. -/
  | operandForm
  /-- The platform does not implement the opcode (00_scope.md R6, `Implemented`). Raised by `step`, and by the
  fetch when the instruction cannot be read to its end. Safe. -/
  | notImplemented
  /-- MOVTC's destination overlaps its table and the platform's parameter says refuse (00_scope.md R6).
  Raised by MOVTC. Safe. -/
  | movtcOverlap
  /-- FPD = 1 at the start of an instruction (10_state.md R25; 60_exceptions.md R208). Raised by `step`.
  Safe. -/
  | firstPartDone
  /-- T = 1 or TP = 1 (60_exceptions.md R214; 92_eei_decisions.md D2). Raised by `step`. Safe. -/
  | tracing
  /-- CM = 1: the bytes are not VAX instructions (30_encoding.md R71). Raised by `step`. Safe. -/
  | compatibilityMode
  /-- The instruction runs past the highest address (10_state.md R22). Raised by the fetch. Safe. -/
  | straddlesTop
  /-- A byte of the instruction was stored by an earlier instruction (20_memory.md R54). Raised by the fetch.
  Safe. -/
  | modifiedCode
deriving DecidableEq, Repr

/-- The PSL after reset: FPD, T, TP and CM 0 as every launch state has them (10_state.md R31; 70 R241), every
other field 0 by choice (notes/assumptions/3.md). -/
def Psl.reset : Psl :=
  { n := false, z := false, v := false, c := false, fu := false, fpd := false, t := false, iv := false,
    dv := false, mbz15to8 := 0, ipl := 0, mbz21 := false, prvMod := 0, curMod := 0, interruptStack := false,
    mbz29to28 := 0, tp := false, cm := false }

/-- The platform after reset: everything admitted by choice (notes/assumptions/5.md); every opcode implemented,
`draw`, and the default subtraction, the defaults of 00_scope.md R6. -/
def Platform.reset : Platform :=
  { admission := [], notImplemented := [], movtcOverlap := .draw, subtraction := [] }

/-- The state after reset. The spec states no reset value (10_state.md R30); the values are those of
notes/assumptions/1.md to 5.md and 8.md. -/
def State.reset : State :=
  { regs := Vector.replicate 16 0, psl := Psl.reset, mem := [], platform := Platform.reset, written := [],
    draws := 0 }

end Sys2Proof.Machine
end

