-- ==== Sys2Proof/Machine/Flags.lean ====
section
/-! DEFINITION. The PSL as a longword (10_state.md R23) and every condition-code computation (R26; operators as
in 00_scope.md R9). -/

namespace Sys2Proof.Machine

/-- The four condition codes. -/
structure CC where
  n : Bool
  z : Bool
  v : Bool
  c : Bool
deriving DecidableEq, Repr

/-- The PSL's bits at their positions (10_state.md R23). -/
def Psl.toWord (p : Psl) : Word :=
  BitVec.ofBool p.cm ++ BitVec.ofBool p.tp ++ p.mbz29to28 ++ BitVec.ofBool p.fpd
    ++ BitVec.ofBool p.interruptStack ++ p.curMod ++ p.prvMod ++ BitVec.ofBool p.mbz21 ++ p.ipl
    ++ p.mbz15to8 ++ BitVec.ofBool p.dv ++ BitVec.ofBool p.fu ++ BitVec.ofBool p.iv ++ BitVec.ofBool p.t
    ++ BitVec.ofBool p.n ++ BitVec.ofBool p.z ++ BitVec.ofBool p.v ++ BitVec.ofBool p.c

/-- The PSL that a longword holds (10_state.md R23). -/
def Psl.ofWord (w : Word) : Psl :=
  { c := w.getLsbD 0, v := w.getLsbD 1, z := w.getLsbD 2, n := w.getLsbD 3, t := w.getLsbD 4,
    iv := w.getLsbD 5, fu := w.getLsbD 6, dv := w.getLsbD 7, mbz15to8 := w.extractLsb' 8 8,
    ipl := w.extractLsb' 16 5, mbz21 := w.getLsbD 21, prvMod := w.extractLsb' 22 2,
    curMod := w.extractLsb' 24 2, interruptStack := w.getLsbD 26, fpd := w.getLsbD 27,
    mbz29to28 := w.extractLsb' 28 2, tp := w.getLsbD 30, cm := w.getLsbD 31 }

/-- The condition codes replaced. -/
def Psl.setCC (p : Psl) (cc : CC) : Psl :=
  { p with n := cc.n, z := cc.z, v := cc.v, c := cc.c }

/-- The condition codes of a PSL. -/
def Psl.cc (p : Psl) : CC :=
  { n := p.n, z := p.z, v := p.v, c := p.c }

/-- SUB and TST: N <- x LSS 0, Z <- x EQL 0, V <- 0, C <- 0 (40_floating_sub_tst.md R105, R115). -/
def floatingCC (t : FType) (x : Nat) : CC :=
  { n := t.isNegative x, z := t.isZero x, v := false, c := false }

/-- One byte comparison of CMPC3 and CMPC5 (41_character_string.md R136): LSS signed, LSSU unsigned, 8 bits. -/
def byteCC (b1 b2 : Byte) : CC :=
  { n := b1.slt b2, z := b1 == b2, v := false, c := b1.ult b2 }

/-- Two equal strings, or two of zero length (R136). -/
def equalCC : CC :=
  { n := false, z := true, v := false, c := false }

/-- LOCC and MATCHC: N <- 0, Z <- R0 EQL 0, V <- 0, C <- 0 (R138, R139). -/
def zeroCC (r0 : Word) : CC :=
  { n := false, z := r0 == 0, v := false, c := false }

/-- MOVC5 and MOVTC: the two length operands compared, LSS signed, LSSU unsigned, 16 bits (R141, R142). -/
def lengthCC (srclen dstlen : BitVec 16) : CC :=
  { n := srclen.slt dstlen, z := srclen == dstlen, v := false, c := srclen.ult dstlen }

end Sys2Proof.Machine
end

