-- ==== Sys2Proof/Machine/Memory.lean ====
section
/-! DEFINITION. Operations on memory as data, and on the list of written addresses (20_memory.md R40 to R42,
R47, R54). -/

namespace Sys2Proof.Machine

/-- What an unlisted address reads as (notes/assumptions/4.md). -/
def unlistedByte : Byte := 0

/-- The byte at an address. -/
def Memory.read : Memory → Nat → Byte
  | [], _ => unlistedByte
  | (k, b) :: m, a => if k = a then b else Memory.read m a

/-- A cell in front of a memory, left out when it says what an unlisted address reads as. -/
def Memory.cons (a : Nat) (b : Byte) (m : Memory) : Memory :=
  if b = unlistedByte then m else (a, b) :: m

/-- One byte stored at an address; the canonical form is kept. -/
def Memory.write : Memory → Nat → Byte → Memory
  | [], a, b => Memory.cons a b []
  | (k, c) :: m, a, b =>
    if a < k then Memory.cons a b ((k, c) :: m)
    else if a = k then Memory.cons a b m
    else (k, c) :: Memory.write m a b

/-- Addresses strictly rising from `lo` on. -/
def risingFrom : Nat → List Nat → Bool
  | _, [] => true
  | lo, a :: as => decide (lo ≤ a) && risingFrom (a + 1) as

/-- The canonical form of memory: addresses strictly rising and below 2^32, no cell that says what an unlisted
address reads as. -/
def Memory.wf (m : Memory) : Bool :=
  risingFrom 0 (m.map Prod.fst) && m.all fun cell => decide (cell.1 < 2 ^ 32) && cell.2 != unlistedByte

/-- One address marked as written. -/
def Written.mark : List Nat → Nat → List Nat
  | [], a => [a]
  | k :: w, a => if a < k then a :: k :: w else if a = k then k :: w else k :: Written.mark w a

/-- The canonical form of the written addresses: strictly rising and below 2^32. -/
def Written.wf (w : List Nat) : Bool :=
  risingFrom 0 w && w.all fun a => decide (a < 2 ^ 32)

/-- The addresses of a string: `a`, `a +32 1`, .., `n` of them (20_memory.md R40, R47). -/
def stringAddrs (a : Word) (n : Nat) : List Word :=
  (List.range n).map fun i => a + BitVec.ofNat 32 i

/-- The bytes of a string, lowest-addressed first (20_memory.md R40). -/
def Memory.readString (m : Memory) (a : Word) (n : Nat) : List Byte :=
  (stringAddrs a n).map fun x => m.read x.toNat

/-- The unsigned integer of a list of bytes, least significant first (20_memory.md R41). -/
def leValue : List Byte → Nat
  | [] => 0
  | b :: bs => b.toNat + 256 * leValue bs

/-- Bytes stored at `a`, `a +32 1`, .. in that order (20_memory.md R42). -/
def Memory.writeBytes (m : Memory) (a : Word) : List Byte → Memory
  | [] => m
  | b :: bs => Memory.writeBytes (m.write a.toNat b) (a + 1) bs

/-- The addresses `a`, `a +32 1`, .., `n` of them, marked as written. -/
def Written.markRange (w : List Nat) (a : Word) : Nat → List Nat
  | 0 => w
  | n + 1 => Written.markRange (Written.mark w a.toNat) (a + 1) n

end Sys2Proof.Machine
end

