-- ==== Sys2Proof/Machine/Ops.lean ====
section
/-! DEFINITION. The shared operations: registers, condition codes, admission, memory access, free values, and
taking an exception (00_scope.md R10, R11; 20_memory.md R42, R46; 60_exceptions.md R201, R203). -/

namespace Sys2Proof.Machine

/-- `x[n]` (00_scope.md R10). -/
def State.getReg (s : State) (n : Reg) : Word := s.regs.get n

/-- `x[n] <- v` (00_scope.md R10). -/
def State.setReg (s : State) (n : Reg) (v : Word) : State :=
  { s with regs := s.regs.set n.val v n.isLt }

/-- The program counter is R15 (10_state.md R22). -/
def State.pc (s : State) : Word := s.getReg 15

/-- `pc <- v`. -/
def State.setPc (s : State) (v : Word) : State := s.setReg 15 v

/-- The condition codes written. -/
def State.setCC (s : State) (cc : CC) : State :=
  { s with psl := s.psl.setCC cc }

/-- The condition codes. -/
def State.cc (s : State) : CC := s.psl.cc

/-- An opcode is implemented by the processor (00_scope.md R6, `Implemented`). -/
def Platform.implements (p : Platform) (op : Opcode) : Bool :=
  !p.notImplemented.contains op

/-- The row is about these operands, and answers what a subtraction function can answer. -/
def SubtractionRule.covers (r : SubtractionRule) (t : FType) (a b : Nat) : Bool :=
  r.ty == t && r.minuend == a && r.subtrahend == b && t.isResult r.result

/-- The answer of the first row about these operands, or the default (40_floating_sub_tst.md R104). -/
def subtractBy : List SubtractionRule → FType → Nat → Nat → FSubResult
  | [], t, a, b => t.fsub a b
  | r :: rs, t, a, b => if r.covers t a b then r.result else subtractBy rs t a b

/-- `FSub_T(a, b)` on this platform. A difference that is the value of a datum is that datum on every platform:
"the result is exact whenever the exact difference is representable" holds "of any reading of "rounded""
(40_floating_sub_tst.md R104). -/
def Platform.fsub (p : Platform) (t : FType) (a b : Nat) : FSubResult :=
  if t.isExact a b then t.fsub a b else subtractBy p.subtraction t a b

/-- The rule is about this access. -/
def AdmitRule.covers (r : AdmitRule) (kind : AccessKind) (a : Word) : Bool :=
  r.kind == kind && decide (r.base ≤ a.toNat) && decide (a.toNat < r.base + r.size)

/-- `Admit(a, 1, kind)` (20_memory.md R46): the first rule that covers the access decides. -/
def admitsBy : List AdmitRule → AccessKind → Word → Bool
  | [], _, _ => true
  | r :: rs, kind, a => if r.covers kind a then r.admitted else admitsBy rs kind a

/-- `Admit(a, 1, kind)` on this machine. -/
def State.admits (s : State) (kind : AccessKind) (a : Word) : Bool :=
  admitsBy s.platform.admission kind a

/-- The byte of memory at an address. -/
def State.readByte (s : State) (a : Word) : Byte :=
  s.mem.read a.toNat

/-- The exceptions an instruction can raise (60_exceptions.md R200). `stringAccess` is an access fault of a string
instruction; it names the destination string, of length 0 where none is resolved yet, since its state is special
(20_memory.md R46). -/
inductive Exception where
  | reservedOperand
  | floatingOverflow
  | floatingUnderflow
  | access (a : Word) (kind : AccessKind)
  | stringAccess (a : Word) (kind : AccessKind) (dstaddr : Word) (dstlen : Nat)
deriving DecidableEq, Repr

/-- Why an instruction ends without a next state (00_scope.md R11). -/
inductive Stop where
  | raise (e : Exception)
  | refuse (r : Refusal)
deriving DecidableEq, Repr

/-- The outcome of one instruction. -/
abbrev Result := Host.Outcome State Fault Refusal

/-- The lowest-offset address among `a`, .., `a +32 (n-1)` that the platform does not admit (R42). -/
def State.firstDenied (s : State) (kind : AccessKind) (a : Word) (n : Nat) : Option Word :=
  (stringAddrs a n).find? fun x => !s.admits kind x

/-- `MemRead(addr, n)` (R42). -/
def State.memRead (s : State) (a : Word) (n : Nat) : Except Stop Nat :=
  match s.firstDenied .read a n with
  | some x => .error (.raise (.access x .read))
  | none => .ok (leValue (s.mem.readString a n))

/-- Bytes stored from an address on, and marked as written (R42, R54). -/
def State.storeBytes (s : State) (a : Word) (bs : List Byte) : State :=
  { s with mem := s.mem.writeBytes a bs, written := Written.markRange s.written a bs.length }

/-- The write half of `MemWrite(addr, n, v)`, once admission has been checked (R42). -/
def State.memWrite (s : State) (a : Word) (n : Nat) (v : Nat) : State :=
  s.storeBytes a (leBytes n v)

/-- Four draws for N, Z, V and C (10_state.md R26; notes/assumptions/8.md and 9.md). -/
def State.drawCC (s : State) : State :=
  { s.setCC { n := Config.freeBit s.draws, z := Config.freeBit (s.draws + 1),
              v := Config.freeBit (s.draws + 2), c := Config.freeBit (s.draws + 3) }
    with draws := s.draws + 4 }

/-- A draw stored at each of these addresses (41_character_string.md R142; 20_memory.md R46). -/
def State.drawBytes (s : State) : List Word → State
  | [] => s
  | a :: as => State.drawBytes { s.storeBytes a [Config.freeByte s.draws] with draws := s.draws + 1 } as

/-- A draw in each of these registers (20_memory.md R46). -/
def State.drawRegs (s : State) : List Reg → State
  | [] => s
  | n :: ns => State.drawRegs { s.setReg n (Config.freeWord s.draws) with draws := s.draws + 1 } ns

/-- R0 to R5, the registers of the control block (41_character_string.md R131). -/
def controlBlock : List Reg := [0, 1, 2, 3, 4, 5]

/-- The state at a memory access fault inside a string instruction: R0 to R5, the condition codes and
every byte of the destination string are draws (20_memory.md R46; 93 U6; notes/assumptions/33.md). -/
def State.stringFaulted (s : State) (dstaddr : Word) (dstlen : Nat) : State :=
  ((s.drawRegs controlBlock).drawCC).drawBytes (stringAddrs dstaddr dstlen)

/-- Taking an exception, `raise E` (60_exceptions.md R201, R203): the run ends with the fault and the state it
leaves. `s` is the state at the start of the instruction, so the PC is the instruction's own address and
every register that operand evaluation stepped is restored. -/
def raise (s : State) : Exception → Result
  | .reservedOperand => .fault (.reservedOperand s.drawCC)
  | .floatingOverflow => .fault (.floatingOverflow s.drawCC)
  | .floatingUnderflow => .fault (.floatingUnderflow s.drawCC)
  | .access a kind => .fault (.accessFault a kind s)
  | .stringAccess a kind dst n => .fault (.accessFault a kind (s.stringFaulted dst n))

/-- The end of an instruction that started in `s`. -/
def conclude (s : State) : Except Stop State → Result
  | .ok s' => .next s'
  | .error (.raise e) => raise s e
  | .error (.refuse r) => .refused r

/-- A stop of a string instruction before its operation starts: an access fault there leaves R0 to R5 and the
condition codes open as well (20_memory.md R46). The destination is a move's last operand, so no destination byte
could have been written (notes/assumptions/10.md). -/
def Stop.inString : Stop → Stop
  | .raise (.access a kind) => .raise (.stringAccess a kind 0 0)
  | .raise e => .raise e
  | .refuse r => .refuse r

/-- A stop during an instruction of opcode `op`. -/
def Stop.during (op : Opcode) (e : Stop) : Stop :=
  if op.isString then e.inString else e

/-- The end of a string instruction that started in `s`: `conclude`, with the state of R46 at every access fault. -/
def concludeString (s : State) : Except Stop State → Result
  | .ok s' => .next s'
  | .error e => conclude s (.error e.inString)

/-- Registers written one after another. -/
def State.setRegs (s : State) : List (Reg × Word) → State
  | [] => s
  | (n, v) :: ws => State.setRegs (s.setReg n v) ws

/-- The end of an instruction that completes: implied registers, condition codes, then the PC
(41_character_string.md R135 (d), (e)). -/
def State.complete (s : State) (ws : List (Reg × Word)) (cc : CC) (pc : Word) : State :=
  ((s.setRegs ws).setCC cc).setPc pc

end Sys2Proof.Machine
end

