-- ==== Sys2Proof/Machine/Operands.lean ====
section
/-! DEFINITION. Operand evaluation (30_encoding.md R63 to R69, R75): every operand form, as a function from the
state that earlier specifiers left to the operand and the state it leaves. -/

namespace Sys2Proof.Machine

/-- Where operand evaluation stands: the state, with the registers as the specifiers so far left them, and the
address of the next byte of the instruction. -/
structure Cursor where
  state : State
  addr : Word
deriving DecidableEq, Repr

/-- Operand evaluation begins after the opcode (R60). -/
def Cursor.start (s : State) (op : Opcode) : Cursor :=
  { state := s, addr := s.pc + BitVec.ofNat 32 op.bytes.length }

/-- `sext_32` of a displacement (R64). -/
def Disp.toWord : Disp → Word
  | .byte d => d.signExtend 32
  | .word d => d.signExtend 32
  | .long d => d

/-- The register a displacement is added to; for R15 it is `pcnext`, the address after the specifier (R64). -/
def displacementBase (s : State) (n : Reg) (pcnext : Word) : Word :=
  if n = 15 then pcnext else s.getReg n

/-- The address of an operand in memory by a specifier that is not index mode, and the state after it (R64).
`pcnext` is the address after the specifier. -/
def baseAddress (s : State) (size : Nat) (pcnext : Word) : BaseSpec → Except Stop (Word × State)
  | .literal _ => .error (.refuse .operandForm)
  | .register _ => .error (.refuse .operandForm)
  | .deferred n => .ok (s.getReg n, s)
  | .autodecrement n =>
    let a := s.getReg n - BitVec.ofNat 32 size
    .ok (a, s.setReg n a)
  | .autoincrement n => .ok (s.getReg n, s.setReg n (s.getReg n + BitVec.ofNat 32 size))
  | .immediate _ => .ok (pcnext - BitVec.ofNat 32 size, s)
  | .autoincrementDeferred n => do
    let a ← s.memRead (s.getReg n) 4
    .ok (BitVec.ofNat 32 a, s.setReg n (s.getReg n + 4))
  | .absolute a => .ok (a, s)
  | .displacement n d => .ok (displacementBase s n pcnext + Disp.toWord d, s)
  | .displacementDeferred n d => do
    let a ← s.memRead (displacementBase s n pcnext + Disp.toWord d) 4
    .ok (BitVec.ofNat 32 a, s)

/-- The address of an operand in memory, and the cursor after its specifier (R64, R67). In index mode the base
is evaluated first, then `size * x[rx]` is added, modulo 2^32. -/
def operandAddress (size : Nat) (sp : Specifier) (k : Cursor) : Except Stop (Word × Cursor) :=
  let pcnext := k.addr + BitVec.ofNat 32 (sp.length size)
  match sp with
  | .plain b => do
    let (a, s) ← baseAddress k.state size pcnext b
    .ok (a, { state := s, addr := pcnext })
  | .index rx b => do
    let (a, s) ← baseAddress k.state size pcnext b
    .ok (a + BitVec.ofNat 32 size * s.getReg rx, { state := s, addr := pcnext })

/-- `n` consecutive registers from `x[r]` on as one value, `x[r]` the low part (R69). -/
def State.readRegs (s : State) (r : Reg) : Nat → Nat
  | 0 => 0
  | n + 1 => (s.getReg r).toNat + 2 ^ 32 * State.readRegs s (r + 1) n

/-- A value written to `n` consecutive registers, its low part to `x[r]` (R69). -/
def State.writeRegs (s : State) (r : Reg) : Nat → Nat → State
  | 0, _ => s
  | n + 1, v => State.writeRegs (s.setReg r (BitVec.ofNat 32 v)) (r + 1) n (v / 2 ^ 32)

/-- A register-mode operand: its registers, of which a byte or word operand is the low bits (R69). -/
def readRegister (s : State) (ty : DataType) (r : Reg) : Nat :=
  s.readRegs r ty.registers % 256 ^ ty.size

/-- Where a modify or write operand is (00_scope.md R13). -/
inductive Location where
  | register (r : Reg)
  | memory (a : Word)
deriving DecidableEq, Repr

/-- The location of a modify or write operand, and the cursor after its specifier (R75). -/
def locate (acc : Access) (ty : DataType) (sp : Specifier) (k : Cursor) :
    Except Stop (Location × Cursor) :=
  if sp.legal acc ty then
    match sp with
    | .plain (.register r) =>
      .ok (.register r, { k with addr := k.addr + BitVec.ofNat 32 (sp.length ty.size) })
    | _ => do
      let (a, k) ← operandAddress ty.size sp k
      .ok (.memory a, k)
  else .error (.refuse .operandForm)

/-- The value at a location, whether or not a read of it is admitted (R69; 20_memory.md R41). -/
def Location.value (l : Location) (ty : DataType) (s : State) : Nat :=
  match l with
  | .register r => readRegister s ty r
  | .memory a => leValue (s.mem.readString a ty.size)

/-- The read of a location (R69; 20_memory.md R42). -/
def Location.read (l : Location) (ty : DataType) (s : State) : Except Stop Nat :=
  match l with
  | .register r => .ok (readRegister s ty r)
  | .memory a => s.memRead a ty.size

/-- The registers of a location (R69). -/
def Location.regs (l : Location) (ty : DataType) : List Reg :=
  match l with
  | .register r => ty.regsFrom r
  | .memory _ => []

/-- The addresses of a location (20_memory.md R42). -/
def Location.addrs (l : Location) (ty : DataType) : List Word :=
  match l with
  | .register _ => []
  | .memory a => stringAddrs a ty.size

/-- A value stored at a location whose admission has been checked (R69; 20_memory.md R42). -/
def Location.write (l : Location) (ty : DataType) (v : Nat) (s : State) : State :=
  match l with
  | .register r => s.writeRegs r ty.registers v
  | .memory a => s.memWrite a ty.size v

/-- The store to a location is admitted (40_floating_sub_tst.md R105; 60_exceptions.md R204). -/
def Location.checkWrite (l : Location) (ty : DataType) (s : State) : Except Stop Unit :=
  match l with
  | .register _ => .ok ()
  | .memory a =>
    match s.firstDenied .write a ty.size with
    | some x => .error (.raise (.access x .write))
    | none => .ok ()

/-- A read operand's value, and the cursor after its specifier (R64, R65, R66, R75). -/
def readOperand (ty : DataType) (sp : Specifier) (k : Cursor) : Except Stop (Nat × Cursor) :=
  if sp.legal .read ty then
    let next : Cursor := { k with addr := k.addr + BitVec.ofNat 32 (sp.length ty.size) }
    match sp with
    | .plain (.literal lit) => .ok (expandLiteral ty lit, next)
    | .plain (.register r) => .ok (readRegister k.state ty r, next)
    | .plain (.immediate v) => .ok (v.toNat % 256 ^ ty.size, next)
    | _ => do
      let (a, k) ← operandAddress ty.size sp k
      let v ← k.state.memRead a ty.size
      .ok (v, k)
  else .error (.refuse .operandForm)

/-- A byte read operand (`.rb`). -/
def readByteOperand (sp : Specifier) (k : Cursor) : Except Stop (Byte × Cursor) := do
  let (v, k) ← readOperand .byte sp k
  .ok (BitVec.ofNat 8 v, k)

/-- A word read operand (`.rw`). -/
def readWordOperand (sp : Specifier) (k : Cursor) : Except Stop (BitVec 16 × Cursor) := do
  let (v, k) ← readOperand .word sp k
  .ok (BitVec.ofNat 16 v, k)

/-- A byte operand of address access type (`.ab`): the address itself is the operand (00_scope.md R8). -/
def addressOperand (sp : Specifier) (k : Cursor) : Except Stop (Word × Cursor) :=
  if sp.legal .address .byte then operandAddress DataType.byte.size sp k
  else .error (.refuse .operandForm)

/-- A floating value that has been read as an operand: a reserved operand faults (60_exceptions.md R204). -/
def checkReserved (t : FType) (B : Nat) : Except Stop Unit :=
  if t.isReserved B then .error (.raise .reservedOperand) else .ok ()

/-- A floating read operand (`.rx`). -/
def readFloating (t : FType) (sp : Specifier) (k : Cursor) : Except Stop (Nat × Cursor) := do
  let (v, k) ← readOperand (.floating t) sp k
  checkReserved t v
  .ok (v, k)

/-- A floating modify operand (`.mx`): its location, its old value, and the cursor after it (R75). -/
def modifyFloating (t : FType) (sp : Specifier) (k : Cursor) :
    Except Stop (Location × Nat × Cursor) := do
  let (l, k) ← locate .modify (.floating t) sp k
  let old ← l.read (.floating t) k.state
  checkReserved t old
  .ok (l, old, k)

/-- A floating write operand (`.wx`): its location, and the cursor after it (R75). -/
def writeFloating (t : FType) (sp : Specifier) (k : Cursor) : Except Stop (Location × Cursor) :=
  locate .write (.floating t) sp k

/-- One operand evaluated (R75): the cursor after its specifier. -/
def evaluateOperand : Access → DataType → Specifier → Cursor → Except Stop Cursor
  | .read, .floating t, sp, k => do
    let (_, k) ← readFloating t sp k
    .ok k
  | .modify, .floating t, sp, k => do
    let (_, _, k) ← modifyFloating t sp k
    .ok k
  | .read, ty, sp, k => do
    let (_, k) ← readOperand ty sp k
    .ok k
  | .address, _, sp, k => do
    let (_, k) ← addressOperand sp k
    .ok k
  | acc, ty, sp, k => do
    let (_, k) ← locate acc ty sp k
    .ok k

/-- Operands evaluated in instruction-stream order, each completely before the next (R75, R76 (3)). -/
def evaluateOperands : List ((Access × DataType) × Specifier) → Cursor → Except Stop Cursor
  | [], k => .ok k
  | o :: os, k => do
    let k ← evaluateOperand o.1.1 o.1.2 o.2 k
    evaluateOperands os k

end Sys2Proof.Machine
end

