-- ==== Sys2Proof/Machine/CharacterString.lean ====
section
/-! DEFINITION. The meanings of the character string instructions (41_character_string.md R130 to R148). Each
operation is a function of the resolved operands (R5, R14), in the pseudocode's order. -/

namespace Sys2Proof.Machine

/-- The admission check that a string instruction makes before it starts (R135 (c)): strings in the order
listed, a string of length 0 never. `dstaddr` and `dstlen` are its destination string, for the state at the
fault. -/
def admitStrings (s : State) (dstaddr : Word) (dstlen : Nat) :
    List (AccessKind × Word × Nat) → Except Stop Unit
  | [] => .ok ()
  | (kind, a, n) :: rest =>
    match s.firstDenied kind a n with
    | some x => .error (.raise (.stringAccess x kind dstaddr dstlen))
    | none => admitStrings s dstaddr dstlen rest

/-- An address `i` bytes on, modulo 2^32 (20_memory.md R47). -/
def offset (a : Word) (i : Nat) : Word := a + BitVec.ofNat 32 i

/-- What a string comparison has reached: bytes remaining in each string, the addresses of the next bytes, and
the condition codes of the last comparison (R136, R137). -/
structure Comparison where
  l1 : Nat
  a1 : Word
  l2 : Nat
  a2 : Word
  cc : CC
deriving DecidableEq, Repr

/-- The comparison loop of CMPC3 with `l` bytes left (R136). -/
def compareEqualLength (s : State) : Nat → Word → Word → CC → Comparison
  | 0, a1, a2, cc => { l1 := 0, a1 := a1, l2 := 0, a2 := a2, cc := cc }
  | l + 1, a1, a2, _ =>
    let b1 := s.readByte a1
    let b2 := s.readByte a2
    if b1 = b2 then compareEqualLength s l (a1 + 1) (a2 + 1) (byteCC b1 b2)
    else { l1 := l + 1, a1 := a1, l2 := l + 1, a2 := a2, cc := byteCC b1 b2 }

/-- The comparison loop of CMPC5 (R137); `fuel` is the number of comparisons still possible, max l1 l2. An
exhausted string is extended with the fill byte. -/
def compareFilled (s : State) (fill : Byte) : Nat → Comparison → Comparison
  | 0, t => t
  | fuel + 1, t =>
    let b1 := if t.l1 = 0 then fill else s.readByte t.a1
    let b2 := if t.l2 = 0 then fill else s.readByte t.a2
    if b1 = b2 then
      compareFilled s fill fuel
        { l1 := t.l1 - 1, a1 := if t.l1 = 0 then t.a1 else t.a1 + 1,
          l2 := t.l2 - 1, a2 := if t.l2 = 0 then t.a2 else t.a2 + 1, cc := byteCC b1 b2 }
    else { t with cc := byteCC b1 b2 }

/-- The end of CMPC3 and CMPC5: R0 to R3 and the condition codes (R136, R137). -/
def finishComparison (t : Comparison) (k : Cursor) : State :=
  k.state.complete
    [(0, BitVec.ofNat 32 t.l1), (1, t.a1), (2, BitVec.ofNat 32 t.l2), (3, t.a2)] t.cc k.addr

/-- CMPC3 on resolved operands (R136). -/
def compare3 (len : BitVec 16) (src1addr src2addr : Word) (k : Cursor) : Except Stop State := do
  let l := len.toNat
  admitStrings k.state 0 0 [(.read, src1addr, l), (.read, src2addr, l)]
  .ok (finishComparison (compareEqualLength k.state l src1addr src2addr equalCC) k)

/-- CMPC5 on resolved operands (R137). -/
def compare5 (src1len : BitVec 16) (src1addr : Word) (fill : Byte) (src2len : BitVec 16)
    (src2addr : Word) (k : Cursor) : Except Stop State := do
  let l1 := src1len.toNat
  let l2 := src2len.toNat
  admitStrings k.state 0 0 [(.read, src1addr, l1), (.read, src2addr, l2)]
  .ok (finishComparison
    (compareFilled k.state fill (max l1 l2)
      { l1 := l1, a1 := src1addr, l2 := l2, a2 := src2addr, cc := equalCC }) k)

/-- The search loop of LOCC with `l` bytes left: bytes remaining and the address reached (R138). -/
def locateByte (s : State) (char : Byte) : Nat → Word → Nat × Word
  | 0, a => (0, a)
  | l + 1, a => if s.readByte a = char then (l + 1, a) else locateByte s char l (a + 1)

/-- LOCC on resolved operands (R138). -/
def locateCharacter (char : Byte) (len : BitVec 16) (addr : Word) (k : Cursor) : Except Stop State := do
  let l := len.toNat
  admitStrings k.state 0 0 [(.read, addr, l)]
  let (r0, r1) := locateByte k.state char l addr
  .ok (k.state.complete [(0, BitVec.ofNat 32 r0), (1, r1)] (zeroCC (BitVec.ofNat 32 r0)) k.addr)

/-- The object string stands in the source string at offset `p` (R139). -/
def matchesAt (s : State) (objlen : Nat) (objaddr srcaddr : Word) (p : Nat) : Bool :=
  (List.range objlen).all fun j => s.readByte (offset srcaddr (p + j)) == s.readByte (offset objaddr j)

/-- The lowest offset at which the object string stands in the source string (R139, D15;
notes/assumptions/18.md). An empty object string stands at offset 0. -/
def findMatch (s : State) (objlen : Nat) (objaddr : Word) (srclen : Nat) (srcaddr : Word) : Option Nat :=
  if objlen = 0 then some 0
  else (List.range (srclen + 1 - objlen)).find? fun p => matchesAt s objlen objaddr srcaddr p

/-- MATCHC on resolved operands (R139). With an empty object or source there is no memory reference (R133); otherwise
both strings are checked, a source shorter than the object included (R135 (c), D31; notes/assumptions/17.md). -/
def matchCharacters (objlen : BitVec 16) (objaddr : Word) (srclen : BitVec 16) (srcaddr : Word)
    (k : Cursor) : Except Stop State := do
  let ol := objlen.toNat
  let sl := srclen.toNat
  if ol ≠ 0 ∧ sl ≠ 0 then
    admitStrings k.state 0 0 [(.read, objaddr, ol), (.read, srcaddr, sl)]
  match findMatch k.state ol objaddr sl srcaddr with
  | some p =>
    .ok (k.state.complete
      [(0, 0), (1, offset objaddr ol), (2, BitVec.ofNat 32 (sl - (p + ol))), (3, offset srcaddr (p + ol))]
      (zeroCC 0) k.addr)
  | none =>
    .ok (k.state.complete
      [(0, BitVec.ofNat 32 ol), (1, objaddr), (2, 0), (3, offset srcaddr sl)]
      (zeroCC (BitVec.ofNat 32 ol)) k.addr)

/-- MOVC3 on resolved operands (R140): all reads before any write (20_memory.md R48). -/
def moveCharacter3 (len : BitVec 16) (srcaddr dstaddr : Word) (k : Cursor) : Except Stop State := do
  let l := len.toNat
  admitStrings k.state dstaddr l [(.read, srcaddr, l), (.write, dstaddr, l)]
  let moved := k.state.mem.readString srcaddr l
  .ok ((k.state.storeBytes dstaddr moved).complete
    [(0, 0), (1, offset srcaddr l), (2, 0), (3, offset dstaddr l), (4, 0), (5, 0)] equalCC k.addr)

/-- The length for which a move reads its source string: none of it is read when nothing is moved (R141, R142;
notes/assumptions/17.md). -/
def readLength (srclen dstlen : Nat) : Nat := if dstlen = 0 then 0 else srclen

/-- MOVC5 on resolved operands (R141). -/
def moveCharacter5 (srclen : BitVec 16) (srcaddr : Word) (fill : Byte) (dstlen : BitVec 16)
    (dstaddr : Word) (k : Cursor) : Except Stop State := do
  let sl := srclen.toNat
  let dl := dstlen.toNat
  let m := min sl dl
  admitStrings k.state dstaddr dl [(.read, srcaddr, readLength sl dl), (.write, dstaddr, dl)]
  let moved := k.state.mem.readString srcaddr m ++ List.replicate (dl - m) fill
  .ok ((k.state.storeBytes dstaddr moved).complete
    [(0, BitVec.ofNat 32 (sl - m)), (1, offset srcaddr m), (2, 0), (3, offset dstaddr dl), (4, 0), (5, 0)]
    (lengthCC srclen dstlen) k.addr)

/-- The table entry for each byte, the byte being an unsigned index (R142). -/
def translateBytes (s : State) (tbladdr : Word) (bs : List Byte) : List Byte :=
  bs.map fun b => s.readByte (offset tbladdr b.toNat)

/-- Some byte of the destination string lies in the 256-byte table (R142). -/
def overlapsTable (tbladdr dstaddr : Word) (dstlen : Nat) : Bool :=
  (stringAddrs dstaddr dstlen).any fun x => decide ((x - tbladdr).toNat < 256)

/-- The destination string of MOVTC written: the translated bytes and the fill, or a draw in every byte when it
overlaps the table (R142, D16; notes/assumptions/19.md). -/
def storeTranslated (s : State) (tbladdr dstaddr : Word) (dstlen : Nat) (bs : List Byte) :
    Except Stop State :=
  if overlapsTable tbladdr dstaddr dstlen then
    match s.platform.movtcOverlap with
    | .draw => .ok (s.drawBytes (stringAddrs dstaddr dstlen))
    | .refuse => .error (.refuse .movtcOverlap)
  else .ok (s.storeBytes dstaddr bs)

/-- MOVTC on resolved operands (R142). -/
def moveTranslated (srclen : BitVec 16) (srcaddr : Word) (fill : Byte) (tbladdr : Word)
    (dstlen : BitVec 16) (dstaddr : Word) (k : Cursor) : Except Stop State := do
  let sl := srclen.toNat
  let dl := dstlen.toNat
  let m := min sl dl
  admitStrings k.state dstaddr dl
    [(.read, srcaddr, readLength sl dl), (.write, dstaddr, dl), (.read, tbladdr, if m = 0 then 0 else 256)]
  let moved := translateBytes k.state tbladdr (k.state.mem.readString srcaddr m) ++ List.replicate (dl - m) fill
  let s ← storeTranslated k.state tbladdr dstaddr dl moved
  .ok (s.complete
    [(0, BitVec.ofNat 32 (sl - m)), (1, offset srcaddr m), (2, 0), (3, tbladdr), (4, 0),
      (5, offset dstaddr dl)]
    (lengthCC srclen dstlen) k.addr)

/-- The operands `len.rw, addr.ab, addr.ab` of CMPC3 and MOVC3, resolved (30_encoding.md R75). -/
def operands3 (op : Opcode) (len addr1 addr2 : Specifier) (s : State) :
    Except Stop (BitVec 16 × Word × Word × Cursor) := do
  let (l, k) ← readWordOperand len (Cursor.start s op)
  let (a1, k) ← addressOperand addr1 k
  let (a2, k) ← addressOperand addr2 k
  .ok (l, a1, a2, k)

/-- The operands `len.rw, addr.ab, fill.rb, len.rw, addr.ab` of CMPC5 and MOVC5, resolved (30_encoding.md
R75). -/
def operands5 (op : Opcode) (len1 addr1 fill len2 addr2 : Specifier) (s : State) :
    Except Stop (BitVec 16 × Word × Byte × BitVec 16 × Word × Cursor) := do
  let (l1, k) ← readWordOperand len1 (Cursor.start s op)
  let (a1, k) ← addressOperand addr1 k
  let (f, k) ← readByteOperand fill k
  let (l2, k) ← readWordOperand len2 k
  let (a2, k) ← addressOperand addr2 k
  .ok (l1, a1, f, l2, a2, k)

/-- The operands `char.rb, len.rw, addr.ab` of LOCC, resolved (30_encoding.md R75). -/
def loccOperands (char len addr : Specifier) (s : State) :
    Except Stop (Byte × BitVec 16 × Word × Cursor) := do
  let (c, k) ← readByteOperand char (Cursor.start s .locc)
  let (l, k) ← readWordOperand len k
  let (a, k) ← addressOperand addr k
  .ok (c, l, a, k)

/-- The operands `objlen.rw, objaddr.ab, srclen.rw, srcaddr.ab` of MATCHC, resolved (30_encoding.md R75). -/
def matchcOperands (objlen objaddr srclen srcaddr : Specifier) (s : State) :
    Except Stop (BitVec 16 × Word × BitVec 16 × Word × Cursor) := do
  let (ol, k) ← readWordOperand objlen (Cursor.start s .matchc)
  let (oa, k) ← addressOperand objaddr k
  let (sl, k) ← readWordOperand srclen k
  let (sa, k) ← addressOperand srcaddr k
  .ok (ol, oa, sl, sa, k)

/-- The operands `srclen.rw, srcaddr.ab, fill.rb, tbladdr.ab, dstlen.rw, dstaddr.ab` of MOVTC, resolved
(30_encoding.md R75). -/
def movtcOperands (srclen srcaddr fill tbladdr dstlen dstaddr : Specifier) (s : State) :
    Except Stop (BitVec 16 × Word × Byte × Word × BitVec 16 × Word × Cursor) := do
  let (sl, k) ← readWordOperand srclen (Cursor.start s .movtc)
  let (sa, k) ← addressOperand srcaddr k
  let (f, k) ← readByteOperand fill k
  let (ta, k) ← addressOperand tbladdr k
  let (dl, k) ← readWordOperand dstlen k
  let (da, k) ← addressOperand dstaddr k
  .ok (sl, sa, f, ta, dl, da, k)

/-- CMPC3 (R136). -/
def execCmpc3 (len src1addr src2addr : Specifier) (s : State) : Result :=
  concludeString s do
    let (l, a1, a2, k) ← operands3 .cmpc3 len src1addr src2addr s
    compare3 l a1 a2 k

/-- CMPC5 (R137). -/
def execCmpc5 (src1len src1addr fill src2len src2addr : Specifier) (s : State) : Result :=
  concludeString s do
    let (l1, a1, f, l2, a2, k) ← operands5 .cmpc5 src1len src1addr fill src2len src2addr s
    compare5 l1 a1 f l2 a2 k

/-- LOCC (R138). -/
def execLocc (char len addr : Specifier) (s : State) : Result :=
  concludeString s do
    let (c, l, a, k) ← loccOperands char len addr s
    locateCharacter c l a k

/-- MATCHC (R139). -/
def execMatchc (objlen objaddr srclen srcaddr : Specifier) (s : State) : Result :=
  concludeString s do
    let (ol, oa, sl, sa, k) ← matchcOperands objlen objaddr srclen srcaddr s
    matchCharacters ol oa sl sa k

/-- MOVC3 (R140). -/
def execMovc3 (len srcaddr dstaddr : Specifier) (s : State) : Result :=
  concludeString s do
    let (l, sa, da, k) ← operands3 .movc3 len srcaddr dstaddr s
    moveCharacter3 l sa da k

/-- MOVC5 (R141). -/
def execMovc5 (srclen srcaddr fill dstlen dstaddr : Specifier) (s : State) : Result :=
  concludeString s do
    let (sl, sa, f, dl, da, k) ← operands5 .movc5 srclen srcaddr fill dstlen dstaddr s
    moveCharacter5 sl sa f dl da k

/-- MOVTC (R142). -/
def execMovtc (srclen srcaddr fill tbladdr dstlen dstaddr : Specifier) (s : State) : Result :=
  concludeString s do
    let (sl, sa, f, ta, dl, da, k) ← movtcOperands srclen srcaddr fill tbladdr dstlen dstaddr s
    moveTranslated sl sa f ta dl da k

/-- An instruction that has a name and an operand list and no description: refused, and refused for its operand
form where R68 gives one of its operands no meaning (R143 to R146; 30_encoding.md R76). -/
def undescribed (mnemonic : String) (operands : List ((Access × DataType) × Specifier)) : Result :=
  if operands.all fun o => o.2.legal o.1.1 o.1.2 then .refused (.noSemanticsInSource mnemonic)
  else .refused .operandForm

/-- MOVTUC (R143). -/
def execMovtuc (srclen srcaddr esc tbladdr dstlen dstaddr : Specifier) (_ : State) : Result :=
  undescribed "MOVTUC" (Instr.movtuc srclen srcaddr esc tbladdr dstlen dstaddr).operands

/-- SCANC (R144). -/
def execScanc (len addr tbladdr mask : Specifier) (_ : State) : Result :=
  undescribed "SCANC" (Instr.scanc len addr tbladdr mask).operands

/-- SKPC (R145). -/
def execSkpc (char len addr : Specifier) (_ : State) : Result :=
  undescribed "SKPC" (Instr.skpc char len addr).operands

/-- SPANC (R146). -/
def execSpanc (len addr tbladdr mask : Specifier) (_ : State) : Result :=
  undescribed "SPANC" (Instr.spanc len addr tbladdr mask).operands

end Sys2Proof.Machine
end

