-- ==== Sys2Proof/Machine/FloatingSubTst.lean ====
section
/-! DEFINITION. The meanings of SUBF2 to SUBH3 and TSTF to TSTH (40_floating_sub_tst.md R105 to R119). -/

namespace Sys2Proof.Machine

/-- The value stored in `dif`, with the condition codes from it, and the next instruction (R105). -/
def storeDifference (t : FType) (l : Location) (r : Nat) (k : Cursor) : State :=
  ((l.write (.floating t) r k.state).setCC (floatingCC t r)).setPc k.addr

/-- `SUB_T(minuend, sub, dif_location)` once neither source is a reserved operand (R105). A store to `dif` that
is not admitted faults before the arithmetic exceptions do (60_exceptions.md R204). -/
def subtract (t : FType) (minuend sub : Nat) (l : Location) (k : Cursor) : Except Stop State := do
  l.checkWrite (.floating t) k.state
  match k.state.platform.fsub t minuend sub with
  | .value r => .ok (storeDifference t l r k)
  | .overflow => .error (.raise .floatingOverflow)
  | .underflow =>
    if k.state.psl.fu then .error (.raise .floatingUnderflow)
    else .ok (storeDifference t l zeroDatum k)

/-- The operands `sub.rx, dif.mx` of the two-operand form, resolved: `sub`, the location of `dif`, its old
value, and the cursor after them (30_encoding.md R75). -/
def sub2Operands (t : FType) (op : Opcode) (sub dif : Specifier) (s : State) :
    Except Stop (Nat × Location × Nat × Cursor) := do
  let (b, k) ← readFloating t sub (Cursor.start s op)
  let (l, old, k) ← modifyFloating t dif k
  .ok (b, l, old, k)

/-- The operands `sub.rx, min.rx, dif.wx` of the three-operand form, resolved (30_encoding.md R75). -/
def sub3Operands (t : FType) (op : Opcode) (sub min dif : Specifier) (s : State) :
    Except Stop (Nat × Nat × Location × Cursor) := do
  let (b, k) ← readFloating t sub (Cursor.start s op)
  let (a, k) ← readFloating t min k
  let (l, k) ← writeFloating t dif k
  .ok (b, a, l, k)

/-- The two-operand form: dif <- dif - sub (R105). -/
def sub2 (t : FType) (op : Opcode) (sub dif : Specifier) (s : State) : Result :=
  conclude s do
    let (b, l, old, k) ← sub2Operands t op sub dif s
    subtract t old b l k

/-- The three-operand form: dif <- min - sub (R105). -/
def sub3 (t : FType) (op : Opcode) (sub min dif : Specifier) (s : State) : Result :=
  conclude s do
    let (b, a, l, k) ← sub3Operands t op sub min dif s
    subtract t a b l k

/-- `TST_T(src)` (R115). -/
def tst (t : FType) (op : Opcode) (src : Specifier) (s : State) : Result :=
  conclude s do
    let (x, k) ← readFloating t src (Cursor.start s op)
    .ok ((k.state.setCC (floatingCC t x)).setPc k.addr)

/-- SUBF2 (R106). -/
def execSubf2 (sub dif : Specifier) (s : State) : Result := sub2 .f .subf2 sub dif s

/-- SUBF3 (R107). -/
def execSubf3 (sub min dif : Specifier) (s : State) : Result := sub3 .f .subf3 sub min dif s

/-- SUBD2 (R108). -/
def execSubd2 (sub dif : Specifier) (s : State) : Result := sub2 .d .subd2 sub dif s

/-- SUBD3 (R109). -/
def execSubd3 (sub min dif : Specifier) (s : State) : Result := sub3 .d .subd3 sub min dif s

/-- SUBG2 (R110). -/
def execSubg2 (sub dif : Specifier) (s : State) : Result := sub2 .g .subg2 sub dif s

/-- SUBG3 (R111). -/
def execSubg3 (sub min dif : Specifier) (s : State) : Result := sub3 .g .subg3 sub min dif s

/-- SUBH2 (R112). -/
def execSubh2 (sub dif : Specifier) (s : State) : Result := sub2 .h .subh2 sub dif s

/-- SUBH3 (R113). -/
def execSubh3 (sub min dif : Specifier) (s : State) : Result := sub3 .h .subh3 sub min dif s

/-- TSTF (R116). -/
def execTstf (src : Specifier) (s : State) : Result := tst .f .tstf src s

/-- TSTD (R117). -/
def execTstd (src : Specifier) (s : State) : Result := tst .d .tstd src s

/-- TSTG (R118). -/
def execTstg (src : Specifier) (s : State) : Result := tst .g .tstg src s

/-- TSTH (R119). -/
def execTsth (src : Specifier) (s : State) : Result := tst .h .tsth src s

end Sys2Proof.Machine
end

