-- ==== Sys2Proof/Machine/Dispatch.lean ====
section
/-! DEFINITION. One arm for each constructor of `Instr`. -/

namespace Sys2Proof.Machine

/-- What one instruction does to the state (00_scope.md R11). -/
def exec (i : Instr) (s : State) : Host.Outcome State Fault Refusal :=
  match i with
  | .movc3 len src dst => Sys2Proof.Machine.execMovc3 len src dst s
  | .cmpc3 len src1 src2 => Sys2Proof.Machine.execCmpc3 len src1 src2 s
  | .scanc len addr tbl mask => Sys2Proof.Machine.execScanc len addr tbl mask s
  | .spanc len addr tbl mask => Sys2Proof.Machine.execSpanc len addr tbl mask s
  | .movc5 sl src fill dl dst => Sys2Proof.Machine.execMovc5 sl src fill dl dst s
  | .cmpc5 l1 src1 fill l2 src2 => Sys2Proof.Machine.execCmpc5 l1 src1 fill l2 src2 s
  | .movtc sl src fill tbl dl dst => Sys2Proof.Machine.execMovtc sl src fill tbl dl dst s
  | .movtuc sl src esc tbl dl dst => Sys2Proof.Machine.execMovtuc sl src esc tbl dl dst s
  | .matchc ol obj sl src => Sys2Proof.Machine.execMatchc ol obj sl src s
  | .locc char len addr => Sys2Proof.Machine.execLocc char len addr s
  | .skpc char len addr => Sys2Proof.Machine.execSkpc char len addr s
  | .subf2 sub dif => Sys2Proof.Machine.execSubf2 sub dif s
  | .subf3 sub min dif => Sys2Proof.Machine.execSubf3 sub min dif s
  | .tstf src => Sys2Proof.Machine.execTstf src s
  | .subd2 sub dif => Sys2Proof.Machine.execSubd2 sub dif s
  | .subd3 sub min dif => Sys2Proof.Machine.execSubd3 sub min dif s
  | .tstd src => Sys2Proof.Machine.execTstd src s
  | .subg2 sub dif => Sys2Proof.Machine.execSubg2 sub dif s
  | .subg3 sub min dif => Sys2Proof.Machine.execSubg3 sub min dif s
  | .tstg src => Sys2Proof.Machine.execTstg src s
  | .subh2 sub dif => Sys2Proof.Machine.execSubh2 sub dif s
  | .subh3 sub min dif => Sys2Proof.Machine.execSubh3 sub min dif s
  | .tsth src => Sys2Proof.Machine.execTsth src s

end Sys2Proof.Machine
end

