-- ==== Sys2Proof/Machine/Fetch.lean ====
section
/-! DEFINITION. Instruction fetch (30_encoding.md R76; 10_state.md R22; 20_memory.md R54). -/

namespace Sys2Proof.Machine

/-- The instruction byte at offset `k` from the PC: refused past the highest address (10_state.md R22), an
access fault where fetch is not admitted (R76), refused where an instruction has stored (20_memory.md R54). -/
def fetchByte (s : State) (k : Nat) : Except Stop Byte :=
  let a := s.pc.toNat + k
  if 2 ^ 32 ≤ a then .error (.refuse .straddlesTop)
  else if !s.admits .fetch (BitVec.ofNat 32 a) then
    .error (.raise (.access (BitVec.ofNat 32 a) .fetch))
  else if s.written.contains a then .error (.refuse .modifiedCode)
  else .ok (s.mem.read a)

/-- Why the decoder stopped, as the end of an instruction (R71, R76). -/
def decodeStop : DecodeError Stop → Stop
  | .noByte e => e
  | .unknownOpcode => .refuse .unknownOpcode
  | .operandForm => .refuse .operandForm

/-- Whether the operands `os` of an instruction of opcode `op` can be evaluated: for an instruction without a
description only their forms count (41_character_string.md R143 to R146; notes/assumptions/16.md). Where not, the
stop is one of that instruction, as its access faults are (20_memory.md R46). -/
def reachOperands (op : Opcode) (os : List ((Access × DataType) × Specifier)) (s : State) : Except Stop Unit :=
  if op.described then
    match evaluateOperands os (Cursor.start s op) with
    | .ok _ => .ok ()
    | .error e => .error (e.during op)
  else if os.all fun o => o.2.legal o.1.1 o.1.2 then .ok ()
  else .error (.refuse .operandForm)

/-- How an instruction ends that cannot be read to its end: `os` are the operands before the one at which reading
stops for the reason `stop`. They are evaluated first (R76 (3)), and one that is refused or raises an exception
ends the instruction; but an access fault on fetch comes before an exception of operand evaluation
(60_exceptions.md R204 (1), (2)), if no operand before it is refused (notes/assumptions/13.md). -/
def unreadStop (op : Opcode) (os : List ((Access × DataType) × Specifier)) (stop : Stop) (s : State) : Stop :=
  match reachOperands op os s with
  | .ok _ => stop
  | .error (.refuse r) => .refuse r
  | .error (.raise x) =>
    match stop with
    | .raise _ => if os.all fun o => o.2.legal o.1.1 o.1.2 then stop else .raise x
    | .refuse _ => .raise x

/-- The instruction at the PC (R76). Once its opcode is read, an access fault on fetch is one of that instruction
(20_memory.md R46; notes/assumptions/10.md). -/
def fetch (s : State) : Except Stop Instr :=
  match decodeFrom (fetchByte s) with
  | .ok (i, _) => .ok i
  | .error e =>
    match decodeOpcode (fetchByte s) with
    | .ok (op, k) =>
      if s.platform.implements op then
        .error (unreadStop op (specifiersRead (fetchByte s) op.signature k) ((decodeStop e).during op) s)
      else .error (.refuse .notImplemented)
    | .error _ => .error (decodeStop e)

/-- Why a PSL gives its machine no step: FPD = 1 (10_state.md R25; 60_exceptions.md R208), T or TP = 1 (R214;
D2), CM = 1 (30_encoding.md R71). DESIGN CHOICE, safe: the spec does not order these refusals among themselves or
against a stop of the fetch; the model tests FPD, then T and TP, then CM, all before the fetch
(notes/assumptions/22.md). -/
def pslRefusal (p : Psl) : Option Refusal :=
  if p.fpd then some .firstPartDone
  else if p.t || p.tp then some .tracing
  else if p.cm then some .compatibilityMode
  else none

/-- Bytes loaded from outside the machine, `a`, `a +32 1`, ..: stored, not marked as written by an instruction,
and admitted for fetch (70_reset_and_hazards.md R241, R245). -/
def State.load (s : State) (a : Word) (bs : List Byte) : State :=
  let addrs := (stringAddrs a bs.length).map BitVec.toNat
  let opened := (addrs.filter fun x => !s.admits .fetch (BitVec.ofNat 32 x)).map fun x =>
    { kind := .fetch, base := x, size := 1, admitted := true : AdmitRule }
  { s with
    mem := s.mem.writeBytes a bs
    written := s.written.filter fun x => !addrs.contains x
    platform := { s.platform with admission := opened ++ s.platform.admission } }

end Sys2Proof.Machine
end

