-- ==== Sys2Proof/Machine/Step.lean ====
section
/-! DEFINITION. One step: the PSL is checked, the instruction at the PC is fetched and decoded, and it runs
(30_encoding.md R76). The meaning itself moves the PC past the instruction (10_state.md R22). -/

namespace Sys2Proof.Machine

/-- One step of the machine. -/
def step (s : State) : Host.Outcome State Fault Refusal :=
  match pslRefusal s.psl with
  | some r => .refused r
  | none =>
    match fetch s with
    | .error e => conclude s (.error e)
    | .ok i => if s.platform.implements i.opcode then exec i s else .refused .notImplemented

/-- The state with one word of spec/opcode_table.json loaded at the PC, every byte above its bits zero
(notes/assumptions/27.md). -/
def State.withFetchWord (s : State) (nbits w : Nat) : State :=
  s.load s.pc (tableWordBytes nbits w)

end Sys2Proof.Machine
end

