-- ==== Sys2Proof/Safety.lean ====
section
/-! DEFINITION. What counts as a safe run, in the terms claims use: the invariant of the state, a launch state
(70_reset_and_hazards.md R241), a run without fault or refusal, a complete run (R246),
and the groups of instructions that claims name. -/

namespace Sys2Proof.Machine

/-- `t` is `s` but for the registers in `rs`. -/
structure OnlyRegs (rs : List Reg) (s t : State) : Prop where
  psl : t.psl = s.psl
  mem : t.mem = s.mem
  platform : t.platform = s.platform
  written : t.written = s.written
  draws : t.draws = s.draws
  regs : ∀ n, n ∉ rs → t.getReg n = s.getReg n

end Sys2Proof.Machine

namespace Sys2Proof.Safety

open Sys2Proof.Machine

/-- The invariant of the machine: memory and the written addresses are in canonical form, and the PSL is one
that the spec's instructions run under: FPD, T, TP and CM are 0 (10_state.md R25; 92_eei_decisions.md D2). -/
abbrev Inv (s : State) : Prop :=
  Memory.wf s.mem = true ∧ Written.wf s.written = true ∧ pslRefusal s.psl = none

/-- A launch state (10_state.md R31; 70_reset_and_hazards.md R241): the invariant, and no byte written yet. -/
abbrev Launch (s : State) : Prop :=
  Inv s ∧ s.written = []

/-- `n` steps without a fault or a refusal, from `s` to `s'`. -/
def Reaches (n : Nat) (s s' : State) : Prop :=
  Sys2Proof.core.run n s = .next s'

/-- A run of `n` instructions from `s` is safe: none of them faults or is refused (60_exceptions.md R203). -/
def SafeFor (n : Nat) (s : State) : Prop :=
  ∃ s', Reaches n s s'

/-- A complete run (70_reset_and_hazards.md R246): after `n` instructions, and not after fewer, the PC is
`endPc`; `endPc` is a parameter of the run, not of the machine. -/
def Complete (endPc : Word) (n : Nat) (s s' : State) : Prop :=
  0 < n ∧ Reaches n s s' ∧ s'.pc = endPc ∧
    ∀ k t, 0 < k → k < n → Reaches k s t → t.pc ≠ endPc

/-- The operands of a list whose specifiers end before byte `j`, counted from the first one's first byte. -/
def specifiersBefore : List ((Access × DataType) × Specifier) → Nat → List ((Access × DataType) × Specifier)
  | [], _ => []
  | o :: os, j =>
    if o.2.length o.1.2.size ≤ j then o :: specifiersBefore os (j - o.2.length o.1.2.size) else []

/-- The operands that can be read when the instruction's byte `j` is the first that cannot be fetched
(30_encoding.md R76 (3)). -/
def operandsBefore (i : Instr) (j : Nat) : List ((Access × DataType) × Specifier) :=
  specifiersBefore i.operands (j - i.opcode.bytes.length)

/-- The four instructions that 9.2.9 names and does not describe, with their names. -/
def undescribedName : Instr → Option String
  | .movtuc .. => some "MOVTUC"
  | .scanc .. => some "SCANC"
  | .skpc .. => some "SKPC"
  | .spanc .. => some "SPANC"
  | _ => none

/-- SUBF2 to SUBH3. -/
def isSub : Instr → Bool
  | .subf2 .. | .subf3 .. | .subd2 .. | .subd3 .. | .subg2 .. | .subg3 .. | .subh2 .. | .subh3 .. => true
  | _ => false

/-- TSTF to TSTH. -/
def isTst : Instr → Bool
  | .tstf .. | .tstd .. | .tstg .. | .tsth .. => true
  | _ => false

/-- MOVC3, MOVC5, MOVTC. -/
def isMove : Instr → Bool
  | .movc3 .. | .movc5 .. | .movtc .. => true
  | _ => false

end Sys2Proof.Safety
end

