-- ==== Sys2Proof/Certificates/Slice0/Obligations.lean ====
section
/-! DEFINITION. The statements about the machine. Each docstring names the rule of spec/ it comes from, and the
log entry of every clause that is the model's or the spec's own choice (a decision D<n>, or general knowledge). -/

open Sys2Proof Sys2Proof.Machine Sys2Proof.Safety

namespace Sys2Proof.Claims

/-- The two-operand subtractions by type: SUBF2, SUBD2, SUBG2, SUBH2. -/
def subInstr2 (t : FType) (sub dif : Specifier) : Instr :=
  match t with
  | .f => .subf2 sub dif
  | .d => .subd2 sub dif
  | .g => .subg2 sub dif
  | .h => .subh2 sub dif

/-- The three-operand subtractions by type: SUBF3, SUBD3, SUBG3, SUBH3. -/
def subInstr3 (t : FType) (sub min dif : Specifier) : Instr :=
  match t with
  | .f => .subf3 sub min dif
  | .d => .subd3 sub min dif
  | .g => .subg3 sub min dif
  | .h => .subh3 sub min dif

/-- The tests by type: TSTF, TSTD, TSTG, TSTH. -/
def tstInstr (t : FType) (src : Specifier) : Instr :=
  match t with
  | .f => .tstf src
  | .d => .tstd src
  | .g => .tstg src
  | .h => .tsth src

/-- The operands of a two-operand subtraction, resolved. -/
def resolved2 (t : FType) (sub dif : Specifier) (s : State) :=
  sub2Operands t (subInstr2 t sub dif).opcode sub dif s

/-- The operands of a three-operand subtraction, resolved. -/
def resolved3 (t : FType) (sub min dif : Specifier) (s : State) :=
  sub3Operands t (subInstr3 t sub min dif).opcode sub min dif s

/-- `Val_T(B)`, with 0 for a zero (40_floating_sub_tst.md R102). -/
def value (t : FType) (B : Nat) : ℚ :=
  if t.exponent B = 0 then 0
  else (if t.sign B = 1 then -1 else 1) * (2 : ℚ) ^ ((t.exponent B : ℤ) - (t.bias : ℤ))
    * ((2 : ℚ) ^ (t.precision - 1) + (t.fraction B : ℚ)) / 2 ^ t.precision

/-- `B` is a datum of the type that denotes a value: it fits, and it is no reserved operand (R100, R102). -/
def isDatum (t : FType) (B : Nat) : Prop :=
  B < 256 ^ t.size ∧ t.isReserved B = false

/-- The platform admits every access to the `n` bytes from `a` on. -/
def admitted (s : State) (kind : AccessKind) (a : Word) (n : Nat) : Prop :=
  ∀ i, i < n → s.admits kind (offset a i) = true

/-- The platform admits everything. -/
def admitsAll (s : State) : Prop :=
  ∀ kind a, s.admits kind a = true

/-- Byte `i` of the string at `a`. -/
def byteOf (s : State) (a : Word) (i : Nat) : Byte :=
  s.readByte (offset a i)

/-- Byte `i` of a string of length `l`, extended with the fill byte (41_character_string.md R137). -/
def filledByte (s : State) (fill : Byte) (l : Nat) (a : Word) (i : Nat) : Byte :=
  if i < l then byteOf s a i else fill

/-- `u` has these values in the implied registers, this PSL but for the condition codes, these condition
codes, and this PC; every other register is as operand evaluation left it in `k`; the platform and the count
of draws are as before. -/
structure Completes (k : Cursor) (implied : List (Reg × Word)) (cc : CC) (u : State) : Prop where
  values : ∀ w ∈ implied, u.getReg w.1 = w.2
  others : ∀ n, n ≠ 15 → n ∉ implied.map Prod.fst → u.getReg n = k.state.getReg n
  pc : u.pc = k.addr
  psl : u.psl = k.state.psl.setCC cc
  platform : u.platform = k.state.platform

/-- The object string stands in the source string at offset `p`. -/
def standsAt (s : State) (ol : Nat) (oa sa : Word) (p : Nat) : Prop :=
  ∀ j, j < ol → byteOf s sa (p + j) = byteOf s oa j

/-- The bytes of `bs` stand in memory from the PC on. -/
def codeAt (s : State) (bs : List Byte) : Prop :=
  ∀ i, (h : i < bs.length) → s.readByte (offset s.pc i) = bs[i]

/-- The `n` bytes from the PC on can be fetched: admitted, not written by an instruction, and not past the
highest address. -/
def fetchable (s : State) (n : Nat) : Prop :=
  s.pc.toNat + n ≤ 2 ^ 32 ∧ admitted s .fetch s.pc n ∧ ∀ i, i < n → (offset s.pc i).toNat ∉ s.written

/-- The check of these strings, in this order, stops at the address `x` for an access of `kind`: every string before
it is admitted, and `x` is the lowest-offset byte of its own string that is not. -/
def stopsAt (s : State) : List (AccessKind × Word × Nat) → AccessKind → Word → Prop
  | [], _, _ => False
  | (kind', a, n) :: rest, kind, x =>
    (kind' = kind ∧ ∃ j, j < n ∧ admitted s kind a j ∧ s.admits kind (offset a j) = false ∧ x = offset a j) ∨
      (admitted s kind' a n ∧ stopsAt s rest kind x)

/-- The address of the pointer that a deferred mode reads (30_encoding.md R64, R67): the register of
autoincrement deferred, the base register (or for R15 the address after the specifier) plus the displacement of
displacement deferred, under index mode too. -/
def pointerAddress (size : Nat) (sp : Specifier) (k : Cursor) : Option Word :=
  let b := match sp with
    | .plain b => b
    | .index _ b => b
  match b with
  | .autoincrementDeferred n => some (k.state.getReg n)
  | .displacementDeferred n d =>
    some ((if n = 15 then k.addr + BitVec.ofNat 32 (sp.length size) else k.state.getReg n) + Disp.toWord d)
  | _ => none

/-- The state that a fault leaves. -/
def faulted : Fault → State
  | .reservedOperand s => s
  | .floatingOverflow s => s
  | .floatingUnderflow s => s
  | .accessFault _ _ s => s

end Sys2Proof.Claims

open Sys2Proof.Claims

/-! Encoding -/

/-- 30_encoding.md R60 to R67 (general knowledge, D7; log 12): every instruction that has bytes decodes from
them, whatever follows, with every operand at every value, the forms that R68 refuses included. -/
def Obligations.DecodeOfEncodeIsTheInstruction : Prop :=
  ∀ (i : Instr) (rest : List Byte), i.encodable = true → decode (encode i ++ rest) = .ok (i, rest)

/-- 30_encoding.md R60 to R67, R76 (D7; log 12): what the decoder reads has bytes, and they are exactly the bytes
read: no bit of an encoding is ignored, so no two byte sequences are one instruction. -/
def Obligations.DecodedBytesAreTheEncoding : Prop :=
  ∀ (bs rest : List Byte) (i : Instr), decode bs = .ok (i, rest) → i.encodable = true ∧ bs = encode i ++ rest

/-- Words written out from 30_encoding.md R61 to R67 and the vectors DE1, DE4, DE6, V26, LC5 and MT1 of
95_test_vectors.md. The operand specifiers are general knowledge (D7; log 12, PRESUMED), and so is LOCC's opcode
3A (D25; log 26, PRESUMED). -/
def Obligations.WrittenOutWordsDecode : Prop :=
  decode [0x53, 0x50] = .ok (.tstf (.plain (.register 0)), []) ∧
  decode [0x73, 0xAF, 0x10] = .ok (.tstd (.plain (.displacement 15 (.byte 0x10))), []) ∧
  decode [0x53, 0x41, 0x62] = .ok (.tstf (.index 1 (.deferred 2)), []) ∧
  decode [0xFD, 0x42, 0x52, 0x54] = .ok (.subg2 (.plain (.register 2)) (.plain (.register 4)), []) ∧
  decode [0x3A, 0x8F, 0x44, 5, 0x9F, 0, 0x30, 0, 0]
    = .ok (.locc (.plain (.immediate 0x44)) (.plain (.literal 5)) (.plain (.absolute 0x3000)), []) ∧
  decode [0x2E, 2, 0x9F, 0, 0x10, 0, 0, 0x20, 0x9F, 0, 0x40, 0, 0, 3, 0x9F, 0, 0x20, 0, 0]
    = .ok (.movtc (.plain (.literal 2)) (.plain (.absolute 0x1000)) (.plain (.literal 0x20))
        (.plain (.absolute 0x4000)) (.plain (.literal 3)) (.plain (.absolute 0x2000)), [])

/-- 30_encoding.md R62, R71, R76 (2) (D27): a first byte other than FD, or FD and a second byte, that R62 does not list is
refused as an unknown opcode, and one that R62 lists is not; and so is a step with such opcode bytes at the PC that
can be fetched, whatever stands after them, under a PSL the machine runs under (log 22). -/
def Obligations.ExactlyTheUnlistedOpcodesAreUnknown : Prop :=
  (∀ (b0 b1 : Byte) (rest : List Byte),
    (b0 ≠ 0xFD → (decode (b0 :: rest) = .error .unknownOpcode ↔ ∀ op : Opcode, op.bytes ≠ [b0])) ∧
    (decode (0xFD :: b1 :: rest) = .error .unknownOpcode ↔ ∀ op : Opcode, op.bytes ≠ [0xFD, b1])) ∧
  ∀ s : State, pslRefusal s.psl = none →
    (∀ b0 : Byte, b0 ≠ 0xFD → (∀ op : Opcode, op.bytes ≠ [b0]) → codeAt s [b0] → fetchable s 1 →
      step s = .refused .unknownOpcode) ∧
    ∀ b1 : Byte, (∀ op : Opcode, op.bytes ≠ [0xFD, b1]) → codeAt s [0xFD, b1] → fetchable s 2 →
      step s = .refused .unknownOpcode

/-! Steps -/

/-- 30_encoding.md R76: when the bytes at the PC decode to an instruction and can be fetched, under a PSL the
machine runs under and for an implemented opcode, `step` is `exec` of it; nothing is added around it, since
the meaning moves the PC past the instruction's bytes itself. -/
def Obligations.StepRunsTheDecodedInstruction : Prop :=
  ∀ (s : State) (bs : List Byte) (i : Instr), decode bs = .ok (i, []) → codeAt s bs →
    fetchable s bs.length → pslRefusal s.psl = none → s.platform.implements i.opcode = true →
    step s = exec i s

/-- 30_encoding.md R76, 20_memory.md R54, 10_state.md R22: a step that answers a next state ran an instruction
whose bytes stand at the PC and can be fetched, none of them written by an instruction. -/
def Obligations.NextStateComesFromUnmodifiedCode : Prop :=
  ∀ s u : State, step s = .next u →
    ∃ i : Instr, i.encodable = true ∧ codeAt s (encode i) ∧ fetchable s (encode i).length ∧
      pslRefusal s.psl = none ∧ s.platform.implements i.opcode = true ∧ exec i s = .next u

/-- 20_memory.md R54 (D21; log 20): an instruction whose byte `j` an instruction has stored, and whose bytes before it
can be fetched, is refused, once the operands before that byte are evaluated; one of them that is refused or raises
an exception ends it instead (30_encoding.md R76 (3): specifiers one by one; log 13). -/
def Obligations.ModifiedCodeIsRefused : Prop :=
  ∀ (s : State) (i : Instr) (j : Nat), i.encodable = true → codeAt s (encode i) →
    pslRefusal s.psl = none → s.platform.implements i.opcode = true → j < (encode i).length →
    fetchable s j → s.pc.toNat + j < 2 ^ 32 → s.admits .fetch (offset s.pc j) = true →
    (offset s.pc j).toNat ∈ s.written →
    let before := reachOperands i.opcode (operandsBefore i j) s
    (before = .ok () → step s = .refused .modifiedCode) ∧
    (∀ r, before = .error (.refuse r) → step s = .refused r) ∧
    ∀ x, before = .error (.raise x) → step s = raise s x

/-- 10_state.md R22: "doc00 says nothing of instructions that straddle the top of the address space and the model
refuses them" (log 21). Byte `j` is the first past the top; the operands before it are evaluated first, and one of
them that is refused or raises an exception ends the instruction instead (30_encoding.md R76 (3); log 13). -/
def Obligations.StraddlingInstructionIsRefused : Prop :=
  ∀ (s : State) (i : Instr) (j : Nat), i.encodable = true → codeAt s (encode i) →
    pslRefusal s.psl = none → s.platform.implements i.opcode = true → j < (encode i).length →
    fetchable s j → s.pc.toNat + j = 2 ^ 32 →
    let before := reachOperands i.opcode (operandsBefore i j) s
    (before = .ok () → step s = .refused .straddlesTop) ∧
    (∀ r, before = .error (.refuse r) → step s = .refused r) ∧
    ∀ x, before = .error (.raise x) → step s = raise s x

/-- 60_exceptions.md R204 (1) and 30_encoding.md R76: an instruction byte that is not admitted for fetch faults with
its address, and does so before any exception of the operands ahead of it; but one of these that is refused ends the
instruction (R76 (3); log 13). The fault leaves the state as before, but on a byte after a string instruction's
opcode it leaves the state of 20_memory.md R46 with no destination string (DEDUCED, log 10): R0 to R5 and the
condition codes are free values. -/
def Obligations.FetchFaultLeavesTheState : Prop :=
  ∀ (s : State) (i : Instr) (j : Nat), i.encodable = true → codeAt s (encode i) →
    pslRefusal s.psl = none → s.platform.implements i.opcode = true → j < (encode i).length →
    fetchable s j → s.pc.toNat + j < 2 ^ 32 → s.admits .fetch (offset s.pc j) = false →
    (((operandsBefore i j).all fun o => o.2.legal o.1.1 o.1.2) = true →
      ((j < i.opcode.bytes.length ∨ i.opcode.isString = false) →
        step s = .fault (.accessFault (offset s.pc j) .fetch s)) ∧
      (i.opcode.bytes.length ≤ j → i.opcode.isString = true →
        step s = .fault (.accessFault (offset s.pc j) .fetch (s.stringFaulted 0 0)))) ∧
    ∀ r, reachOperands i.opcode (operandsBefore i j) s = .error (.refuse r) → step s = .refused r

/-- 10_state.md R25, 60_exceptions.md R214, 30_encoding.md R71 and 00_scope.md R6 (D2, D14, D30): a step under
FPD, T, TP or CM, or of an opcode that is not implemented, is refused by name. The order is the model's choice, which
no rule gives: FPD before T and TP before CM, all before any stop of the fetch (log 22, DESIGN CHOICE), and
notImplemented as soon as the opcode is read, before any stop of the operands and whether or not the bytes after the
opcode can be fetched (log 32, DESIGN CHOICE). -/
def Obligations.StepRefusesWhatTheLaunchExcludes : Prop :=
  (∀ s : State, s.psl.fpd = true → step s = .refused .firstPartDone) ∧
  (∀ s : State, s.psl.fpd = false → (s.psl.t = true ∨ s.psl.tp = true) → step s = .refused .tracing) ∧
  (∀ s : State, s.psl.fpd = false → s.psl.t = false → s.psl.tp = false → s.psl.cm = true →
    step s = .refused .compatibilityMode) ∧
  (∀ (s : State) (op : Opcode) (n : Nat), pslRefusal s.psl = none →
    decodeOpcode (fetchByte s) = .ok (op, n) → s.platform.implements op = false →
    step s = .refused .notImplemented)

/-- Reset satisfies the invariant and is a launch state (log 1 to 5: the reset values are the model's). -/
def Obligations.ResetIsALaunchState : Prop :=
  Launch State.reset

/-- The invariant that every step keeps: memory and the written addresses stay in canonical form, and FPD, T, TP
and CM stay 0 (10_state.md R25: "FPD is 0 at every instruction boundary"; D2, D14). -/
def Obligations.StepKeepsTheInvariant : Prop :=
  ∀ s u : State, Inv s → step s = .next u → Inv u

/-- 20_memory.md R42, R46 and R54 (D6; log 5, 20): every byte that a step changes, and every byte that it newly marks as
written, was admitted for write; every byte that it changes is marked as written, and no mark is lost. -/
def Obligations.StepMarksWhatItChanges : Prop :=
  ∀ s u : State, step s = .next u →
    (∀ a : Word, u.readByte a ≠ s.readByte a → a.toNat ∈ u.written ∧ s.admits .write a = true) ∧
    (∀ a : Word, a.toNat ∈ u.written → a.toNat ∉ s.written → s.admits .write a = true) ∧
    ∀ a ∈ s.written, a ∈ u.written

/-- 20_memory.md R54: a run executes only the code it was launched with. However many steps a run has made, the
instruction that the next step runs stands, byte for byte, in the memory the run started from. -/
def Obligations.RunExecutesOnlyLaunchedCode : Prop :=
  ∀ (n : Nat) (s u v : State), Reaches n s u → step u = .next v →
    ∃ i : Instr, i.encodable = true ∧
      (∀ j, (h : j < (encode i).length) → s.readByte (offset u.pc j) = (encode i)[j]) ∧ exec i u = .next v

/-! Rules about all instructions -/

/-- 10_state.md R22: "when an instruction completes with `Next`, `pc` holds the address of the byte after the
instruction's last byte" (D1; log 29). -/
def Obligations.NextPcFollowsTheInstruction : Prop :=
  ∀ (i : Instr) (s u : State), exec i s = .next u → u.pc = s.pc + BitVec.ofNat 32 (encode i).length

/-- 10_state.md R23, R24, R26: an instruction that completes changes nothing of the PSL but N, Z, V and C, and
nothing of the platform; V is 0, N and Z are never both 1, and C and Z are never both 1. -/
def Obligations.InstructionsWriteOnlyConditionCodes : Prop :=
  ∀ (i : Instr) (s u : State), exec i s = .next u →
    u.psl = s.psl.setCC u.cc ∧ u.platform = s.platform ∧ u.psl.v = false ∧
      (u.psl.n && u.psl.z) = false ∧ (u.psl.c && u.psl.z) = false

/-- 10_state.md R26 ("None reads them"), 41_character_string.md R148 (e) and 40_floating_sub_tst.md R114 (g): of the
PSL an instruction that completes reads FU and nothing else. From another PSL with the same FU the same instruction
completes with the same registers, memory, PC and condition codes. The two runs start from equal counters of draws:
that a MOVTC onto its table then stores the same free values in both is the model's choice (log 8, DESIGN CHOICE;
unsafe for a claim that compares two runs), where the spec draws anew each time (00_scope.md R10). -/
def Obligations.InstructionsReadOnlyFu : Prop :=
  ∀ (i : Instr) (s u : State) (p : Psl), p.fu = s.psl.fu → exec i s = .next u →
    exec i { s with psl := p } = .next { u with psl := p.setCC u.cc }

/-- 41_character_string.md R148 (e), 40_floating_sub_tst.md R115: the string instructions and TST, where they complete,
do not read FU either. As in InstructionsReadOnlyFu, the two runs start from equal counters of draws, and that a
MOVTC onto its table stores the same free values in both is the model's choice (log 8, DESIGN CHOICE; unsafe for a
claim that compares two runs). -/
def Obligations.OnlySubtractionReadsFu : Prop :=
  ∀ (i : Instr) (s u : State) (p : Psl), isSub i = false → exec i s = .next u →
    exec i { s with psl := p } = .next { u with psl := p.setCC u.cc }

/-- 10_state.md R21: the registers outside the implied list, outside the explicit written operands, and not stepped
by an autoincrement or autodecrement specifier (30_encoding.md R64), are unchanged. -/
def Obligations.OtherRegistersAreUnchanged : Prop :=
  ∀ (i : Instr) (s u : State), exec i s = .next u →
    ∀ n : Reg, n ≠ 15 → n ∉ i.opcode.implied → n ∉ i.writtenRegs → n ∉ i.steppedRegs →
      u.getReg n = s.getReg n

/-- 41_character_string.md R148 (f), 40_floating_sub_tst.md R115: TST, CMPC3, CMPC5, LOCC and MATCHC store nothing:
all of memory, and the marks of written addresses, are as before. -/
def Obligations.NonStoringInstructionsKeepMemory : Prop :=
  ∀ (i : Instr) (s u : State), isSub i = false → isMove i = false → exec i s = .next u →
    u.mem = s.mem ∧ u.written = s.written ∧ u.draws = s.draws

/-- 60_exceptions.md R201 and 20_memory.md R46 (D6, D8, D12; log 9, 10): at a fault the PC is the instruction's own
address, R6 to R14 are as before and so is the PSL but for the condition codes; for SUB and TST all registers
and all of memory are as before. -/
def Obligations.FaultLeavesTheStateBefore : Prop :=
  ∀ (i : Instr) (s : State) (f : Fault), exec i s = .fault f →
    (faulted f).pc = s.pc ∧ (∀ n : Reg, 6 ≤ n.val → (faulted f).getReg n = s.getReg n) ∧
      (faulted f).psl = s.psl.setCC (faulted f).cc ∧ (faulted f).platform = s.platform ∧
      (isSub i = true ∨ isTst i = true →
        (faulted f).regs = s.regs ∧ (faulted f).mem = s.mem ∧ (faulted f).written = s.written) ∧
      (isMove i = false → (faulted f).mem = s.mem)

/-- 60_exceptions.md R200: only SUB raises floating overflow and underflow, only SUB and TST raise reserved operand,
and underflow only with FU set. -/
def Obligations.OnlyTheListedInstructionsRaise : Prop :=
  ∀ (i : Instr) (s u : State),
    (exec i s = .fault (.floatingOverflow u) → isSub i = true) ∧
    (exec i s = .fault (.floatingUnderflow u) → isSub i = true ∧ s.psl.fu = true) ∧
    (exec i s = .fault (.reservedOperand u) → isSub i = true ∨ isTst i = true)

/-- 60_exceptions.md R200 to R204 (log 5, 12, 15): a well-formed instruction that the spec describes, on a platform
that admits everything and with `draw` for MOVTC, runs: it answers a next state, or one of the arithmetic faults
of SUB and TST. It is never refused and never takes an access fault. -/
def Obligations.AdmittedWellFormedInstructionsRun : Prop :=
  ∀ (i : Instr) (s : State), i.wellFormed = true → undescribedName i = none → admitsAll s →
    s.platform.movtcOverlap = .draw →
    (∃ u, exec i s = .next u) ∨
      ((isSub i = true ∨ isTst i = true) ∧ ∃ u, exec i s = .fault (.reservedOperand u)) ∨
      (isSub i = true ∧ ∃ u, exec i s = .fault (.floatingOverflow u) ∨
        exec i s = .fault (.floatingUnderflow u))

/-- 30_encoding.md R68, R76 (3) (D7; log 13, 15): an instruction with an operand form that R68 gives no meaning never
completes. Where the operands before that one are evaluated without a stop it is refused for its operand form, in
every state, so TST and the first operand of SUB always are; where the platform admits everything, it ends in
that refusal or, if an operand is a reserved operand, in a reserved operand fault. Index mode over index mode, which
is no term of Specifier, is refused by the step that reads its two bytes, once the operands before it are
evaluated; one of them that is refused or raises an exception ends the instruction instead. -/
def Obligations.IllegalOperandFormsNeverRun : Prop :=
  (∀ (i : Instr) (s : State), i.formsLegal = false →
    (∀ u, exec i s ≠ .next u) ∧
    (admitsAll s → exec i s = .refused .operandForm ∨ ∃ u, exec i s = .fault (.reservedOperand u)) ∧
    ∀ (pre post : List ((Access × DataType) × Specifier)) (acc : Access) (ty : DataType) (sp : Specifier)
      (k : Cursor), i.operands = pre ++ ((acc, ty), sp) :: post → sp.legal acc ty = false →
      evaluateOperands pre (Cursor.start s i.opcode) = .ok k → exec i s = .refused .operandForm) ∧
  ∀ (s : State) (op : Opcode) (pre : List ((Access × DataType) × Specifier)) (o : Access × DataType)
    (rest : List (Access × DataType)) (x y : Byte),
    pslRefusal s.psl = none → s.platform.implements op = true → op.signature = pre.map Prod.fst ++ o :: rest →
    (∀ p ∈ pre, p.2.encodable p.1.2.size = true) → x.toNat / 16 = 4 → y.toNat / 16 = 4 →
    let code := op.bytes ++ (pre.flatMap fun p => p.2.encode p.1.2.size) ++ [x, y]
    codeAt s code → fetchable s code.length →
    (reachOperands op pre s = .ok () → step s = .refused .operandForm) ∧
    (∀ r, reachOperands op pre s = .error (.refuse r) → step s = .refused r) ∧
    ∀ e, reachOperands op pre s = .error (.raise e) → step s = raise s e

/-- 41_character_string.md R143 to R146 (D26): MOVTUC, SCANC, SKPC and SPANC, with operand forms that have a
meaning, are refused by name in every state. -/
def Obligations.UndescribedInstructionsAreRefused : Prop :=
  ∀ (i : Instr) (s : State) (name : String), undescribedName i = some name → i.formsLegal = true →
    exec i s = .refused (.noSemanticsInSource name)

/-! Operands -/

/-- 30_encoding.md R64 (general knowledge, D7; log 12): the address each addressing mode gives and the register it
steps, for operands of every size. `pcnext` is the address after the specifier, which displacement modes use for
R15; autoincrement and autodecrement of R15 are immediate mode and a form without a meaning. An operand outside index
mode has that address, with the cursor plus the length of its specifier's bytes as `pcnext`, and the next operand
starts there. -/
def Obligations.AddressingModesGiveTheirAddress : Prop :=
  (∀ (s : State) (size : Nat) (pcnext a : Word) (n : Reg) (d8 : BitVec 8) (d16 : BitVec 16)
    (d32 : BitVec 32) (v : BitVec 128) (p : Nat),
    let base := if n = 15 then pcnext else s.getReg n
    baseAddress s size pcnext (.deferred n) = .ok (s.getReg n, s) ∧
    baseAddress s size pcnext (.autodecrement n)
      = .ok (s.getReg n - BitVec.ofNat 32 size, s.setReg n (s.getReg n - BitVec.ofNat 32 size)) ∧
    baseAddress s size pcnext (.autoincrement n)
      = .ok (s.getReg n, s.setReg n (s.getReg n + BitVec.ofNat 32 size)) ∧
    baseAddress s size pcnext (.immediate v) = .ok (pcnext - BitVec.ofNat 32 size, s) ∧
    baseAddress s size pcnext (.absolute a) = .ok (a, s) ∧
    baseAddress s size pcnext (.displacement n (.byte d8)) = .ok (base + d8.signExtend 32, s) ∧
    baseAddress s size pcnext (.displacement n (.word d16)) = .ok (base + d16.signExtend 32, s) ∧
    baseAddress s size pcnext (.displacement n (.long d32)) = .ok (base + d32, s) ∧
    (s.memRead (s.getReg n) 4 = .ok p → baseAddress s size pcnext (.autoincrementDeferred n)
      = .ok (BitVec.ofNat 32 p, s.setReg n (s.getReg n + 4))) ∧
    (s.memRead (base + d8.signExtend 32) 4 = .ok p →
      baseAddress s size pcnext (.displacementDeferred n (.byte d8)) = .ok (BitVec.ofNat 32 p, s)) ∧
    (s.memRead (base + d16.signExtend 32) 4 = .ok p →
      baseAddress s size pcnext (.displacementDeferred n (.word d16)) = .ok (BitVec.ofNat 32 p, s)) ∧
    (s.memRead (base + d32) 4 = .ok p →
      baseAddress s size pcnext (.displacementDeferred n (.long d32)) = .ok (BitVec.ofNat 32 p, s))) ∧
  ∀ (size : Nat) (b : BaseSpec) (s : State) (addr : Word),
    let pcnext := addr + BitVec.ofNat 32 (b.encode size).length
    (∀ (a : Word) (s' : State), baseAddress s size pcnext b = .ok (a, s') →
      operandAddress size (.plain b) ⟨s, addr⟩ = .ok (a, ⟨s', pcnext⟩)) ∧
    ∀ e, baseAddress s size pcnext b = .error e → operandAddress size (.plain b) ⟨s, addr⟩ = .error e

/-- 30_encoding.md R67 (general knowledge, D7; log 12): index mode adds `size * x[rx]`, modulo 2^32, to the base
address, after the base has stepped its register. -/
def Obligations.IndexModeScalesTheIndex : Prop :=
  ∀ (size : Nat) (rx : Reg) (b : BaseSpec) (k k' : Cursor) (a : Word), size < 2 ^ 32 →
    operandAddress size (.index rx b) k = .ok (a, k') →
    ∃ base : Word, baseAddress k.state size (k.addr + BitVec.ofNat 32 (1 + b.length size)) b
        = .ok (base, k'.state) ∧
      a.toNat = (base.toNat + size * (k'.state.getReg rx).toNat) % 2 ^ 32 ∧
      k'.addr = k.addr + BitVec.ofNat 32 (1 + b.length size)

/-- 30_encoding.md R69, R75 (general knowledge, D28; log 30): a register-mode operand of each type, what a write of one
leaves in the registers, and that a read operand in register mode has that value and a modify or write operand that
location, for every register that keeps the operand below R15 (R68: the others are refused). -/
def Obligations.RegisterOperandsUseConsecutiveRegisters : Prop :=
  ∀ (s : State) (r : Reg) (v : Nat),
    readRegister s .byte r = (s.getReg r).toNat % 256 ∧
    readRegister s .word r = (s.getReg r).toNat % 65536 ∧
    readRegister s (.floating .f) r = (s.getReg r).toNat ∧
    readRegister s (.floating .d) r = (s.getReg r).toNat + 2 ^ 32 * (s.getReg (r + 1)).toNat ∧
    readRegister s (.floating .g) r = (s.getReg r).toNat + 2 ^ 32 * (s.getReg (r + 1)).toNat ∧
    readRegister s (.floating .h) r = (s.getReg r).toNat + 2 ^ 32 * (s.getReg (r + 1)).toNat
      + 2 ^ 64 * (s.getReg (r + 2)).toNat + 2 ^ 96 * (s.getReg (r + 3)).toNat ∧
    (∀ t : FType, v < 256 ^ t.size →
      readRegister (Location.write (.register r) (.floating t) v s) (.floating t) r = v ∧
      ∀ n, n ∉ (DataType.floating t).regsFrom r →
        (Location.write (.register r) (.floating t) v s).getReg n = s.getReg n) ∧
    (∀ (ty : DataType) (acc : Access) (addr : Word), r.val + ty.registers ≤ 15 →
      readOperand ty (.plain (.register r)) ⟨s, addr⟩ = .ok (readRegister s ty r, ⟨s, addr + 1⟩) ∧
      (acc = .modify ∨ acc = .write →
        locate acc ty (.plain (.register r)) ⟨s, addr⟩ = .ok (.register r, ⟨s, addr + 1⟩)) ∧
      (Location.register r).read ty s = .ok (readRegister s ty r))

/-- 30_encoding.md R65, R75 (general knowledge, D29; log 30): a short literal is (8 + f) / 16 * 2^e as a floating operand,
and its own value, 0 to 63, as an integer operand; a read operand that is a short literal has that value, one byte
of the instruction, and no effect. -/
def Obligations.ShortLiteralsHaveTheirValue : Prop :=
  ∀ (lit : BitVec 6),
    (∀ t : FType, isDatum t (expandLiteral (.floating t) lit) ∧
      value t (expandLiteral (.floating t) lit) = (8 + (lit.toNat % 8 : Nat)) / 16 * 2 ^ (lit.toNat / 8)) ∧
    expandLiteral .byte lit = lit.toNat ∧ expandLiteral .word lit = lit.toNat ∧
    ∀ (ty : DataType) (s : State) (addr : Word),
      readOperand ty (.plain (.literal lit)) ⟨s, addr⟩ = .ok (expandLiteral ty lit, ⟨s, addr + 1⟩)

/-- 20_memory.md R41, R42 and 30_encoding.md R64, R66, R75 (general knowledge, D3, D6, D7; log 12, 14, 24): a read of `n`
bytes answers exactly when all of them are admitted, and byte `i` of the value is the byte at `a +32 i`; otherwise it
faults with the address of the lowest offset that is not admitted. A read operand in memory is the read of its
size at the address of its specifier, in the state that the address computation leaves, and so is the old value
of a modify operand, whose location is that address; an operand of address access is the address itself. An
immediate read operand is the data bytes that follow 8F in the instruction, least significant first, and no read
of memory (log 14). -/
def Obligations.MemoryReadsAreLittleEndian : Prop :=
  ∀ (s : State) (a : Word) (n : Nat),
    (∀ v, s.memRead a n = .ok v → admitted s .read a n ∧ v < 256 ^ n ∧
      ∀ i, i < n → v / 256 ^ i % 256 = (byteOf s a i).toNat) ∧
    (admitted s .read a n → ∃ v, s.memRead a n = .ok v) ∧
    (∀ i, i < n → admitted s .read a i → s.admits .read (offset a i) = false →
      s.memRead a n = .error (.raise (.access (offset a i) .read))) ∧
    (∀ (ty : DataType) (sp : Specifier) (addr a : Word) (k : Cursor),
      operandAddress ty.size sp ⟨s, addr⟩ = .ok (a, k) →
      (sp.legal .read ty = true → (∀ v, sp ≠ .plain (.immediate v)) →
        (∀ v, k.state.memRead a ty.size = .ok v → readOperand ty sp ⟨s, addr⟩ = .ok (v, k)) ∧
        ∀ e, k.state.memRead a ty.size = .error e → readOperand ty sp ⟨s, addr⟩ = .error e) ∧
      (∀ acc, acc = .modify ∨ acc = .write → sp.legal acc ty = true →
        locate acc ty sp ⟨s, addr⟩ = .ok (.memory a, k) ∧
        (Location.memory a).read ty k.state = k.state.memRead a ty.size) ∧
      (ty = .byte → sp.legal .address ty = true → addressOperand sp ⟨s, addr⟩ = .ok (a, k))) ∧
    ∀ (ty : DataType) (v : BitVec 128) (addr : Word), v.toNat < 256 ^ ty.size →
      readOperand ty (.plain (.immediate v)) ⟨s, addr⟩
        = .ok (v.toNat, ⟨s, addr + BitVec.ofNat 32 (1 + ty.size)⟩) ∧
      ∃ bs : List Byte, Specifier.encode ty.size (.plain (.immediate v)) = 0x8F :: bs ∧ bs.length = ty.size ∧
        ∀ i, (h : i < bs.length) → bs[i].toNat = v.toNat / 256 ^ i % 256

/-! Floating data -/

/-- 40_floating_sub_tst.md R101, R103 (general knowledge, D9; log 30): packing is the inverse of the field layout,
both ways. -/
def Obligations.PackIsInverseOfTheLayout : Prop :=
  ∀ t : FType,
    (∀ sg e f, sg ≤ 1 → e ≤ t.maxExponent → f < 2 ^ (t.precision - 1) →
      t.pack sg e f < 256 ^ t.size ∧ t.sign (t.pack sg e f) = sg ∧ t.exponent (t.pack sg e f) = e ∧
        t.fraction (t.pack sg e f) = f) ∧
    (∀ B, B < 256 ^ t.size → t.pack (t.sign B) (t.exponent B) (t.fraction B) = B ∧
      t.exponent B ≤ t.maxExponent ∧ t.fraction B < 2 ^ (t.precision - 1))

/-- 40_floating_sub_tst.md R104 (D11; log 11): "the result is exact whenever the exact difference is representable", "of
any reading of "rounded"": the result is exact on every platform whenever the exact difference is the value of a
datum. -/
def Obligations.SubtractionIsExactWhenRepresentable : Prop :=
  ∀ (p : Platform) (t : FType) (a b d : Nat), isDatum t a → isDatum t b → isDatum t d →
    value t a - value t b = value t d →
    ∃ r, p.fsub t a b = .value r ∧ isDatum t r ∧ value t r = value t d

/-- 40_floating_sub_tst.md R104, under the default subtraction (D11; log 11): the result is a datum nearest to the
exact difference, and of two that are equally near the one larger in magnitude. -/
def Obligations.SubtractionRoundsToNearestTiesAway : Prop :=
  ∀ (t : FType) (a b r : Nat), isDatum t a → isDatum t b → t.fsub a b = .value r →
    isDatum t r ∧ ∀ d, isDatum t d →
      |value t r - (value t a - value t b)| ≤ |value t d - (value t a - value t b)| ∧
      (|value t r - (value t a - value t b)| = |value t d - (value t a - value t b)| →
        |value t d| ≤ |value t r|)

/-- 40_floating_sub_tst.md R104, R114 (c), (d), under the default subtraction (D11; log 11): underflow is a non-zero
difference below 2^(-bias) in magnitude, the smallest a datum denotes (no difference of two data rounds up to it);
overflow is a difference that rounds to 2^(emax - bias) or more. -/
def Obligations.SubtractionRangeIsTestedOnTheRoundedResult : Prop :=
  ∀ (t : FType) (a b : Nat), isDatum t a → isDatum t b →
    let q := value t a - value t b
    let p : ℤ := t.precision
    let small : ℤ := -(t.bias : ℤ)
    let large : ℤ := (t.maxExponent : ℤ) - (t.bias : ℤ)
    (t.fsub a b = .underflow ↔ q ≠ 0 ∧ |q| < (2 : ℚ) ^ small) ∧
    (t.fsub a b = .overflow ↔ (2 : ℚ) ^ large - (2 : ℚ) ^ (large - p - 1) ≤ |q|)

/-- 40_floating_sub_tst.md R104, R114 (a), (b) (D11; log 11), on every platform: x - x stores zero, and so does a zero minus a
zero, x - 0 is x, 0 - x is x with its sign flipped, whatever the fraction bits of the zeros. -/
def Obligations.SubtractionOfZeroAndOfItself : Prop :=
  ∀ (p : Platform) (t : FType) (a z : Nat), isDatum t a → isDatum t z → t.isZero z = true →
    p.fsub t a a = .value 0 ∧
    (t.isZero a = true → p.fsub t a z = .value 0 ∧ p.fsub t z a = .value 0) ∧
    (t.isZero a = false → p.fsub t a z = .value a ∧
      p.fsub t z a = .value (if t.sign a = 1 then a - 2 ^ 15 else a + 2 ^ 15))

/-! SUB and TST -/

/-- 40_floating_sub_tst.md R105 to R113: SUBx2 and SUBx3 complete when the operands resolve, the store to `dif` is
admitted and the subtraction has a value: `dif` holds it, N and Z come from it, V and C are 0, the PC is after
the operands, and nothing else changes: no other register, no byte outside `dif`. The subtraction is the
platform's (00_scope.md R6, D11; log 11), the check of the store D8 (log 31). -/
def Obligations.SubtractionStoresTheDifference : Prop :=
  ∀ (t : FType) (sub min dif : Specifier) (s : State) (b a r : Nat) (l : Location) (k : Cursor) (i : Instr),
    (i = subInstr2 t sub dif ∧ resolved2 t sub dif s = .ok (b, l, a, k)) ∨
      (i = subInstr3 t sub min dif ∧ resolved3 t sub min dif s = .ok (b, a, l, k)) →
    (∀ x ∈ l.addrs (.floating t), s.admits .write x = true) →
    s.platform.fsub t a b = .value r → Memory.wf s.mem = true →
    ∃ u, exec i s = .next u ∧ l.value (.floating t) u = r ∧
      u.psl = s.psl.setCC
        { n := t.sign r == 1 && t.exponent r != 0, z := t.sign r == 0 && t.exponent r == 0, v := false,
          c := false } ∧
      u.pc = k.addr ∧ (∀ n, n ≠ 15 → n ∉ l.regs (.floating t) → u.getReg n = k.state.getReg n) ∧
      (∀ x, x ∉ l.addrs (.floating t) → u.readByte x = s.readByte x) ∧
      u.platform = s.platform ∧ u.draws = s.draws

/-- 10_state.md R24: "On floating underflow, if FU is set, a fault occurs. Zero is stored as the result of floating
underflow only if FU is clear." In both formats; on the fault `dif` is unaffected, and without it N Z V C are
0 1 0 0 and nothing but `dif`, these codes and the PC changes: no other register (but those the specifiers step), no
byte outside `dif`. No instruction writes FU. -/
def Obligations.FuSelectsTheUnderflowBehaviour : Prop :=
  (∀ (t : FType) (sub min dif : Specifier) (s : State) (b a : Nat) (l : Location) (k : Cursor) (i : Instr),
    (i = subInstr2 t sub dif ∧ resolved2 t sub dif s = .ok (b, l, a, k)) ∨
      (i = subInstr3 t sub min dif ∧ resolved3 t sub min dif s = .ok (b, a, l, k)) →
    (∀ x ∈ l.addrs (.floating t), s.admits .write x = true) →
    s.platform.fsub t a b = .underflow → Memory.wf s.mem = true →
    (s.psl.fu = true → ∃ w, exec i s = .fault (.floatingUnderflow w) ∧
      l.value (.floating t) w = l.value (.floating t) s) ∧
    (s.psl.fu = false → ∃ u, exec i s = .next u ∧ l.value (.floating t) u = 0 ∧
      u.psl = s.psl.setCC { n := false, z := true, v := false, c := false } ∧ u.pc = k.addr ∧
      (∀ n, n ≠ 15 → n ∉ l.regs (.floating t) → u.getReg n = k.state.getReg n) ∧
      (∀ x, x ∉ l.addrs (.floating t) → u.readByte x = s.readByte x) ∧
      u.platform = s.platform ∧ u.draws = s.draws)) ∧
  ∀ (i : Instr) (s u : State), exec i s = .next u → u.psl.fu = s.psl.fu

/-- 40_floating_sub_tst.md R105, 60_exceptions.md R201: floating overflow faults, and so does floating underflow with
FU set; all registers and memory are as before, the PC is the instruction's own address, and the condition codes
are free values (D12; on underflow 93 U5; log 8, 9). -/
def Obligations.OverflowAndUnderflowFault : Prop :=
  ∀ (t : FType) (sub min dif : Specifier) (s : State) (b a : Nat) (l : Location) (k : Cursor) (i : Instr),
    (i = subInstr2 t sub dif ∧ resolved2 t sub dif s = .ok (b, l, a, k)) ∨
      (i = subInstr3 t sub min dif ∧ resolved3 t sub min dif s = .ok (b, a, l, k)) →
    (∀ x ∈ l.addrs (.floating t), s.admits .write x = true) →
    (s.platform.fsub t a b = .overflow → exec i s = .fault (.floatingOverflow s.drawCC)) ∧
    (s.platform.fsub t a b = .underflow → s.psl.fu = true → exec i s = .fault (.floatingUnderflow s.drawCC))

/-- 40_floating_sub_tst.md R105, 60_exceptions.md R204 (D8; log 31): a store to `dif` that is not admitted faults
before overflow, underflow or the store, whatever the operands' values, and the state is as before. -/
def Obligations.DestinationIsCheckedBeforeArithmetic : Prop :=
  ∀ (t : FType) (sub min dif : Specifier) (s : State) (b a : Nat) (addr : Word) (k : Cursor) (i : Instr)
    (j : Nat),
    (i = subInstr2 t sub dif ∧ resolved2 t sub dif s = .ok (b, .memory addr, a, k)) ∨
      (i = subInstr3 t sub min dif ∧ resolved3 t sub min dif s = .ok (b, a, .memory addr, k)) →
    j < t.size → admitted s .write addr j → s.admits .write (offset addr j) = false →
    exec i s = .fault (.accessFault (offset addr j) .write s)

/-- 40_floating_sub_tst.md R105, R115 and 60_exceptions.md R204 (D8, D10, D12; log 8, 9, 31): the first operand of SUB
or TST faults when it is a reserved operand (sign 1, exponent 0); the state is as before but for the condition
codes, which are free values. -/
def Obligations.ReservedOperandsFault : Prop :=
  ∀ (t : FType) (src o2 o3 : Specifier) (s : State) (x : Nat) (k : Cursor) (i : Instr),
    i = tstInstr t src ∨ i = subInstr2 t src o2 ∨ i = subInstr3 t src o2 o3 →
    readOperand (.floating t) src (Cursor.start s i.opcode) = .ok (x, k) →
    t.sign x = 1 → t.exponent x = 0 →
    exec i s = .fault (.reservedOperand s.drawCC)

/-- 40_floating_sub_tst.md R105, 60_exceptions.md R204 (D8, D10, D12; log 8, 9, 31): a reserved operand as old value of
`dif` in the two-operand form, or as minuend in the three-operand form, faults as well. -/
def Obligations.ReservedMinuendFaults : Prop :=
  (∀ (t : FType) (sub dif : Specifier) (s : State) (b a : Nat) (k k' : Cursor) (l : Location),
    readFloating t sub (Cursor.start s (subInstr2 t sub dif).opcode) = .ok (b, k) →
    locate .modify (.floating t) dif k = .ok (l, k') → l.read (.floating t) k'.state = .ok a →
    t.sign a = 1 → t.exponent a = 0 →
    exec (subInstr2 t sub dif) s = .fault (.reservedOperand s.drawCC)) ∧
  (∀ (t : FType) (sub min dif : Specifier) (s : State) (b a : Nat) (k k' : Cursor),
    readFloating t sub (Cursor.start s (subInstr3 t sub min dif).opcode) = .ok (b, k) →
    readOperand (.floating t) min k = .ok (a, k') → t.sign a = 1 → t.exponent a = 0 →
    exec (subInstr3 t sub min dif) s = .fault (.reservedOperand s.drawCC))

/-- 40_floating_sub_tst.md R115 to R119: TST completes when its operand resolves and is no reserved operand; N is set
for a negative value, Z for a zero whatever its fraction bits, V and C are 0; no register but those the
specifier steps, no memory and no other state changes. -/
def Obligations.TestSetsConditionCodesFromTheOperand : Prop :=
  ∀ (t : FType) (src : Specifier) (s : State) (x : Nat) (k : Cursor),
    readOperand (.floating t) src (Cursor.start s (tstInstr t src).opcode) = .ok (x, k) →
    ¬(t.sign x = 1 ∧ t.exponent x = 0) →
    ∃ u, exec (tstInstr t src) s = .next u ∧
      u.psl = s.psl.setCC
        { n := t.sign x == 1 && t.exponent x != 0, z := t.sign x == 0 && t.exponent x == 0, v := false,
          c := false } ∧
      u.pc = k.addr ∧ (∀ n, n ≠ 15 → u.getReg n = k.state.getReg n) ∧
      u.mem = s.mem ∧ u.written = s.written ∧ u.platform = s.platform ∧ u.draws = s.draws

/-! Character strings -/

/-- 41_character_string.md R136 (D18, D19; log 25): CMPC3 completes when its operands resolve and its strings are
admitted. Equal strings: R0 and R2 are 0, R1 and R3 one beyond, Z. Otherwise it stops at the first byte that
differs: R0 and R2 count it and the bytes after it, R1 and R3 point at it, N is signed and C unsigned less. -/
def Obligations.CompareStopsAtTheFirstDifference : Prop :=
  ∀ (len src1 src2 : Specifier) (s : State) (l : BitVec 16) (a1 a2 : Word) (k : Cursor),
    operands3 .cmpc3 len src1 src2 s = .ok (l, a1, a2, k) →
    admitted s .read a1 l.toNat → admitted s .read a2 l.toNat →
    ∃ u, exec (.cmpc3 len src1 src2) s = .next u ∧ u.mem = s.mem ∧ u.written = s.written ∧
      u.draws = s.draws ∧
      ((∀ i, i < l.toNat → byteOf s a1 i = byteOf s a2 i) →
        Completes k [(0, 0), (1, offset a1 l.toNat), (2, 0), (3, offset a2 l.toNat)]
          { n := false, z := true, v := false, c := false } u) ∧
      (∀ j, j < l.toNat → (∀ i, i < j → byteOf s a1 i = byteOf s a2 i) → byteOf s a1 j ≠ byteOf s a2 j →
        Completes k [(0, BitVec.ofNat 32 (l.toNat - j)), (1, offset a1 j),
            (2, BitVec.ofNat 32 (l.toNat - j)), (3, offset a2 j)]
          { n := (byteOf s a1 j).slt (byteOf s a2 j), z := false, v := false,
            c := (byteOf s a1 j).ult (byteOf s a2 j) } u)

/-- 41_character_string.md R137 (D18, D19; log 25): CMPC5 compares the two strings, the shorter one extended with
the fill byte. R0 and R2 are the bytes remaining in each string, R1 and R3 the addresses reached. -/
def Obligations.FilledCompareStopsAtTheFirstDifference : Prop :=
  ∀ (len1 src1 fill len2 src2 : Specifier) (s : State) (l1 l2 : BitVec 16) (a1 a2 : Word) (f : Byte)
    (k : Cursor),
    operands5 .cmpc5 len1 src1 fill len2 src2 s = .ok (l1, a1, f, l2, a2, k) →
    admitted s .read a1 l1.toNat → admitted s .read a2 l2.toNat →
    let c1 := filledByte s f l1.toNat a1
    let c2 := filledByte s f l2.toNat a2
    ∃ u, exec (.cmpc5 len1 src1 fill len2 src2) s = .next u ∧ u.mem = s.mem ∧ u.written = s.written ∧
      u.draws = s.draws ∧
      ((∀ i, i < max l1.toNat l2.toNat → c1 i = c2 i) →
        Completes k [(0, 0), (1, offset a1 l1.toNat), (2, 0), (3, offset a2 l2.toNat)]
          { n := false, z := true, v := false, c := false } u) ∧
      (∀ j, j < max l1.toNat l2.toNat → (∀ i, i < j → c1 i = c2 i) → c1 j ≠ c2 j →
        Completes k [(0, BitVec.ofNat 32 (l1.toNat - j)), (1, offset a1 (min j l1.toNat)),
            (2, BitVec.ofNat 32 (l2.toNat - j)), (3, offset a2 (min j l2.toNat))]
          { n := (c1 j).slt (c2 j), z := false, v := false, c := (c1 j).ult (c2 j) } u)

/-- 41_character_string.md R137: "With src1len = src2len, CMPC5 gives the same results as CMPC3", for any fill byte. -/
def Obligations.FilledCompareOfEqualLengthsIsCompare : Prop :=
  ∀ (l : BitVec 16) (a1 a2 : Word) (f : Byte) (k : Cursor), compare5 l a1 f l a2 k = compare3 l a1 a2 k

/-- 41_character_string.md R138 (D19; log 25): LOCC completes when its operands resolve and its string is admitted.
At the lowest byte equal to the character, R0 counts it and the bytes after it, R1 points at it and Z is clear;
with none, R0 is 0, R1 one beyond the string and Z is set. R2 to R14 are as operand evaluation left them. -/
def Obligations.LocateFindsTheLowestByte : Prop :=
  ∀ (char len addr : Specifier) (s : State) (c : Byte) (l : BitVec 16) (a : Word) (k : Cursor),
    loccOperands char len addr s = .ok (c, l, a, k) → admitted s .read a l.toNat →
    ∃ u, exec (.locc char len addr) s = .next u ∧ u.mem = s.mem ∧ u.written = s.written ∧
      u.draws = s.draws ∧
      (∀ j, j < l.toNat → (∀ i, i < j → byteOf s a i ≠ c) → byteOf s a j = c →
        Completes k [(0, BitVec.ofNat 32 (l.toNat - j)), (1, offset a j)]
          { n := false, z := false, v := false, c := false } u) ∧
      ((∀ i, i < l.toNat → byteOf s a i ≠ c) →
        Completes k [(0, 0), (1, offset a l.toNat)] { n := false, z := true, v := false, c := false } u)

/-- 41_character_string.md R139 (D15: the lowest match; D19; log 17, 18, 25): MATCHC completes when its operands
resolve and, unless one of them is empty, its strings are admitted. -/
def Obligations.MatchFindsTheLowestSubstring : Prop :=
  ∀ (objlen obj srclen src : Specifier) (s : State) (ol sl : BitVec 16) (oa sa : Word) (k : Cursor),
    matchcOperands objlen obj srclen src s = .ok (ol, oa, sl, sa, k) →
    (0 < ol.toNat → 0 < sl.toNat → admitted s .read oa ol.toNat ∧ admitted s .read sa sl.toNat) →
    ∃ u, exec (.matchc objlen obj srclen src) s = .next u ∧ u.mem = s.mem ∧ u.written = s.written ∧
      u.draws = s.draws ∧
      (∀ p, p + ol.toNat ≤ sl.toNat → standsAt s ol.toNat oa sa p →
        (∀ q, q < p → ¬standsAt s ol.toNat oa sa q) →
        Completes k [(0, 0), (1, offset oa ol.toNat), (2, BitVec.ofNat 32 (sl.toNat - (p + ol.toNat))),
            (3, offset sa (p + ol.toNat))] { n := false, z := true, v := false, c := false } u) ∧
      (0 < ol.toNat → (∀ p, p + ol.toNat ≤ sl.toNat → ¬standsAt s ol.toNat oa sa p) →
        Completes k [(0, BitVec.ofNat 32 ol.toNat), (1, oa), (2, 0), (3, offset sa sl.toNat)]
          { n := false, z := false, v := false, c := false } u)

/-- 41_character_string.md R140: MOVC3 completes when its operands resolve and its strings are admitted. The
destination holds the bytes the source held before, whatever the overlap; every other byte is as before, and every
register but R0 to R5 and the PC as operand evaluation left it. -/
def Obligations.MoveCopiesTheOriginalSource : Prop :=
  ∀ (len src dst : Specifier) (s : State) (l : BitVec 16) (a d : Word) (k : Cursor),
    operands3 .movc3 len src dst s = .ok (l, a, d, k) →
    admitted s .read a l.toNat → admitted s .write d l.toNat → Memory.wf s.mem = true →
    ∃ u, exec (.movc3 len src dst) s = .next u ∧ u.draws = s.draws ∧
      (∀ i, i < l.toNat → byteOf u d i = byteOf s a i) ∧
      (∀ x, (∀ i, i < l.toNat → x ≠ offset d i) → u.readByte x = s.readByte x) ∧
      Completes k [(0, 0), (1, offset a l.toNat), (2, 0), (3, offset d l.toNat), (4, 0), (5, 0)]
        { n := false, z := true, v := false, c := false } u

/-- 41_character_string.md R141: MOVC5 moves what fits, fills the rest of the destination, and reports the bytes not
moved; the condition codes compare the two length operands, N signed and C unsigned at 16 bits. That it completes
with an empty destination whatever the platform admits for the source is read from R133 and R141 beside R135 (c)
(log 17, DEDUCED); that the upper half of R0 is zero is D19 (log 25). -/
def Obligations.MoveFillsTheRestOfTheDestination : Prop :=
  ∀ (srclen src fill dstlen dst : Specifier) (s : State) (sl dl : BitVec 16) (a d : Word) (f : Byte)
    (k : Cursor),
    operands5 .movc5 srclen src fill dstlen dst s = .ok (sl, a, f, dl, d, k) →
    (0 < dl.toNat → admitted s .read a sl.toNat) → admitted s .write d dl.toNat → Memory.wf s.mem = true →
    ∃ u, exec (.movc5 srclen src fill dstlen dst) s = .next u ∧ u.draws = s.draws ∧
      (∀ i, i < dl.toNat → byteOf u d i = if i < sl.toNat then byteOf s a i else f) ∧
      (∀ x, (∀ i, i < dl.toNat → x ≠ offset d i) → u.readByte x = s.readByte x) ∧
      Completes k [(0, BitVec.ofNat 32 (sl.toNat - dl.toNat)), (1, offset a (min sl.toNat dl.toNat)), (2, 0),
          (3, offset d dl.toNat), (4, 0), (5, 0)]
        { n := sl.slt dl, z := sl == dl, v := false, c := sl.ult dl } u

/-- 41_character_string.md R141: with srclen = dstlen, MOVC5 is MOVC3, for any fill byte. -/
def Obligations.FillingMoveOfEqualLengthsIsMove : Prop :=
  ∀ (l : BitVec 16) (a d : Word) (f : Byte) (k : Cursor),
    moveCharacter5 l a f l d k = moveCharacter3 l a d k

/-- 41_character_string.md R142: MOVTC, its destination clear of the table, stores the table entries of the source's
original bytes (a byte is an unsigned index) and then the fill byte untranslated; R3 is the table address. That it
completes with an empty destination whatever the platform admits for the source is read from R133 and R142 beside
R135 (c) (log 17, DEDUCED); that the upper half of R0 is zero is D19 (log 25). -/
def Obligations.TranslationStoresTheTableEntries : Prop :=
  ∀ (srclen src fill tbl dstlen dst : Specifier) (s : State) (sl dl : BitVec 16) (a ta d : Word) (f : Byte)
    (k : Cursor),
    movtcOperands srclen src fill tbl dstlen dst s = .ok (sl, a, f, ta, dl, d, k) →
    (0 < dl.toNat → admitted s .read a sl.toNat) → admitted s .write d dl.toNat →
    (0 < sl.toNat → 0 < dl.toNat → admitted s .read ta 256) →
    (∀ i j, i < dl.toNat → j < 256 → offset d i ≠ offset ta j) → Memory.wf s.mem = true →
    ∃ u, exec (.movtc srclen src fill tbl dstlen dst) s = .next u ∧ u.draws = s.draws ∧
      (∀ i, i < dl.toNat →
        byteOf u d i = if i < sl.toNat then byteOf s ta (byteOf s a i).toNat else f) ∧
      (∀ x, (∀ i, i < dl.toNat → x ≠ offset d i) → u.readByte x = s.readByte x) ∧
      Completes k [(0, BitVec.ofNat 32 (sl.toNat - dl.toNat)), (1, offset a (min sl.toNat dl.toNat)), (2, 0),
          (3, ta), (4, 0), (5, offset d dl.toNat)]
        { n := sl.slt dl, z := sl == dl, v := false, c := sl.ult dl } u

/-- 41_character_string.md R142, 93 U4 (D16; log 8, 19): when the destination overlaps the table, every destination
byte is a free value of its own, registers and condition codes are as in the normal case, and every other byte is
as before; on a platform whose parameter says so the instruction is refused instead. With an empty source the table
is not read and need not be admitted. -/
def Obligations.TranslationOntoTheTableIsUnpredictable : Prop :=
  ∀ (srclen src fill tbl dstlen dst : Specifier) (s : State) (sl dl : BitVec 16) (a ta d : Word) (f : Byte)
    (k : Cursor) (i0 j0 : Nat),
    movtcOperands srclen src fill tbl dstlen dst s = .ok (sl, a, f, ta, dl, d, k) →
    admitted s .read a sl.toNat → admitted s .write d dl.toNat →
    (0 < sl.toNat → admitted s .read ta 256) →
    i0 < dl.toNat → j0 < 256 → offset d i0 = offset ta j0 → Memory.wf s.mem = true →
    (s.platform.movtcOverlap = .refuse →
      exec (.movtc srclen src fill tbl dstlen dst) s = .refused .movtcOverlap) ∧
    (s.platform.movtcOverlap = .draw →
      ∃ u, exec (.movtc srclen src fill tbl dstlen dst) s = .next u ∧ u.draws = s.draws + dl.toNat ∧
        (∀ i, i < dl.toNat → byteOf u d i = Config.freeByte (s.draws + i)) ∧
        (∀ x, (∀ i, i < dl.toNat → x ≠ offset d i) → u.readByte x = s.readByte x) ∧
        Completes k [(0, BitVec.ofNat 32 (sl.toNat - dl.toNat)), (1, offset a (min sl.toNat dl.toNat)), (2, 0),
            (3, ta), (4, 0), (5, offset d dl.toNat)]
          { n := sl.slt dl, z := sl == dl, v := false, c := sl.ult dl } u)

/-- 20_memory.md R48: "The operation of the instruction is such that overlap of the source and destination strings
does not affect the result". However MOVC3's, MOVC5's and MOVTC's strings overlap, the destination receives the
bytes that the source held before the instruction, translated for MOVTC (whose destination is clear of the
table: the other case is R142's), and the fill bytes after them. -/
def Obligations.OverlapDoesNotAffectTheMoves : Prop :=
  (∀ (o1 o2 o3 : Specifier) (s : State) (l : BitVec 16) (a d : Word) (k : Cursor),
    operands3 .movc3 o1 o2 o3 s = .ok (l, a, d, k) →
    admitted s .read a l.toNat → admitted s .write d l.toNat → Memory.wf s.mem = true →
    ∃ u, exec (.movc3 o1 o2 o3) s = .next u ∧ ∀ i, i < l.toNat → byteOf u d i = byteOf s a i) ∧
  (∀ (o1 o2 o3 o4 o5 : Specifier) (s : State) (sl dl : BitVec 16) (a d : Word) (f : Byte) (k : Cursor),
    operands5 .movc5 o1 o2 o3 o4 o5 s = .ok (sl, a, f, dl, d, k) →
    admitted s .read a sl.toNat → admitted s .write d dl.toNat → Memory.wf s.mem = true →
    ∃ u, exec (.movc5 o1 o2 o3 o4 o5) s = .next u ∧
      ∀ i, i < dl.toNat → byteOf u d i = filledByte s f sl.toNat a i) ∧
  (∀ (o1 o2 o3 o4 o5 o6 : Specifier) (s : State) (sl dl : BitVec 16) (a ta d : Word) (f : Byte) (k : Cursor),
    movtcOperands o1 o2 o3 o4 o5 o6 s = .ok (sl, a, f, ta, dl, d, k) →
    admitted s .read a sl.toNat → admitted s .write d dl.toNat → admitted s .read ta 256 →
    (∀ i j, i < dl.toNat → j < 256 → offset d i ≠ offset ta j) → Memory.wf s.mem = true →
    ∃ u, exec (.movtc o1 o2 o3 o4 o5 o6) s = .next u ∧
      ∀ i, i < dl.toNat → byteOf u d i = if i < sl.toNat then byteOf s ta (byteOf s a i).toNat else f)

/-- 20_memory.md R45 and 41_character_string.md R133, R135 (c): a zero-length string is never read or written. With the
operands resolved, the instruction completes whatever the platform admits for that string, its address operand
appears in the final registers, and an empty destination leaves memory unchanged. With one empty string CMPC5 reads
the other only; for MATCHC an empty object is found and an empty source is not; MOVC5 and MOVTC with an empty
source read neither source nor table. That MATCHC with one empty string, and MOVC5 and MOVTC with an empty
destination, complete whatever is admitted for the other string is log 17 (DEDUCED, from R133, R139, R141, R142);
registers and condition codes are R136 to R142, upper halves D19 (log 25). -/
def Obligations.ZeroLengthStringsMakeNoReference : Prop :=
  (∀ (o1 o2 o3 : Specifier) (s : State) (a1 a2 : Word) (k : Cursor),
    operands3 .cmpc3 o1 o2 o3 s = .ok (0, a1, a2, k) →
    ∃ u, exec (.cmpc3 o1 o2 o3) s = .next u ∧ u.mem = s.mem ∧
      Completes k [(0, 0), (1, a1), (2, 0), (3, a2)] { n := false, z := true, v := false, c := false } u) ∧
  (∀ (o1 o2 o3 o4 o5 : Specifier) (s : State) (a1 a2 : Word) (f : Byte) (k : Cursor),
    operands5 .cmpc5 o1 o2 o3 o4 o5 s = .ok (0, a1, f, 0, a2, k) →
    ∃ u, exec (.cmpc5 o1 o2 o3 o4 o5) s = .next u ∧ u.mem = s.mem ∧
      Completes k [(0, 0), (1, a1), (2, 0), (3, a2)] { n := false, z := true, v := false, c := false } u) ∧
  (∀ (o1 o2 o3 o4 o5 : Specifier) (s : State) (l : BitVec 16) (a1 a2 : Word) (f : Byte) (k : Cursor),
    (operands5 .cmpc5 o1 o2 o3 o4 o5 s = .ok (0, a1, f, l, a2, k) → admitted s .read a2 l.toNat →
      ∃ u, exec (.cmpc5 o1 o2 o3 o4 o5) s = .next u ∧ u.mem = s.mem ∧ u.getReg 0 = 0 ∧ u.getReg 1 = a1) ∧
    (operands5 .cmpc5 o1 o2 o3 o4 o5 s = .ok (l, a1, f, 0, a2, k) → admitted s .read a1 l.toNat →
      ∃ u, exec (.cmpc5 o1 o2 o3 o4 o5) s = .next u ∧ u.mem = s.mem ∧ u.getReg 2 = 0 ∧ u.getReg 3 = a2)) ∧
  (∀ (o1 o2 o3 : Specifier) (s : State) (c : Byte) (a : Word) (k : Cursor),
    loccOperands o1 o2 o3 s = .ok (c, 0, a, k) →
    ∃ u, exec (.locc o1 o2 o3) s = .next u ∧ u.mem = s.mem ∧
      Completes k [(0, 0), (1, a)] { n := false, z := true, v := false, c := false } u) ∧
  (∀ (o1 o2 o3 o4 : Specifier) (s : State) (ol sl : BitVec 16) (oa sa : Word) (k : Cursor),
    matchcOperands o1 o2 o3 o4 s = .ok (ol, oa, sl, sa, k) →
    (ol = 0 → ∃ u, exec (.matchc o1 o2 o3 o4) s = .next u ∧ u.mem = s.mem ∧
      Completes k [(0, 0), (1, oa), (2, sl.setWidth 32), (3, sa)]
        { n := false, z := true, v := false, c := false } u) ∧
    (ol ≠ 0 → sl = 0 → ∃ u, exec (.matchc o1 o2 o3 o4) s = .next u ∧ u.mem = s.mem ∧
      Completes k [(0, ol.setWidth 32), (1, oa), (2, 0), (3, sa)]
        { n := false, z := false, v := false, c := false } u)) ∧
  (∀ (o1 o2 o3 : Specifier) (s : State) (a d : Word) (k : Cursor),
    operands3 .movc3 o1 o2 o3 s = .ok (0, a, d, k) →
    ∃ u, exec (.movc3 o1 o2 o3) s = .next u ∧ u.mem = s.mem ∧
      Completes k [(0, 0), (1, a), (2, 0), (3, d), (4, 0), (5, 0)]
        { n := false, z := true, v := false, c := false } u) ∧
  (∀ (o1 o2 o3 o4 o5 : Specifier) (s : State) (sl : BitVec 16) (a d : Word) (f : Byte) (k : Cursor),
    operands5 .movc5 o1 o2 o3 o4 o5 s = .ok (sl, a, f, 0, d, k) →
    ∃ u, exec (.movc5 o1 o2 o3 o4 o5) s = .next u ∧ u.mem = s.mem ∧
      Completes k [(0, sl.setWidth 32), (1, a), (2, 0), (3, d), (4, 0), (5, 0)]
        { n := sl.slt 0, z := sl == 0, v := false, c := false } u) ∧
  (∀ (o1 o2 o3 o4 o5 : Specifier) (s : State) (dl : BitVec 16) (a d : Word) (f : Byte) (k : Cursor),
    operands5 .movc5 o1 o2 o3 o4 o5 s = .ok (0, a, f, dl, d, k) → admitted s .write d dl.toNat →
    Memory.wf s.mem = true →
    ∃ u, exec (.movc5 o1 o2 o3 o4 o5) s = .next u ∧ u.getReg 0 = 0 ∧ u.getReg 1 = a ∧
      ∀ i, i < dl.toNat → byteOf u d i = f) ∧
  (∀ (o1 o2 o3 o4 o5 o6 : Specifier) (s : State) (sl : BitVec 16) (a ta d : Word) (f : Byte) (k : Cursor),
    movtcOperands o1 o2 o3 o4 o5 o6 s = .ok (sl, a, f, ta, 0, d, k) →
    ∃ u, exec (.movtc o1 o2 o3 o4 o5 o6) s = .next u ∧ u.mem = s.mem ∧
      Completes k [(0, sl.setWidth 32), (1, a), (2, 0), (3, ta), (4, 0), (5, d)]
        { n := sl.slt 0, z := sl == 0, v := false, c := false } u) ∧
  (∀ (o1 o2 o3 o4 o5 o6 : Specifier) (s : State) (dl : BitVec 16) (a ta d : Word) (f : Byte) (k : Cursor),
    movtcOperands o1 o2 o3 o4 o5 o6 s = .ok (0, a, f, ta, dl, d, k) → admitted s .write d dl.toNat →
    (∀ i j, i < dl.toNat → j < 256 → offset d i ≠ offset ta j) → Memory.wf s.mem = true →
    ∃ u, exec (.movtc o1 o2 o3 o4 o5 o6) s = .next u ∧ u.getReg 0 = 0 ∧ u.getReg 1 = a ∧
      ∀ i, i < dl.toNat → byteOf u d i = f)

/-- 20_memory.md R46, 41_character_string.md R135 (c) (D6, D31; log 10, 17, 33): a string byte that is not admitted ends
each string instruction before it starts, with the lowest such address of the first string that has one: sources in
operand order, then the destination, then MOVTC's table if a byte is to be translated. A string of length 0 is not
checked, nor (log 17, DEDUCED) the other string of a MATCHC with an empty object or source, nor the source of
MOVC5 and MOVTC when the destination is empty. The destination that the state at the fault leaves open is the
move's. -/
def Obligations.StringAccessIsCheckedBeforeTheStart : Prop :=
  (∀ (o1 o2 o3 : Specifier) (s : State) (l : BitVec 16) (a1 a2 : Word) (k : Cursor),
    operands3 .cmpc3 o1 o2 o3 s = .ok (l, a1, a2, k) →
    ∀ kind x, stopsAt s [(.read, a1, l.toNat), (.read, a2, l.toNat)] kind x →
      exec (.cmpc3 o1 o2 o3) s = .fault (.accessFault x kind (s.stringFaulted 0 0))) ∧
  (∀ (o1 o2 o3 o4 o5 : Specifier) (s : State) (l1 l2 : BitVec 16) (a1 a2 : Word) (f : Byte) (k : Cursor),
    operands5 .cmpc5 o1 o2 o3 o4 o5 s = .ok (l1, a1, f, l2, a2, k) →
    ∀ kind x, stopsAt s [(.read, a1, l1.toNat), (.read, a2, l2.toNat)] kind x →
      exec (.cmpc5 o1 o2 o3 o4 o5) s = .fault (.accessFault x kind (s.stringFaulted 0 0))) ∧
  (∀ (o1 o2 o3 : Specifier) (s : State) (c : Byte) (l : BitVec 16) (a : Word) (k : Cursor),
    loccOperands o1 o2 o3 s = .ok (c, l, a, k) →
    ∀ kind x, stopsAt s [(.read, a, l.toNat)] kind x →
      exec (.locc o1 o2 o3) s = .fault (.accessFault x kind (s.stringFaulted 0 0))) ∧
  (∀ (o1 o2 o3 o4 : Specifier) (s : State) (ol sl : BitVec 16) (oa sa : Word) (k : Cursor),
    matchcOperands o1 o2 o3 o4 s = .ok (ol, oa, sl, sa, k) → 0 < ol.toNat → 0 < sl.toNat →
    ∀ kind x, stopsAt s [(.read, oa, ol.toNat), (.read, sa, sl.toNat)] kind x →
      exec (.matchc o1 o2 o3 o4) s = .fault (.accessFault x kind (s.stringFaulted 0 0))) ∧
  (∀ (o1 o2 o3 : Specifier) (s : State) (l : BitVec 16) (a d : Word) (k : Cursor),
    operands3 .movc3 o1 o2 o3 s = .ok (l, a, d, k) →
    ∀ kind x, stopsAt s [(.read, a, l.toNat), (.write, d, l.toNat)] kind x →
      exec (.movc3 o1 o2 o3) s = .fault (.accessFault x kind (s.stringFaulted d l.toNat))) ∧
  (∀ (o1 o2 o3 o4 o5 : Specifier) (s : State) (sl dl : BitVec 16) (a d : Word) (f : Byte) (k : Cursor),
    operands5 .movc5 o1 o2 o3 o4 o5 s = .ok (sl, a, f, dl, d, k) → 0 < dl.toNat →
    ∀ kind x, stopsAt s [(.read, a, sl.toNat), (.write, d, dl.toNat)] kind x →
      exec (.movc5 o1 o2 o3 o4 o5) s = .fault (.accessFault x kind (s.stringFaulted d dl.toNat))) ∧
  (∀ (o1 o2 o3 o4 o5 o6 : Specifier) (s : State) (sl dl : BitVec 16) (a ta d : Word) (f : Byte) (k : Cursor),
    movtcOperands o1 o2 o3 o4 o5 o6 s = .ok (sl, a, f, ta, dl, d, k) → 0 < dl.toNat →
    ∀ kind x, stopsAt s [(.read, a, sl.toNat), (.write, d, dl.toNat),
        (.read, ta, if sl.toNat = 0 then 0 else 256)] kind x →
      exec (.movtc o1 o2 o3 o4 o5 o6) s = .fault (.accessFault x kind (s.stringFaulted d dl.toNat)))

/-- 30_encoding.md R75, 41_character_string.md R147, R148 (a) (D8; log 31): the operands of SUB and of every string
instruction are evaluated from left to right, each from the cursor that the one before leaves, floating sources
being no reserved operand, and before the implied registers are written, so that `MOVC3 R0, (R1), (R3)` uses the
values before it: length R0[15:0], source R1, destination R3. -/
def Obligations.OperandsAreReadBeforeTheControlBlock : Prop :=
  (∀ s : State, admitted s .read (s.getReg 1) ((s.getReg 0).setWidth 16).toNat →
    admitted s .write (s.getReg 3) ((s.getReg 0).setWidth 16).toNat → Memory.wf s.mem = true →
    ∃ u, exec (.movc3 (.plain (.register 0)) (.plain (.deferred 1)) (.plain (.deferred 3))) s = .next u ∧
      (∀ i, i < (s.getReg 0).toNat % 65536 → byteOf u (s.getReg 3) i = byteOf s (s.getReg 1) i) ∧
      u.getReg 1 = offset (s.getReg 1) ((s.getReg 0).toNat % 65536) ∧
      u.getReg 3 = offset (s.getReg 3) ((s.getReg 0).toNat % 65536) ∧ u.getReg 0 = 0 ∧ u.getReg 5 = 0 ∧
      u.pc = s.pc + 4) ∧
  (∀ (op : Opcode) (o1 o2 o3 : Specifier) (s : State) (l : BitVec 16) (a1 a2 : Word) (k : Cursor),
    operands3 op o1 o2 o3 s = .ok (l, a1, a2, k) ↔
      ∃ k1 k2, readOperand .word o1 (Cursor.start s op) = .ok (l.toNat, k1) ∧ addressOperand o2 k1 = .ok (a1, k2) ∧
        addressOperand o3 k2 = .ok (a2, k)) ∧
  (∀ (op : Opcode) (o1 o2 o3 o4 o5 : Specifier) (s : State) (l1 l2 : BitVec 16) (a1 a2 : Word) (f : Byte)
    (k : Cursor),
    operands5 op o1 o2 o3 o4 o5 s = .ok (l1, a1, f, l2, a2, k) ↔
      ∃ k1 k2 k3 k4, readOperand .word o1 (Cursor.start s op) = .ok (l1.toNat, k1) ∧
        addressOperand o2 k1 = .ok (a1, k2) ∧ readOperand .byte o3 k2 = .ok (f.toNat, k3) ∧
        readOperand .word o4 k3 = .ok (l2.toNat, k4) ∧ addressOperand o5 k4 = .ok (a2, k)) ∧
  (∀ (o1 o2 o3 : Specifier) (s : State) (c : Byte) (l : BitVec 16) (a : Word) (k : Cursor),
    loccOperands o1 o2 o3 s = .ok (c, l, a, k) ↔
      ∃ k1 k2, readOperand .byte o1 (Cursor.start s .locc) = .ok (c.toNat, k1) ∧
        readOperand .word o2 k1 = .ok (l.toNat, k2) ∧ addressOperand o3 k2 = .ok (a, k)) ∧
  (∀ (o1 o2 o3 o4 : Specifier) (s : State) (ol sl : BitVec 16) (oa sa : Word) (k : Cursor),
    matchcOperands o1 o2 o3 o4 s = .ok (ol, oa, sl, sa, k) ↔
      ∃ k1 k2 k3, readOperand .word o1 (Cursor.start s .matchc) = .ok (ol.toNat, k1) ∧
        addressOperand o2 k1 = .ok (oa, k2) ∧ readOperand .word o3 k2 = .ok (sl.toNat, k3) ∧
        addressOperand o4 k3 = .ok (sa, k)) ∧
  (∀ (o1 o2 o3 o4 o5 o6 : Specifier) (s : State) (sl dl : BitVec 16) (a ta d : Word) (f : Byte) (k : Cursor),
    movtcOperands o1 o2 o3 o4 o5 o6 s = .ok (sl, a, f, ta, dl, d, k) ↔
      ∃ k1 k2 k3 k4 k5, readOperand .word o1 (Cursor.start s .movtc) = .ok (sl.toNat, k1) ∧
        addressOperand o2 k1 = .ok (a, k2) ∧ readOperand .byte o3 k2 = .ok (f.toNat, k3) ∧
        addressOperand o4 k3 = .ok (ta, k4) ∧ readOperand .word o5 k4 = .ok (dl.toNat, k5) ∧
        addressOperand o6 k5 = .ok (d, k)) ∧
  (∀ (t : FType) (sub dif : Specifier) (s : State) (b a : Nat) (l : Location) (k : Cursor),
    resolved2 t sub dif s = .ok (b, l, a, k) ↔
      ∃ k1, readOperand (.floating t) sub (Cursor.start s (subInstr2 t sub dif).opcode) = .ok (b, k1) ∧
        t.isReserved b = false ∧ locate .modify (.floating t) dif k1 = .ok (l, k) ∧
        l.read (.floating t) k.state = .ok a ∧ t.isReserved a = false) ∧
  ∀ (t : FType) (sub min dif : Specifier) (s : State) (b a : Nat) (l : Location) (k : Cursor),
    resolved3 t sub min dif s = .ok (b, a, l, k) ↔
      ∃ k1 k2, readOperand (.floating t) sub (Cursor.start s (subInstr3 t sub min dif).opcode) = .ok (b, k1) ∧
        t.isReserved b = false ∧ readOperand (.floating t) min k1 = .ok (a, k2) ∧ t.isReserved a = false ∧
        locate .write (.floating t) dif k2 = .ok (l, k)

/-- 10_state.md R23 (general knowledge, D2; log 22): the PSL as a longword holds each field at its bits, and the
longword and the fields determine each other: no bit is lost. -/
def Obligations.PslHoldsItsFieldsAtTheirBits : Prop :=
  (∀ p : Psl, p.toWord.toNat = p.c.toNat + 2 * p.v.toNat + 2 ^ 2 * p.z.toNat + 2 ^ 3 * p.n.toNat
    + 2 ^ 4 * p.t.toNat + 2 ^ 5 * p.iv.toNat + 2 ^ 6 * p.fu.toNat + 2 ^ 7 * p.dv.toNat
    + 2 ^ 8 * p.mbz15to8.toNat + 2 ^ 16 * p.ipl.toNat + 2 ^ 21 * p.mbz21.toNat + 2 ^ 22 * p.prvMod.toNat
    + 2 ^ 24 * p.curMod.toNat + 2 ^ 26 * p.interruptStack.toNat + 2 ^ 27 * p.fpd.toNat
    + 2 ^ 28 * p.mbz29to28.toNat + 2 ^ 30 * p.tp.toNat + 2 ^ 31 * p.cm.toNat) ∧
  (∀ p : Psl, Psl.ofWord p.toWord = p) ∧ ∀ w : Word, (Psl.ofWord w).toWord = w

/-! Access faults and the platform -/

/-- 20_memory.md R46, 30_encoding.md R75, 60_exceptions.md R200 and R204 (2) (D6, D8; log 10, 13): a read or modify operand
in memory of which byte `j` is not admitted for read, and a deferred mode's pointer likewise, end the instruction,
once the operands before it are evaluated, with an access fault of the lowest such address. For SUB and TST the state
is as before, whatever registers the specifiers have stepped; for a string instruction it is that of R46 with no
destination string (DEDUCED, log 10): R0 to R5 and the condition codes are free values. -/
def Obligations.OperandReadsFaultBeforeTheInstruction : Prop :=
  ∀ (s : State) (i : Instr) (pre post : List ((Access × DataType) × Specifier)) (acc : Access) (ty : DataType)
    (sp : Specifier) (k : Cursor) (j : Nat),
    undescribedName i = none → i.operands = pre ++ ((acc, ty), sp) :: post →
    evaluateOperands pre (Cursor.start s i.opcode) = .ok k → sp.legal acc ty = true →
    let atFault := if isSub i || isTst i then s else s.stringFaulted 0 0
    (∀ (a : Word) (k' : Cursor), acc = .read ∨ acc = .modify → (∀ v, sp ≠ .plain (.immediate v)) →
      operandAddress ty.size sp k = .ok (a, k') → j < ty.size → admitted s .read a j →
      s.admits .read (offset a j) = false →
      exec i s = .fault (.accessFault (offset a j) .read atFault)) ∧
    ∀ p : Word, pointerAddress ty.size sp k = some p → j < 4 → admitted s .read p j →
      s.admits .read (offset p j) = false →
      exec i s = .fault (.accessFault (offset p j) .read atFault)

/-- 20_memory.md R46, 93_implementation_defined.md U6 (D6; log 10, 33): the state at an access fault inside a string
instruction; `n` is 0 before its operation starts. R0 to R5, the condition codes and every byte of the destination
string are free values: constants of Config at the counter of draws and the numbers after it, in this order (log 8,
DESIGN CHOICE). The PC and R6 to R14 are as before, and so is every byte outside the destination. -/
def Obligations.StringFaultLeavesFreeValues : Prop :=
  ∀ (s : State) (d : Word) (n : Nat), n < 2 ^ 16 → Memory.wf s.mem = true →
    (∀ r : Reg, r.val < 6 → (s.stringFaulted d n).getReg r = Config.freeWord (s.draws + r.val)) ∧
    (∀ r : Reg, 6 ≤ r.val → (s.stringFaulted d n).getReg r = s.getReg r) ∧
    (s.stringFaulted d n).cc =
      { n := Config.freeBit (s.draws + 6), z := Config.freeBit (s.draws + 7),
        v := Config.freeBit (s.draws + 8), c := Config.freeBit (s.draws + 9) } ∧
    (∀ i, i < n → byteOf (s.stringFaulted d n) d i = Config.freeByte (s.draws + 10 + i)) ∧
    ∀ x, (∀ i, i < n → x ≠ offset d i) → (s.stringFaulted d n).readByte x = s.readByte x

/-- 00_scope.md R6, 10_state.md R31, 93_implementation_defined.md U8 (D6, D11; log 5, 6, 11): the platform parameters are
arbitrary. Every predicate `Admit`, every predicate `Implemented`, either `movtc_overlap` and every subtraction
function that R104 admits (it answers data, no zero but that of all bits 0, and the exact difference where that is
the value of a datum) are the parameters of some platform. -/
def Obligations.PlatformParametersAreArbitrary : Prop :=
  ∀ (admission : AccessKind → Word → Bool) (implemented : Opcode → Bool) (overlap : OverlapPolicy)
    (fsub : FType → Nat → Nat → FSubResult),
    (∀ t a b r, fsub t a b = .value r → isDatum t r ∧ (t.isZero r = true → r = 0)) →
    (∀ t a b d, isDatum t a → isDatum t b → isDatum t d → value t a - value t b = value t d →
      fsub t a b = t.fsub a b) →
    ∃ p : Platform, (∀ s : State, s.platform = p → s.admits = admission) ∧ p.implements = implemented ∧
      p.movtcOverlap = overlap ∧
      ∀ t a b, isDatum t a → isDatum t b → p.fsub t a b = fsub t a b
end

