-- ==== Sys2Proof/Laws/Memory.lean ====
section
/-! SUPPORT. What the memory operations do: reads after writes, the canonical forms, and the written addresses. -/

namespace Sys2Proof.Machine

section Rising

theorem risingFrom_mono {lo lo' : Nat} (h : lo ≤ lo') : ∀ {as : List Nat},
    risingFrom lo' as = true → risingFrom lo as = true
  | [], _ => rfl
  | a :: as, h' => by
    simp only [risingFrom, Bool.and_eq_true, decide_eq_true_eq] at h' ⊢
    exact ⟨by omega, h'.2⟩

theorem le_of_risingFrom {lo : Nat} : ∀ {as : List Nat} {x : Nat},
    risingFrom lo as = true → x ∈ as → lo ≤ x
  | [], _, _, hx => by simp at hx
  | a :: as, x, h, hx => by
    simp only [risingFrom, Bool.and_eq_true, decide_eq_true_eq] at h
    rcases List.mem_cons.mp hx with rfl | hx
    · exact h.1
    · have := le_of_risingFrom h.2 hx; omega

end Rising

section Bytes

/-- The canonical form from a lower bound on, the shape that induction over cells needs. -/
def Memory.wfFrom (lo : Nat) (m : Memory) : Prop :=
  risingFrom lo (m.map Prod.fst) = true ∧ ∀ cell ∈ m, cell.1 < 2 ^ 32 ∧ cell.2 ≠ unlistedByte

theorem Memory.wf_iff (m : Memory) : m.wf = true ↔ m.wfFrom 0 := by
  simp only [Memory.wf, Memory.wfFrom, Bool.and_eq_true, List.all_eq_true, decide_eq_true_eq, bne_iff_ne]

theorem Memory.wfFrom_nil (lo : Nat) : Memory.wfFrom lo [] := ⟨rfl, by simp⟩

theorem Memory.wfFrom_cons {lo k : Nat} {b : Byte} {m : Memory} :
    Memory.wfFrom lo ((k, b) :: m) ↔
      lo ≤ k ∧ k < 2 ^ 32 ∧ b ≠ unlistedByte ∧ Memory.wfFrom (k + 1) m := by
  simp only [Memory.wfFrom, List.map_cons, risingFrom, Bool.and_eq_true, decide_eq_true_eq,
    List.forall_mem_cons]
  tauto

theorem Memory.wfFrom_mono {lo lo' : Nat} {m : Memory} (h : lo ≤ lo') (hm : m.wfFrom lo') :
    m.wfFrom lo := ⟨risingFrom_mono h hm.1, hm.2⟩

theorem Memory.read_of_lt {lo a : Nat} : ∀ {m : Memory}, m.wfFrom lo → a < lo → m.read a = unlistedByte
  | [], _, _ => rfl
  | (k, b) :: m, h, ha => by
    rw [Memory.wfFrom_cons] at h
    rw [Memory.read, if_neg (by omega)]
    exact Memory.read_of_lt h.2.2.2 (by omega)

theorem Memory.read_cons_self (a : Nat) (b : Byte) (m : Memory) (h : b ≠ unlistedByte) :
    (Memory.cons a b m).read a = b := by
  rw [Memory.cons, if_neg h, Memory.read, if_pos rfl]

theorem Memory.read_cons_of_ne {a x : Nat} (b : Byte) (m : Memory) (h : a ≠ x) :
    (Memory.cons a b m).read x = m.read x := by
  unfold Memory.cons
  split
  · rfl
  · rw [Memory.read, if_neg h]

theorem Memory.cons_wfFrom {lo a : Nat} (b : Byte) {m : Memory} (h1 : lo ≤ a) (h2 : a < 2 ^ 32)
    (hm : m.wfFrom (a + 1)) : (Memory.cons a b m).wfFrom lo := by
  unfold Memory.cons
  split
  · exact Memory.wfFrom_mono (by omega) hm
  · next hb => exact Memory.wfFrom_cons.mpr ⟨h1, h2, hb, hm⟩

/-- A store leaves every other address alone. -/
theorem Memory.read_write_of_ne {a x : Nat} (b : Byte) (h : a ≠ x) : ∀ m : Memory,
    (m.write a b).read x = m.read x
  | [] => Memory.read_cons_of_ne b [] h
  | (k, c) :: m => by
    unfold Memory.write
    split
    · exact Memory.read_cons_of_ne b _ h
    · split
      · next hk => rw [Memory.read_cons_of_ne b m h, Memory.read, if_neg (by omega)]
      · rw [Memory.read, Memory.read, Memory.read_write_of_ne b h m]

/-- A read after a store to the same address gives the byte stored. -/
theorem Memory.read_write_self_from {lo : Nat} (a : Nat) (b : Byte) : ∀ {m : Memory}, m.wfFrom lo →
    (m.write a b).read a = b
  | [], _ => by
    unfold Memory.write Memory.cons
    split
    · next h => exact h.symm
    · rw [Memory.read, if_pos rfl]
  | (k, c) :: m, h => by
    rw [Memory.wfFrom_cons] at h
    by_cases hb : b = unlistedByte
    · unfold Memory.write
      split
      · rw [Memory.cons, if_pos hb, Memory.read, if_neg (by omega), hb]
        exact Memory.read_of_lt h.2.2.2 (by omega)
      · split
        · next hk =>
          rw [Memory.cons, if_pos hb, hb]
          exact Memory.read_of_lt h.2.2.2 (by omega)
        · next hk => rw [Memory.read, if_neg (by omega), Memory.read_write_self_from a b h.2.2.2]
    · unfold Memory.write
      split
      · exact Memory.read_cons_self a b _ hb
      · split
        · exact Memory.read_cons_self a b _ hb
        · next hk => rw [Memory.read, if_neg (by omega), Memory.read_write_self_from a b h.2.2.2]

theorem Memory.read_write_self {m : Memory} (hm : m.wf = true) (a : Nat) (b : Byte) :
    (m.write a b).read a = b := Memory.read_write_self_from a b ((Memory.wf_iff m).mp hm)

theorem Memory.write_wfFrom {lo a : Nat} (b : Byte) (h1 : lo ≤ a) (h2 : a < 2 ^ 32) : ∀ {m : Memory},
    m.wfFrom lo → (m.write a b).wfFrom lo
  | [], _ => Memory.cons_wfFrom b h1 h2 (Memory.wfFrom_nil _)
  | (k, c) :: m, h => by
    have h' := Memory.wfFrom_cons.mp h
    unfold Memory.write
    split
    · exact Memory.cons_wfFrom b h1 h2 (Memory.wfFrom_cons.mpr ⟨by omega, h'.2.1, h'.2.2.1, h'.2.2.2⟩)
    · split
      · next hk => subst hk; exact Memory.cons_wfFrom b h1 h2 h'.2.2.2
      · exact Memory.wfFrom_cons.mpr
          ⟨h'.1, h'.2.1, h'.2.2.1, Memory.write_wfFrom b (by omega) h2 h'.2.2.2⟩

/-- A store keeps the canonical form. -/
theorem Memory.write_wf {m : Memory} (hm : m.wf = true) {a : Nat} (ha : a < 2 ^ 32) (b : Byte) :
    (m.write a b).wf = true :=
  (Memory.wf_iff _).mpr (Memory.write_wfFrom b (Nat.zero_le _) ha ((Memory.wf_iff m).mp hm))

theorem Memory.writeBytes_wf : ∀ (bs : List Byte) {m : Memory} (a : Word), m.wf = true →
    (m.writeBytes a bs).wf = true
  | [], _, _, h => h
  | b :: bs, _, a, h => Memory.writeBytes_wf bs (a + 1) (Memory.write_wf h a.isLt b)

theorem reset_mem_wf : State.reset.mem.wf = true := rfl

end Bytes

section Strings

theorem mem_stringAddrs {a x : Word} {n : Nat} :
    x ∈ stringAddrs a n ↔ ∃ i, i < n ∧ a + BitVec.ofNat 32 i = x := by
  simp [stringAddrs]

@[simp] theorem stringAddrs_length (a : Word) (n : Nat) : (stringAddrs a n).length = n := by
  simp [stringAddrs]

theorem stringAddrs_succ (a : Word) (n : Nat) : stringAddrs a (n + 1) = a :: stringAddrs (a + 1) n := by
  simp only [stringAddrs, List.range_succ_eq_map, List.map_cons, List.map_map]
  congr 1
  · simp
  · refine List.map_congr_left fun i _ => ?_
    simp only [Function.comp, BitVec.add_assoc]
    congr 1
    apply BitVec.eq_of_toNat_eq
    simp [BitVec.toNat_ofNat, BitVec.toNat_add]
    omega

@[simp] theorem Memory.readString_length (m : Memory) (a : Word) (n : Nat) :
    (m.readString a n).length = n := by simp [Memory.readString]

theorem Memory.readString_getElem (m : Memory) (a : Word) (n i : Nat) (h : i < (m.readString a n).length) :
    (m.readString a n)[i] = m.read (a + BitVec.ofNat 32 i).toNat := by
  simp [Memory.readString, stringAddrs]

/-- Storing bytes leaves every address outside them alone. -/
theorem Memory.read_writeBytes_of_not_mem (bs : List Byte) : ∀ (m : Memory) (a : Word) {x : Word},
    x ∉ stringAddrs a bs.length → (m.writeBytes a bs).read x.toNat = m.read x.toNat := by
  induction bs with
  | nil => intro m a x _; rfl
  | cons b bs ih =>
    intro m a x hx
    rw [List.length_cons, stringAddrs_succ, List.mem_cons, not_or] at hx
    rw [Memory.writeBytes, ih _ _ hx.2,
      Memory.read_write_of_ne b fun h => hx.1 (BitVec.eq_of_toNat_eq h).symm]

theorem add_ofNat_ne_self {a : Word} {i : Nat} (h : i + 1 < 2 ^ 32) : a ≠ a + 1 + BitVec.ofNat 32 i := by
  intro he
  have := congrArg BitVec.toNat he
  simp [BitVec.toNat_add, BitVec.toNat_ofNat] at this
  have := a.isLt
  omega

/-- A byte stored in a string of at most 2^32 bytes reads back. -/
theorem Memory.read_writeBytes (bs : List Byte) : ∀ {m : Memory} (a : Word) (i : Nat) (hi : i < bs.length),
    m.wf = true → bs.length ≤ 2 ^ 32 → (m.writeBytes a bs).read (a + BitVec.ofNat 32 i).toNat = bs[i] := by
  induction bs with
  | nil => intro m a i hi; simp at hi
  | cons b bs ih =>
    intro m a i hi hm hl
    rw [List.length_cons] at hi hl
    rw [Memory.writeBytes]
    cases i with
    | zero =>
      have hx : a ∉ stringAddrs (a + 1) bs.length := fun h => by
        obtain ⟨j, hj, he⟩ := mem_stringAddrs.mp h
        exact add_ofNat_ne_self (by omega) he.symm
      have h0 : a + BitVec.ofNat 32 0 = a := by simp
      rw [h0, Memory.read_writeBytes_of_not_mem bs _ _ hx, Memory.read_write_self hm, List.getElem_cons_zero]
    | succ j =>
      have he : a + BitVec.ofNat 32 (j + 1) = a + 1 + BitVec.ofNat 32 j := by
        rw [BitVec.add_assoc]
        congr 1
        apply BitVec.eq_of_toNat_eq
        simp [BitVec.toNat_ofNat, BitVec.toNat_add]
        omega
      rw [he, ih (a + 1) j (by omega) (Memory.write_wf hm a.isLt b) (by omega), List.getElem_cons_succ]

end Strings

section LittleEndian

@[simp] theorem leBytes_length (n v : Nat) : (leBytes n v).length = n := by
  induction n generalizing v with
  | zero => rfl
  | succ n ih => simp [leBytes, ih]

/-- Byte `i` of a number laid out least significant first (20_memory.md R41). -/
theorem leBytes_getElem (n v i : Nat) (h : i < (leBytes n v).length) : (leBytes n v)[i].toNat = v / 256 ^ i % 256 := by
  induction n generalizing v i with
  | zero => simp [leBytes] at h
  | succ n ih =>
    cases i with
    | zero => simp [leBytes]
    | succ i =>
      simp only [leBytes, List.getElem_cons_succ]
      rw [ih, Nat.div_div_eq_div_mul, Nat.pow_succ, Nat.mul_comm]

theorem leValue_leBytes (n v : Nat) : leValue (leBytes n v) = v % 256 ^ n := by
  induction n generalizing v with
  | zero => simp [leBytes, leValue, Nat.mod_one]
  | succ n ih =>
    have h := Nat.mod_mul (x := v) (a := 256) (b := 256 ^ n)
    rw [leBytes, leValue, ih, BitVec.toNat_ofNat, Nat.pow_succ 256 n, Nat.mul_comm (256 ^ n) 256, h]

/-- Byte `i` of a little-endian value is byte `i` of its bytes (20_memory.md R41). -/
theorem leValue_digit : ∀ (bs : List Byte) (i : Nat) (hi : i < bs.length),
    leValue bs / 256 ^ i % 256 = (bs[i]).toNat
  | b :: bs, 0, _ => by
    have := b.isLt
    simp [leValue]; omega
  | b :: bs, i + 1, hi => by
    have hb := b.isLt
    have h : leValue (b :: bs) / 256 ^ (i + 1) = leValue bs / 256 ^ i := by
      rw [leValue, Nat.pow_succ', ← Nat.div_div_eq_div_mul]
      congr 1; omega
    rw [h, leValue_digit bs i (by simpa using hi)]
    rfl

theorem leValue_lt (bs : List Byte) : leValue bs < 256 ^ bs.length := by
  induction bs with
  | nil => simp [leValue]
  | cons b bs ih =>
    have := b.isLt
    rw [leValue, List.length_cons, Nat.pow_succ]
    omega

end LittleEndian

section WrittenAddresses

theorem Written.mem_mark (x a : Nat) : ∀ w : List Nat, x ∈ Written.mark w a ↔ x = a ∨ x ∈ w
  | [] => by simp [Written.mark]
  | k :: w => by
    unfold Written.mark
    split
    · simp
    · split
      · next h => subst h; simp
      · rw [List.mem_cons, Written.mem_mark x a w, List.mem_cons]; tauto

theorem Written.mem_markRange (x : Nat) : ∀ (n : Nat) (w : List Nat) (a : Word),
    x ∈ Written.markRange w a n ↔ x ∈ w ∨ ∃ y ∈ stringAddrs a n, y.toNat = x
  | 0, w, a => by simp [Written.markRange, stringAddrs]
  | n + 1, w, a => by
    rw [Written.markRange, Written.mem_markRange x n, Written.mem_mark, stringAddrs_succ]
    simp only [List.mem_cons, exists_eq_or_imp]
    constructor
    · rintro ((h | h) | h)
      · exact Or.inr (Or.inl h.symm)
      · exact Or.inl h
      · exact Or.inr (Or.inr h)
    · rintro (h | h | h)
      · exact Or.inl (Or.inr h)
      · exact Or.inl (Or.inl h.symm)
      · exact Or.inr h

theorem Written.mark_risingFrom {lo a : Nat} (h : lo ≤ a) : ∀ {w : List Nat},
    risingFrom lo w = true → risingFrom lo (Written.mark w a) = true
  | [], _ => by simp [Written.mark, risingFrom, h]
  | k :: w, hw => by
    have hw' := hw
    simp only [risingFrom, Bool.and_eq_true, decide_eq_true_eq] at hw'
    unfold Written.mark
    split
    · next hk =>
      simp only [risingFrom, Bool.and_eq_true, decide_eq_true_eq]
      exact ⟨h, by omega, hw'.2⟩
    · split
      · exact hw
      · simp only [risingFrom, Bool.and_eq_true, decide_eq_true_eq]
        exact ⟨hw'.1, Written.mark_risingFrom (by omega) hw'.2⟩

/-- Marking an address keeps the canonical form. -/
theorem Written.mark_wf {w : List Nat} {a : Nat} (hw : Written.wf w = true) (ha : a < 2 ^ 32) :
    Written.wf (Written.mark w a) = true := by
  simp only [Written.wf, Bool.and_eq_true, List.all_eq_true, decide_eq_true_eq] at hw ⊢
  refine ⟨Written.mark_risingFrom (Nat.zero_le _) hw.1, fun x hx => ?_⟩
  rcases (Written.mem_mark x a w).mp hx with rfl | h
  · exact ha
  · exact hw.2 x h

theorem Written.markRange_wf : ∀ (n : Nat) {w : List Nat} (a : Word), Written.wf w = true →
    Written.wf (Written.markRange w a n) = true
  | 0, _, _, h => h
  | n + 1, _, a, h => Written.markRange_wf n (a + 1) (Written.mark_wf h a.isLt)

end WrittenAddresses

end Sys2Proof.Machine
end

