-- ==== Sys2Proof/Laws/Decode.lean ====
section
/-! SUPPORT. The decoder and the encoder agree on fields, base specifiers and specifiers, in both directions, over
any supply of bytes; the same for whole instructions; what the decoder does where bytes are missing; and the lengths
of encodings. -/

namespace Sys2Proof

open Sys2Proof.Machine

/-- The supply gives these bytes from offset `k` on. -/
def Serves {ε : Type} (src : Supply ε) (k : Nat) (bs : List Byte) : Prop :=
  ∀ i, (h : i < bs.length) → src (k + i) = .ok bs[i]

section Supplies

variable {ε : Type} {src : Supply ε} {k : Nat}

theorem serves_nil : Serves src k [] := fun _ h => absurd h (by simp)

theorem serves_cons {b : Byte} {bs : List Byte} :
    Serves src k (b :: bs) ↔ src k = .ok b ∧ Serves src (k + 1) bs := by
  constructor
  · intro h
    refine ⟨h 0 (Nat.zero_lt_succ _), fun i hi => ?_⟩
    have := h (i + 1) (by simpa using hi)
    rw [show k + 1 + i = k + (i + 1) by omega, this]
    rfl
  · rintro ⟨h0, h⟩ i hi
    cases i with
    | zero => simpa using h0
    | succ i =>
      have := h i (by simpa using hi)
      rw [show k + (i + 1) = k + 1 + i by omega, this]
      rfl

theorem serves_append {as bs : List Byte} :
    Serves src k (as ++ bs) ↔ Serves src k as ∧ Serves src (k + as.length) bs := by
  induction as generalizing k with
  | nil => simp [serves_nil]
  | cons a as ih =>
    rw [List.cons_append, serves_cons, serves_cons, ih, and_assoc, List.length_cons]
    rw [show k + 1 + as.length = k + (as.length + 1) by omega]

theorem serves_listSupply {bs : List Byte} (i : Nat) (b : Byte) :
    listSupply bs i = .ok b ↔ bs[i]? = some b := by
  unfold listSupply
  split
  · next h => simp [h]
  · next h => simp [h]

/-- A list serves itself, whatever follows. -/
theorem listSupply_serves (bs rest : List Byte) : Serves (listSupply (bs ++ rest)) 0 bs := by
  intro i hi
  rw [serves_listSupply, Nat.zero_add, List.getElem?_append_left hi, List.getElem?_eq_getElem hi]

/-- What a list serves is a prefix of it. -/
theorem serves_listSupply_prefix {bs as : List Byte} (h : Serves (listSupply bs) 0 as) :
    bs = as ++ bs.drop as.length := by
  have hget : ∀ i, i < as.length → bs[i]? = as[i]? := fun i hi => by
    have := (serves_listSupply _ _).mp (h i hi)
    rw [Nat.zero_add] at this
    rw [this, List.getElem?_eq_getElem hi]
  apply List.ext_getElem?
  intro i
  by_cases hi : i < as.length
  · rw [List.getElem?_append_left hi, hget i hi]
  · rw [List.getElem?_append_right (by omega), List.getElem?_drop]
    congr 1; omega

theorem byteAt_ok {b : Byte} : byteAt src k = .ok b ↔ src k = .ok b := by
  unfold byteAt; split <;> simp_all

end Supplies

section Bind

theorem decode_bind_ok {ε α β : Type} {x : Except ε α} {f : α → Except ε β} {b : β} :
    (x >>= f) = .ok b ↔ ∃ a, x = .ok a ∧ f a = .ok b := by
  cases x with
  | error e => simp [bind, Except.bind]
  | ok a => simp [bind, Except.bind]

end Bind

section Fields

variable {ε : Type} {src : Supply ε}

/-- A field is read exactly when its bytes are served, and its value is theirs (R63). -/
theorem fieldAt_ok : ∀ {n k v : Nat}, fieldAt src k n = .ok v ↔ v < 256 ^ n ∧ Serves src k (leBytes n v)
  | 0, k, v => by simp [fieldAt, leBytes, serves_nil, eq_comm]
  | n + 1, k, v => by
    unfold fieldAt
    rw [decode_bind_ok]
    simp only [decode_bind_ok, byteAt_ok, fieldAt_ok, Except.ok.injEq, leBytes, serves_cons]
    constructor
    · rintro ⟨b, hb, r, ⟨hr, hs⟩, rfl⟩
      have hdiv : (b.toNat + 256 * r) / 256 = r := by omega
      refine ⟨by rw [Nat.pow_succ]; omega, ?_, by rwa [hdiv]⟩
      rw [hb]
      congr 1
      apply BitVec.eq_of_toNat_eq
      simp; omega
    · rintro ⟨hv, h0, hs⟩
      refine ⟨_, h0, v / 256, ⟨by rw [Nat.pow_succ] at hv; omega, hs⟩, ?_⟩
      simp; omega

end Fields

section Lengths

theorem disp_bytes_length (d : Disp) : d.bytes.length = d.length := by
  cases d <;> simp [Disp.bytes, Disp.length]

theorem base_encode_length (size : Nat) (b : BaseSpec) : (b.encode size).length = b.length size := by
  cases b <;> simp [BaseSpec.encode, BaseSpec.length, disp_bytes_length, Nat.add_comm]

theorem specifier_encode_length (size : Nat) (sp : Specifier) : (sp.encode size).length = sp.length size := by
  cases sp <;> simp [Specifier.encode, Specifier.length, base_encode_length, Nat.add_comm]

theorem specifier_length_pos (size : Nat) (sp : Specifier) : 0 < sp.length size := by
  have h : ∀ b : BaseSpec, 0 < b.length size := fun b => by cases b <;> simp [BaseSpec.length]
  cases sp with
  | plain b => exact h b
  | index rx b => simp [Specifier.length]

/-- The length of an instruction's bytes is R70's. -/
theorem encode_length (i : Instr) : (encode i).length = i.length := by
  simp [encode, Instr.length, List.length_flatMap, specifier_encode_length]

end Lengths

section SpecifierBytes

theorem modeByte_toNat (m : Nat) (hm : m < 16) (n : Reg) : (modeByte m n).toNat = 16 * m + n.val := by
  have := n.isLt
  simp [modeByte]; omega

theorem regField_modeByte (m : Nat) (hm : m < 16) (n : Reg) : regField (modeByte m n) = n := by
  have := n.isLt
  ext
  simp [regField, modeByte_toNat m hm, Fin.ofNat]

/-- A specifier byte is its mode and its register. -/
theorem modeByte_regField (s : Byte) : modeByte (s.toNat / 16) (regField s) = s := by
  have := s.isLt
  apply BitVec.eq_of_toNat_eq
  rw [modeByte_toNat _ (by omega)]
  simp [regField, Fin.ofNat]; omega

theorem modeByte_of_mode {s : Byte} {m : Nat} (h : s.toNat / 16 = m) : modeByte m (regField s) = s :=
  h ▸ modeByte_regField s

end SpecifierBytes

section Specifiers

variable {ε : Type} {src : Supply ε} {size k : Nat}

/-- A base specifier whose first byte is of a mode and a register decodes by that mode. -/
theorem decodeBase_of_modeByte {m : Nat} (hm : m < 16) {n : Reg} (h : src k = .ok (modeByte m n)) :
    decodeBase src size k = decodeMode src size k (modeByte m n) n m := by
  have h1 : (modeByte m n).toNat / 16 = m := by
    have := n.isLt
    rw [modeByte_toNat m hm]; omega
  unfold decodeBase
  rw [byteAt_ok.mpr h]
  show decodeMode _ _ _ _ (regField (modeByte m n)) _ = _
  rw [regField_modeByte m hm, h1]

/-- A base specifier's bytes decode to it. -/
theorem decodeBase_of_encode {b : BaseSpec} (he : b.encodable size = true)
    (h : Serves src k (b.encode size)) : decodeBase src size k = .ok (b, k + b.length size) := by
  cases b with
  | literal lit =>
    have hl := lit.isLt
    have h0 : src k = .ok (lit.setWidth 8) := (serves_cons.mp h).1
    have hn : (lit.setWidth 8).toNat = lit.toNat := by simp; omega
    have hok : decodeBase src size k
        = decodeMode src size k (lit.setWidth 8) (regField (lit.setWidth 8)) (lit.toNat / 16) := by
      unfold decodeBase
      rw [byteAt_ok.mpr h0, ← hn]; rfl
    have hv : BitVec.ofNat 6 (lit.setWidth 8).toNat = lit := by rw [hn]; simp
    rw [hok]
    have hm : lit.toNat / 16 = 0 ∨ lit.toNat / 16 = 1 ∨ lit.toNat / 16 = 2 ∨ lit.toNat / 16 = 3 := by omega
    rcases hm with hm | hm | hm | hm <;> rw [hm, decodeMode, hv] <;> rfl
  | register n | deferred n | autodecrement n =>
    rw [decodeBase_of_modeByte (by omega) (serves_cons.mp h).1]; rfl
  | autoincrement n | autoincrementDeferred n =>
    have hn : n ≠ 15 := by simpa [BaseSpec.encodable] using he
    rw [decodeBase_of_modeByte (by omega) (serves_cons.mp h).1, decodeMode, if_neg hn]; rfl
  | immediate v =>
    obtain ⟨h0, h1⟩ := serves_cons.mp h
    have hv : v.toNat < 256 ^ size := by simpa [BaseSpec.encodable] using he
    rw [decodeBase_of_modeByte (by omega) h0, decodeMode, if_pos rfl, fieldAt_ok.mpr ⟨hv, h1⟩]
    simp [bind, Except.bind, BaseSpec.length]
  | absolute a =>
    obtain ⟨h0, h1⟩ := serves_cons.mp h
    rw [decodeBase_of_modeByte (by omega) h0, decodeMode, if_pos rfl, fieldAt_ok.mpr ⟨a.isLt, h1⟩]
    simp [bind, Except.bind, BaseSpec.length]
  | displacement n d | displacementDeferred n d =>
    obtain ⟨h0, h1⟩ := serves_cons.mp h
    cases d with
    | byte d | word d | long d =>
      rw [decodeBase_of_modeByte (by simp [Disp.mode]) h0, Disp.mode, decodeMode, fieldAt_ok.mpr ⟨d.isLt, h1⟩]
      · simp [bind, Except.bind, BaseSpec.length, Disp.length]
      all_goals omega

/-- What decodes as a base specifier is its bytes, and they exist. -/
theorem encode_of_decodeBase {b : BaseSpec} {k' : Nat} (hsize : size ≤ 16)
    (h : decodeBase src size k = .ok (b, k')) :
    b.encodable size = true ∧ k' = k + b.length size ∧ Serves src k (b.encode size) := by
  unfold decodeBase at h
  obtain ⟨s, h0, h⟩ := decode_bind_ok.mp h
  rw [byteAt_ok] at h0
  have hs := s.isLt
  have hcons : ∀ {m bs}, s.toNat / 16 = m → Serves src (k + 1) bs →
      Serves src k (modeByte m (regField s) :: bs) := fun hm hb =>
    serves_cons.mpr ⟨by rw [modeByte_of_mode hm, h0], hb⟩
  have hlit : s.toNat / 16 < 4 → Serves src k [(BitVec.ofNat 6 s.toNat).setWidth 8] := fun hm =>
    serves_cons.mpr ⟨by
      rw [h0]; congr 1; apply BitVec.eq_of_toNat_eq; simp; omega, serves_nil⟩
  have hfield : ∀ {n v w}, v < 256 ^ n → 256 ^ n ≤ 2 ^ w → (BitVec.ofNat w v).toNat = v :=
    fun hv hw => by simp [Nat.mod_eq_of_lt (Nat.lt_of_lt_of_le hv hw)]
  have hlt : s.toNat / 16 < 16 := by omega
  generalize hm : s.toNat / 16 = m at h hlt
  unfold decodeMode at h
  split at h
  case h_1 | h_2 | h_3 | h_4 =>
    simp only [Except.ok.injEq, Prod.mk.injEq] at h
    obtain ⟨rfl, rfl⟩ := h
    exact ⟨rfl, rfl, hlit (by omega)⟩
  case h_5 => simp at h
  case h_6 | h_7 | h_8 =>
    simp only [Except.ok.injEq, Prod.mk.injEq] at h
    obtain ⟨rfl, rfl⟩ := h
    exact ⟨rfl, rfl, hcons hm serves_nil⟩
  case h_9 | h_10 =>
    split at h
    · next hr =>
      obtain ⟨v, hv, h⟩ := decode_bind_ok.mp h
      obtain ⟨hv, hsv⟩ := fieldAt_ok.mp hv
      simp only [Except.ok.injEq, Prod.mk.injEq] at h
      obtain ⟨rfl, rfl⟩ := h
      have := hcons hm hsv
      rw [hr] at this
      first
        | exact ⟨rfl, rfl, by simpa only [BaseSpec.encode, hfield hv (by decide : 256 ^ 4 ≤ 2 ^ 32)] using this⟩
        | have hw := hfield hv (le_trans (Nat.pow_le_pow_right (by omega) hsize) (by decide) : 256 ^ size ≤ 2 ^ 128)
          exact ⟨by simpa [BaseSpec.encodable, hw] using hv, rfl, by simpa only [BaseSpec.encode, hw] using this⟩
    · next hr =>
      simp only [Except.ok.injEq, Prod.mk.injEq] at h
      obtain ⟨rfl, rfl⟩ := h
      exact ⟨by simpa [BaseSpec.encodable] using hr, rfl, hcons hm serves_nil⟩
  case h_11 | h_12 | h_13 | h_14 | h_15 =>
    obtain ⟨v, hv, h⟩ := decode_bind_ok.mp h
    obtain ⟨hv, hsv⟩ := fieldAt_ok.mp hv
    simp only [Except.ok.injEq, Prod.mk.injEq] at h
    obtain ⟨rfl, rfl⟩ := h
    refine ⟨rfl, rfl, ?_⟩
    rw [BaseSpec.encode, Disp.bytes, hfield hv (by decide)]
    exact hcons hm hsv
  case h_16 =>
    obtain ⟨v, hv, h⟩ := decode_bind_ok.mp h
    obtain ⟨hv, hsv⟩ := fieldAt_ok.mp hv
    simp only [Except.ok.injEq, Prod.mk.injEq] at h
    obtain ⟨rfl, rfl⟩ := h
    refine ⟨rfl, rfl, ?_⟩
    rw [BaseSpec.encode, Disp.bytes, hfield hv (by decide)]
    refine hcons ?_ hsv
    rw [hm, Disp.mode]
    simp only [imp_false] at *
    omega

/-- The first byte of a base specifier is never index mode's. -/
theorem base_encode_head (size : Nat) (b : BaseSpec) :
    ∃ s bs, b.encode size = s :: bs ∧ s.toNat / 16 ≠ 4 := by
  cases b with
  | literal lit =>
    have := lit.isLt
    exact ⟨_, _, rfl, by simp; omega⟩
  | displacement n d | displacementDeferred n d =>
    have := n.isLt
    cases d <;> exact ⟨_, _, rfl, by rw [Disp.mode, modeByte_toNat _ (by omega)]; omega⟩
  | register n | deferred n | autodecrement n | autoincrement n | autoincrementDeferred n =>
    have := n.isLt
    exact ⟨_, _, rfl, by rw [modeByte_toNat _ (by omega)]; omega⟩
  | immediate v | absolute a => exact ⟨_, _, rfl, by decide⟩

/-- A specifier's bytes decode to it (R63, R67). -/
theorem decodeSpecifier_of_encode {sp : Specifier} (he : sp.encodable size = true)
    (h : Serves src k (sp.encode size)) : decodeSpecifier src size k = .ok (sp, k + sp.length size) := by
  cases sp with
  | plain b =>
    obtain ⟨s, bs, hb, hm⟩ := base_encode_head size b
    have h0 : src k = .ok s := (serves_cons.mp (hb ▸ h : Serves src k (s :: bs))).1
    unfold decodeSpecifier
    rw [decode_bind_ok]
    refine ⟨s, byteAt_ok.mpr h0, ?_⟩
    rw [if_neg hm, decode_bind_ok]
    exact ⟨_, decodeBase_of_encode he h, rfl⟩
  | index rx b =>
    obtain ⟨h0, h1⟩ := serves_cons.mp h
    have := rx.isLt
    unfold decodeSpecifier
    rw [decode_bind_ok]
    refine ⟨_, byteAt_ok.mpr h0, ?_⟩
    rw [if_pos (by rw [modeByte_toNat _ (by omega)]; omega), decode_bind_ok]
    refine ⟨_, decodeBase_of_encode he h1, ?_⟩
    simp only [regField_modeByte _ (by omega : 4 < 16), Specifier.length, Except.ok.injEq, Prod.mk.injEq, true_and]
    omega

/-- What decodes as a specifier is its bytes, and they exist (R63, R67). -/
theorem encode_of_decodeSpecifier {sp : Specifier} {k' : Nat} (hsize : size ≤ 16)
    (h : decodeSpecifier src size k = .ok (sp, k')) :
    sp.encodable size = true ∧ k' = k + sp.length size ∧ Serves src k (sp.encode size) := by
  unfold decodeSpecifier at h
  obtain ⟨s, h0, h⟩ := decode_bind_ok.mp h
  rw [byteAt_ok] at h0
  split at h
  · next hm =>
    obtain ⟨⟨b, k1⟩, h1, h⟩ := decode_bind_ok.mp h
    obtain ⟨he, hk, hs⟩ := encode_of_decodeBase hsize h1
    simp only [Except.ok.injEq, Prod.mk.injEq] at h
    obtain ⟨rfl, rfl⟩ := h
    exact ⟨he, by rw [hk, Specifier.length]; omega,
      serves_cons.mpr ⟨by rw [modeByte_of_mode hm, h0], hs⟩⟩
  · obtain ⟨⟨b, k1⟩, h1, h⟩ := decode_bind_ok.mp h
    obtain ⟨he, hk, hs⟩ := encode_of_decodeBase hsize h1
    simp only [Except.ok.injEq, Prod.mk.injEq] at h
    obtain ⟨rfl, rfl⟩ := h
    exact ⟨he, hk, hs⟩

end Specifiers

section Opcodes

/-- The opcodes of R62 have different bytes. -/
theorem opcode_ofBytes (op : Opcode) : Opcode.ofBytes op.bytes = some op := by
  cases op <;> decide

theorem opcode_of_ofBytes {bs : List Byte} {op : Opcode} (h : Opcode.ofBytes bs = some op) :
    op.bytes = bs := by
  simpa using List.find?_some h

theorem opcode_mem_all (op : Opcode) : op ∈ Opcode.all := by
  cases op <;> decide

/-- Operand sizes are at most 16 bytes (R64). -/
theorem dataType_size_le (ty : DataType) : ty.size ≤ 16 := by
  cases ty with
  | floating t => cases t <;> decide
  | _ => decide

/-- An instruction is its opcode and its specifiers. -/
theorem ofParts_parts (i : Instr) : Instr.ofParts i.opcode i.specifiers = some i := by
  cases i <;> rfl

theorem parts_of_ofParts {op : Opcode} {sps : List Specifier} {i : Instr}
    (h : Instr.ofParts op sps = some i) : i.opcode = op ∧ i.specifiers = sps := by
  unfold Instr.ofParts at h
  split at h <;> first | (cases h; exact ⟨rfl, rfl⟩) | simp at h

/-- An instruction has as many specifiers as its opcode has operands. -/
theorem specifiers_length (i : Instr) : i.specifiers.length = i.opcode.signature.length := by
  cases i <;> rfl

end Opcodes

section Instructions

/-- The bytes of an operand list decode to it (R60). -/
theorem decodeSpecifiers_of_encode {ε : Type} {src : Supply ε} :
    ∀ (os : List (Access × DataType)) (sps : List Specifier) (k : Nat),
    sps.length = os.length → (∀ o ∈ os.zip sps, o.2.encodable o.1.2.size = true) →
    Serves src k ((os.zip sps).flatMap fun o => o.2.encode o.1.2.size) →
    decodeSpecifiers src os k = .ok (sps, k + (((os.zip sps).map fun o => o.2.length o.1.2.size).sum))
  | [], [], k, _, _, _ => by simp [decodeSpecifiers]
  | o :: os, sp :: sps, k, hl, he, hs => by
    simp only [List.zip_cons_cons, List.flatMap_cons] at hs
    obtain ⟨h1, h2⟩ := serves_append.mp hs
    unfold decodeSpecifiers
    rw [decodeSpecifier_of_encode (he (o, sp) (by simp)) h1]
    rw [specifier_encode_length] at h2
    simp only [bind, Except.bind]
    rw [decodeSpecifiers_of_encode os sps _ (by simpa using hl) (fun x hx => he x (by simp [hx])) h2]
    simp [Nat.add_assoc]
  | [], _ :: _, _, h, _, _ => by simp at h
  | _ :: _, [], _, h, _, _ => by simp at h

/-- The bytes of an opcode decode to it (R61, R62). -/
theorem decodeOpcode_of_bytes {ε : Type} {src : Supply ε} {op : Opcode} (h : Serves src 0 op.bytes) :
    decodeOpcode src = .ok (op, op.bytes.length) := by
  have hof := opcode_ofBytes op
  unfold decodeOpcode opcodeBytes
  have hb : (∃ b, op.bytes = [b] ∧ b ≠ 0xFD) ∨ ∃ b, op.bytes = [0xFD, b] := by
    cases op <;> simp [Opcode.bytes]
  rcases hb with ⟨b, hb, hn⟩ | ⟨b, hb⟩
  · rw [hb] at h hof
    rw [byteAt_ok.mpr (serves_cons.mp h).1]
    simp only [bind, Except.bind, if_neg hn, hof, hb]
  · rw [hb] at h hof
    obtain ⟨h0, h1⟩ := serves_cons.mp h
    rw [byteAt_ok.mpr h0, byteAt_ok.mpr (serves_cons.mp h1).1]
    simp only [bind, Except.bind, if_true, hof, hb]

/-- Opcode bytes that no opcode has, one that is not FD or FD and another, are an unknown opcode (R61, R71). -/
theorem decodeOpcode_unlisted {ε : Type} {src : Supply ε} {bs : List Byte}
    (hb : (∃ b, b ≠ 0xFD ∧ bs = [b]) ∨ ∃ b, bs = [0xFD, b]) (hn : ∀ op : Opcode, op.bytes ≠ bs)
    (h : Serves src 0 bs) : decodeOpcode src = .error .unknownOpcode := by
  have hof : Opcode.ofBytes bs = none := by
    cases ho : Opcode.ofBytes bs with
    | none => rfl
    | some op => exact absurd (opcode_of_ofBytes ho) (hn op)
  unfold decodeOpcode opcodeBytes
  rcases hb with ⟨b, hb, rfl⟩ | ⟨b, rfl⟩
  · rw [byteAt_ok.mpr (serves_cons.mp h).1]
    simp only [bind, Except.bind, if_neg hb, hof]
  · obtain ⟨h0, h1⟩ := serves_cons.mp h
    rw [byteAt_ok.mpr h0, byteAt_ok.mpr (serves_cons.mp h1).1]
    simp only [bind, Except.bind, if_true, hof]

/-- An instruction's bytes decode to it, over any supply. -/
theorem decodeFrom_of_encode {ε : Type} {src : Supply ε} {i : Instr} (he : i.encodable = true) (h : Serves src 0 (encode i)) :
    decodeFrom src = .ok (i, i.length) := by
  obtain ⟨h1, h2⟩ := serves_append.mp h
  unfold decodeFrom
  rw [decodeOpcode_of_bytes h1]
  simp only [bind, Except.bind]
  rw [decodeSpecifiers_of_encode _ i.specifiers _ (specifiers_length i) (by simpa [Instr.encodable, Instr.operands] using he)
    (by simpa [Instr.operands] using h2)]
  simp [ofParts_parts, Instr.length, Instr.operands]

/-- What decodes as an operand list is its bytes, and they exist. -/
theorem encode_of_decodeSpecifiers {ε : Type} {src : Supply ε} :
    ∀ (os : List (Access × DataType)) (sps : List Specifier) (k k' : Nat),
    decodeSpecifiers src os k = .ok (sps, k') →
    sps.length = os.length ∧ (∀ o ∈ os.zip sps, o.2.encodable o.1.2.size = true) ∧
    Serves src k ((os.zip sps).flatMap fun o => o.2.encode o.1.2.size) ∧
    k' = k + (((os.zip sps).map fun o => o.2.length o.1.2.size).sum)
  | [], sps, k, k', h => by
    simp [decodeSpecifiers] at h
    obtain ⟨rfl, rfl⟩ := h
    simp [serves_nil]
  | o :: os, sps, k, k', h => by
    unfold decodeSpecifiers at h
    obtain ⟨⟨sp, k1⟩, h1, h⟩ := decode_bind_ok.mp h
    obtain ⟨⟨sps', k2⟩, h2, h⟩ := decode_bind_ok.mp h
    simp only [Except.ok.injEq, Prod.mk.injEq] at h
    obtain ⟨rfl, rfl⟩ := h
    obtain ⟨e1, e2, e3⟩ := encode_of_decodeSpecifier (dataType_size_le _) h1
    obtain ⟨l1, l2, l3, l4⟩ := encode_of_decodeSpecifiers os sps' _ _ h2
    refine ⟨by simp [l1], ?_, ?_, by simp [l4, e2, Nat.add_assoc]⟩
    · intro x hx
      rw [List.zip_cons_cons, List.mem_cons] at hx
      rcases hx with rfl | hx
      · exact e1
      · exact l2 x hx
    · rw [List.zip_cons_cons, List.flatMap_cons]
      refine serves_append.mpr ⟨e3, ?_⟩
      rw [specifier_encode_length, ← e2]
      exact l3

/-- What decodes as an opcode is its bytes. -/
theorem bytes_of_decodeOpcode {ε : Type} {src : Supply ε} {op : Opcode} {k : Nat} (h : decodeOpcode src = .ok (op, k)) :
    Serves src 0 op.bytes ∧ k = op.bytes.length := by
  unfold decodeOpcode at h
  obtain ⟨bs, h1, h⟩ := decode_bind_ok.mp h
  obtain ⟨b0, h0, h1⟩ := decode_bind_ok.mp h1
  rw [byteAt_ok] at h0
  have hs : Serves src 0 bs := by
    split at h1
    · next hb =>
      obtain ⟨b1, hb1, h1'⟩ := decode_bind_ok.mp h1
      rw [byteAt_ok] at hb1
      simp at h1'
      subst h1'
      exact serves_cons.mpr ⟨by rw [h0, hb], serves_cons.mpr ⟨hb1, serves_nil⟩⟩
    · simp at h1
      subst h1
      exact serves_cons.mpr ⟨h0, serves_nil⟩
  split at h
  · next op' hop =>
    simp only [Except.ok.injEq, Prod.mk.injEq] at h
    obtain ⟨rfl, rfl⟩ := h
    rw [opcode_of_ofBytes hop]
    exact ⟨hs, rfl⟩
  · simp at h

/-- What decodes as an instruction is its bytes, and they exist, over any supply. -/
theorem encode_of_decodeFrom {ε : Type} {src : Supply ε} {i : Instr} {k : Nat} (h : decodeFrom src = .ok (i, k)) :
    i.encodable = true ∧ Serves src 0 (encode i) ∧ k = i.length := by
  unfold decodeFrom at h
  obtain ⟨⟨op, k1⟩, h1, h⟩ := decode_bind_ok.mp h
  obtain ⟨⟨sps, k2⟩, h2, h⟩ := decode_bind_ok.mp h
  simp only at h
  split at h
  · next i' hi =>
    simp only [Except.ok.injEq, Prod.mk.injEq] at h
    obtain ⟨rfl, rfl⟩ := h
    obtain ⟨rfl, rfl⟩ := parts_of_ofParts hi
    obtain ⟨s1, rfl⟩ := bytes_of_decodeOpcode h1
    obtain ⟨l1, l2, l3, l4⟩ := encode_of_decodeSpecifiers _ _ _ _ h2
    refine ⟨by simpa [Instr.encodable, Instr.operands] using l2, serves_append.mpr ⟨s1, by simpa [Instr.operands] using l3⟩, ?_⟩
    simpa [Instr.length, Instr.operands] using l4
  · simp at h

end Instructions

section Cuts

variable {ε : Type} {src : Supply ε} {k : Nat} {e : ε}

/-- The supply gives some of these bytes from offset `k` on, and then an error. -/
def Cut (src : Supply ε) (k : Nat) : List Byte → ε → Prop
  | [], _ => False
  | b :: bs, e => src k = .error e ∨ (src k = .ok b ∧ Cut src (k + 1) bs e)

theorem cut_append {as bs : List Byte} :
    Cut src k (as ++ bs) e ↔ Cut src k as e ∨ (Serves src k as ∧ Cut src (k + as.length) bs e) := by
  induction as generalizing k with
  | nil => simp [serves_nil, Cut]
  | cons a as ih =>
    rw [List.cons_append, Cut, Cut, ih, serves_cons, List.length_cons]
    rw [show k + 1 + as.length = k + (as.length + 1) by omega]
    tauto

/-- A list of bytes is cut where its first missing byte is. -/
theorem cut_of {bs : List Byte} {m : Nat} (hm : m < bs.length)
    (h : ∀ i, (hi : i < m) → src (k + i) = .ok (bs[i]'(by omega))) (he : src (k + m) = .error e) :
    Cut src k bs e := by
  induction bs generalizing k m with
  | nil => simp at hm
  | cons b bs ih =>
    cases m with
    | zero => exact .inl he
    | succ m =>
      refine .inr ⟨h 0 (by omega), ih (m := m) (by simpa using hm) (fun i hi => ?_) ?_⟩
      · have := h (i + 1) (by omega)
        rw [show k + 1 + i = k + (i + 1) by omega, this]; rfl
      · rw [show k + 1 + m = k + (m + 1) by omega, he]

theorem byteAt_error (h : src k = .error e) : byteAt src k = .error (.noByte e) := by
  unfold byteAt; rw [h]

theorem fieldAt_cut : ∀ {n k v : Nat}, Cut src k (leBytes n v) e → fieldAt src k n = .error (.noByte e)
  | n + 1, k, v, h => by
    rcases h with h | ⟨h0, h⟩
    · unfold fieldAt; rw [byteAt_error h]; rfl
    · unfold fieldAt; rw [byteAt_ok.mpr h0]; simp [bind, Except.bind, fieldAt_cut h]

/-- A base specifier that is cut short stops at the byte that is missing. -/
theorem decodeBase_cut {size : Nat} {b : BaseSpec} (h : Cut src k (b.encode size) e) :
    decodeBase src size k = .error (.noByte e) := by
  have h0 : ∀ {s bs}, Cut src k (s :: bs) e → src k = .error e ∨ (src k = .ok s ∧ Cut src (k + 1) bs e) := id
  have herr : src k = .error e → decodeBase src size k = .error (.noByte e) := fun h => by
    unfold decodeBase; rw [byteAt_error h]; rfl
  cases b with
  | literal _ | register _ | deferred _ | autodecrement _ | autoincrement _ | autoincrementDeferred _ =>
    rcases h0 h with h | ⟨_, h⟩
    · exact herr h
    · exact h.elim
  | immediate v | absolute v =>
    rcases h0 h with h | ⟨h0, h⟩
    · exact herr h
    · rw [decodeBase_of_modeByte (by omega) h0, decodeMode, if_pos rfl, fieldAt_cut h]; rfl
  | displacement n d | displacementDeferred n d =>
    rcases h0 h with h | ⟨h0, h⟩
    · exact herr h
    · cases d with
      | byte d | word d | long d =>
        rw [decodeBase_of_modeByte (by simp [Disp.mode]) h0, Disp.mode, decodeMode, fieldAt_cut h]
        · rfl
        all_goals omega

theorem decodeSpecifier_cut {size : Nat} {sp : Specifier} (h : Cut src k (sp.encode size) e) :
    decodeSpecifier src size k = .error (.noByte e) := by
  cases sp with
  | plain b =>
    obtain ⟨s, bs, hb, hm⟩ := base_encode_head size b
    rcases (hb ▸ h : Cut src k (s :: bs) e) with h' | ⟨h', _⟩
    · unfold decodeSpecifier; rw [byteAt_error h']; rfl
    · unfold decodeSpecifier
      rw [byteAt_ok.mpr h']
      simp only [bind, Except.bind, if_neg hm, decodeBase_cut h]
  | index rx b =>
    have := rx.isLt
    rcases h with h' | ⟨h', h⟩
    · unfold decodeSpecifier; rw [byteAt_error h']; rfl
    · unfold decodeSpecifier
      rw [byteAt_ok.mpr h']
      simp only [bind, Except.bind]
      rw [if_pos (by rw [modeByte_toNat _ (by omega)]; omega), decodeBase_cut h]

theorem decodeSpecifiers_cut : ∀ {os : List (Access × DataType)} {sps : List Specifier} {k : Nat},
    (∀ o ∈ os.zip sps, o.2.encodable o.1.2.size = true) →
    Cut src k ((os.zip sps).flatMap fun o => o.2.encode o.1.2.size) e →
    decodeSpecifiers src os k = .error (.noByte e)
  | [], sps, k, _, h => by simp [Cut] at h
  | o :: os, [], k, _, h => by simp [Cut] at h
  | o :: os, sp :: sps, k, he, h => by
    rw [List.zip_cons_cons, List.flatMap_cons] at h
    unfold decodeSpecifiers
    rcases cut_append.mp h with h | ⟨h1, h2⟩
    · rw [decodeSpecifier_cut h]; rfl
    · rw [decodeSpecifier_of_encode (he (o, sp) (by simp)) h1]
      rw [specifier_encode_length] at h2
      simp only [bind, Except.bind]
      rw [decodeSpecifiers_cut (fun x hx => he x (by simp [hx])) h2]

theorem decodeOpcode_cut {op : Opcode} (h : Cut src 0 op.bytes e) :
    decodeOpcode src = .error (.noByte e) := by
  unfold decodeOpcode opcodeBytes
  have hb : (∃ b, op.bytes = [b]) ∨ ∃ b, op.bytes = [0xFD, b] := by
    cases op <;> simp [Opcode.bytes]
  rcases hb with ⟨b, hb⟩ | ⟨b, hb⟩
  · rw [hb] at h
    rcases h with h | ⟨_, h⟩
    · rw [byteAt_error h]; rfl
    · exact h.elim
  · rw [hb] at h
    rcases h with h | ⟨h0, h | ⟨_, h⟩⟩
    · rw [byteAt_error h]; rfl
    · rw [byteAt_ok.mpr h0, byteAt_error h]; rfl
    · exact h.elim

/-- An instruction that is cut short stops at the byte that is missing: the decoder reads its bytes in order. -/
theorem decodeFrom_cut {i : Instr} (he : i.encodable = true) (h : Cut src 0 (encode i) e) :
    decodeFrom src = .error (.noByte e) := by
  unfold decodeFrom
  rcases cut_append.mp h with h | ⟨h1, h2⟩
  · rw [decodeOpcode_cut h]; rfl
  · rw [decodeOpcode_of_bytes h1]
    simp only [bind, Except.bind]
    rw [Nat.zero_add] at h2
    rw [decodeSpecifiers_cut (by simpa [Instr.encodable, Instr.operands] using he) (by simpa [Instr.operands] using h2)]

/-- Index mode over index mode is an operand form without a term (R67, R68). -/
theorem decodeSpecifier_indexOverIndex {size : Nat} {x y : Byte} (hx : x.toNat / 16 = 4) (hy : y.toNat / 16 = 4)
    (h : Serves src k [x, y]) : decodeSpecifier src size k = .error .operandForm := by
  obtain ⟨h0, h1⟩ := serves_cons.mp h
  unfold decodeSpecifier decodeBase
  rw [byteAt_ok.mpr h0, byteAt_ok.mpr (serves_cons.mp h1).1]
  simp only [bind, Except.bind, if_pos hx, hy, decodeMode]

/-- Where one of the specifiers cannot be decoded, decoding stops there, and those before it are read (R76 (3)). -/
theorem decodeSpecifiers_stop {o : Access × DataType} {rest : List (Access × DataType)} {e : DecodeError ε} :
    ∀ {pre : List ((Access × DataType) × Specifier)} {k : Nat},
    (∀ p ∈ pre, p.2.encodable p.1.2.size = true) → Serves src k (pre.flatMap fun p => p.2.encode p.1.2.size) →
    decodeSpecifier src o.2.size (k + (pre.flatMap fun p => p.2.encode p.1.2.size).length) = .error e →
    decodeSpecifiers src (pre.map Prod.fst ++ o :: rest) k = .error e ∧
      specifiersRead src (pre.map Prod.fst ++ o :: rest) k = pre
  | [], k, _, _, hc => by
    simp only [List.flatMap_nil, List.length_nil, Nat.add_zero] at hc
    simp only [List.map_nil, List.nil_append, decodeSpecifiers, specifiersRead, hc, bind, Except.bind, and_self]
  | p :: pre, k, he, hs, hc => by
    rw [List.flatMap_cons] at hs hc
    obtain ⟨h1, h2⟩ := serves_append.mp hs
    rw [specifier_encode_length] at h2
    rw [List.length_append, specifier_encode_length, ← Nat.add_assoc] at hc
    obtain ⟨i1, i2⟩ := decodeSpecifiers_stop (rest := rest) (fun x hx => he x (by simp [hx])) h2 hc
    simp only [List.map_cons, List.cons_append, decodeSpecifiers, specifiersRead,
      decodeSpecifier_of_encode (he p (by simp)) h1, bind, Except.bind, i1, i2, and_self]

end Cuts

end Sys2Proof
end

