-- ==== Sys2Proof/Laws/Floating.lean ====
section
/-! SUPPORT. Bit fields of sums, the bounds of the fields of a datum, and what rounding does: one lemma says what the
significand and the exponent of a rounded value are (40_floating_sub_tst.md R101 to R104). -/

namespace Sys2Proof

section BitFields

/-- A field above bit `k` of a sum of a low part and a high part is a field of the high part. -/
theorem bitField_high {a b k hi lo : Nat} (ha : a < 2 ^ k) (hk : k ≤ lo) (hl : lo ≤ hi) :
    bitField (a + b * 2 ^ k) hi lo = bitField b (hi - k) (lo - k) := by
  have h : (a + b * 2 ^ k) / 2 ^ lo = b / 2 ^ (lo - k) := by
    rw [show 2 ^ lo = 2 ^ k * 2 ^ (lo - k) by rw [← Nat.pow_add]; congr 1; omega, ← Nat.div_div_eq_div_mul,
      Nat.add_mul_div_right _ _ (by positivity), Nat.div_eq_of_lt ha, Nat.zero_add]
  unfold bitField
  rw [h]
  congr 2; omega

/-- A field below bit `k` of a sum of a low part and a high part is a field of the low part. -/
theorem bitField_low {a b k hi lo : Nat} (hk : hi < k) (hl : lo ≤ hi) :
    bitField (a + b * 2 ^ k) hi lo = bitField a hi lo := by
  unfold bitField
  rw [← Nat.mod_mul_right_div_self, ← Nat.mod_mul_right_div_self, ← Nat.pow_add,
    show lo + (hi + 1 - lo) = hi + 1 by omega]
  congr 1
  rw [show b * 2 ^ k = 2 ^ (hi + 1) * (b * 2 ^ (k - (hi + 1))) by
    rw [Nat.mul_left_comm, ← Nat.pow_add]; congr 2; omega]
  exact Nat.add_mul_mod_self_left _ _ _

/-- A number that fits is its own lowest field. -/
theorem bitField_self {a hi : Nat} (h : a < 2 ^ (hi + 1)) : bitField a hi 0 = a := by
  simp [bitField, Nat.mod_eq_of_lt h]

theorem bitField_lt (v hi lo : Nat) : bitField v hi lo < 2 ^ (hi + 1 - lo) :=
  Nat.mod_lt _ (by positivity)

/-- A number is its low bits and the rest. -/
theorem bitField_split (v k hi : Nat) (h : v < 2 ^ (hi + 1)) (hk : k < hi) :
    bitField v k 0 + bitField v hi (k + 1) * 2 ^ (k + 1) = v := by
  have h1 : v / 2 ^ (k + 1) < 2 ^ (hi + 1 - (k + 1)) := by
    rw [Nat.div_lt_iff_lt_mul (by positivity), ← Nat.pow_add]
    convert h using 2; omega
  simp only [bitField, Nat.pow_zero, Nat.div_one, Nat.sub_zero]
  rw [Nat.mod_eq_of_lt h1, Nat.mul_comm]
  exact Nat.mod_add_div v (2 ^ (k + 1))

end BitFields

section Rounding

/-- The length of a number bounds it (R104: `2^(E-1) <= |q| < 2^E`). -/
theorem bitLength_spec {n : Nat} (h : n ≠ 0) : 2 ^ (bitLength n - 1) ≤ n ∧ n < 2 ^ bitLength n :=
  ⟨Nat.log2_self_le h, Nat.lt_log2_self⟩

theorem bitLength_pos (n : Nat) : 0 < bitLength n := Nat.succ_pos _

/-- The length of a number that lies between two powers of 2. -/
theorem bitLength_eq {n L : Nat} (h1 : 2 ^ L ≤ n) (h2 : n < 2 ^ (L + 1)) : bitLength n = L + 1 := by
  have h0 : n ≠ 0 := by
    have := Nat.two_pow_pos L
    omega
  have h : Nat.log2 n = L := (Nat.log2_eq_iff h0).mpr ⟨h1, h2⟩
  rw [bitLength, h]

/-- What rounding to `p` bits gives: at most half a unit away, a tie going up. -/
theorem roundSignificand_spec (p n : Nat) :
    roundSignificand p n * 2 ^ (bitLength n + 1) ≤ n * 2 ^ (p + 1) + 2 ^ bitLength n ∧
      n * 2 ^ (p + 1) + 2 ^ bitLength n < (roundSignificand p n + 1) * 2 ^ (bitLength n + 1) :=
  ⟨Nat.div_mul_le_self _ _, by
    rw [Nat.mul_comm (roundSignificand p n + 1)]; exact Nat.lt_mul_div_succ _ (Nat.two_pow_pos _)⟩

/-- A rounded significand has `p` bits, or carries out to 2^p. -/
theorem roundSignificand_bounds {p n : Nat} (hp : 0 < p) (h : n ≠ 0) :
    2 ^ (p - 1) ≤ roundSignificand p n ∧ roundSignificand p n ≤ 2 ^ p := by
  obtain ⟨h1, h2⟩ := bitLength_spec h
  obtain ⟨p, rfl⟩ : ∃ q, p = q + 1 := ⟨p - 1, by omega⟩
  obtain ⟨L, hL⟩ : ∃ L, bitLength n = L + 1 := ⟨bitLength n - 1, by have := bitLength_pos n; omega⟩
  unfold roundSignificand
  rw [hL] at h1 h2 ⊢
  simp only [Nat.add_sub_cancel] at h1 ⊢
  constructor
  · rw [Nat.le_div_iff_mul_le (by positivity)]
    calc 2 ^ p * 2 ^ (L + 1 + 1) = 2 ^ L * 2 ^ (p + 1 + 1) := by ring
      _ ≤ n * 2 ^ (p + 1 + 1) := Nat.mul_le_mul_right _ h1
      _ ≤ _ := Nat.le_add_right _ _
  · rw [Nat.div_le_iff_le_mul (by positivity)]
    have h3 : n * 2 ^ (p + 1 + 1) + 2 ^ (p + 1 + 1) ≤ 2 ^ (p + 1) * 2 ^ (L + 1 + 1) := by
      calc n * 2 ^ (p + 1 + 1) + 2 ^ (p + 1 + 1) = (n + 1) * 2 ^ (p + 1 + 1) := by ring
        _ ≤ 2 ^ (L + 1) * 2 ^ (p + 1 + 1) := Nat.mul_le_mul_right _ h2
        _ = _ := by ring
    have h4 : 2 ^ (L + 1 + 1) = 2 * 2 ^ (L + 1) := by ring
    have h5 := Nat.two_pow_pos (L + 1)
    have key : ∀ a b c d e : Nat, a + c ≤ b → d = 2 * e → 0 < e → a + e ≤ b + d - 1 := by omega
    exact key _ _ _ _ _ h3 h4 h5

/-- A number that has at most `p` significant bits is rounded to itself. -/
theorem roundSignificand_exact {p m e : Nat} (h1 : 2 ^ p ≤ m) (h2 : m < 2 ^ (p + 1)) :
    bitLength (m * 2 ^ e) = p + 1 + e ∧ roundSignificand (p + 1) (m * 2 ^ e) = m := by
  have hb : bitLength (m * 2 ^ e) = p + e + 1 := by
    apply bitLength_eq
    · rw [Nat.pow_add]; exact Nat.mul_le_mul_right _ h1
    · rw [show p + e + 1 = p + 1 + e by omega, Nat.pow_add]
      exact Nat.mul_lt_mul_of_pos_right h2 (by positivity)
  refine ⟨by rw [hb]; omega, ?_⟩
  unfold roundSignificand
  rw [hb, show m * 2 ^ e * 2 ^ (p + 1 + 1) = m * 2 ^ (p + e + 1 + 1) by
    rw [Nat.mul_assoc, ← Nat.pow_add]; congr 2; omega, Nat.add_comm, Nat.add_mul_div_right _ _ (by positivity),
    Nat.div_eq_of_lt (Nat.pow_lt_pow_right (by norm_num) (by omega)), Nat.zero_add]

end Rounding

section Results

/-- A packed datum fits, and its exponent field is the exponent packed (R101, R103). -/
theorem pack_exponent (t : FType) {s e f : Nat} (hs : s ≤ 1) (he : e ≤ t.maxExponent) :
    t.pack s e f < 256 ^ t.size ∧ t.exponent (t.pack s e f) = e := by
  have b := fun hi lo => bitField_lt f hi lo
  cases t with
  | f =>
    have h1 := b 22 16; have h2 := b 15 0
    simp only [FType.pack, FType.exponent, FType.maxExponent, FType.size] at *
    generalize bitField f 22 16 = x1 at *; generalize bitField f 15 0 = x2 at *
    simp only [bitField]
    norm_num at *
    omega
  | d =>
    have h1 := b 54 48; have h2 := b 47 32; have h3 := b 31 16; have h4 := b 15 0
    simp only [FType.pack, FType.exponent, FType.maxExponent, FType.size] at *
    generalize bitField f 54 48 = x1 at *; generalize bitField f 47 32 = x2 at *
    generalize bitField f 31 16 = x3 at *; generalize bitField f 15 0 = x4 at *
    simp only [bitField]
    norm_num at *
    omega
  | g =>
    have h1 := b 51 48; have h2 := b 47 32; have h3 := b 31 16; have h4 := b 15 0
    simp only [FType.pack, FType.exponent, FType.maxExponent, FType.size] at *
    generalize bitField f 51 48 = x1 at *; generalize bitField f 47 32 = x2 at *
    generalize bitField f 31 16 = x3 at *; generalize bitField f 15 0 = x4 at *
    simp only [bitField]
    norm_num at *
    omega
  | h =>
    have h1 := b 111 96; have h2 := b 95 80; have h3 := b 79 64; have h4 := b 63 48
    have h5 := b 47 32; have h6 := b 31 16; have h7 := b 15 0
    simp only [FType.pack, FType.exponent, FType.maxExponent, FType.size] at *
    generalize bitField f 111 96 = x1 at *; generalize bitField f 95 80 = x2 at *
    generalize bitField f 79 64 = x3 at *; generalize bitField f 63 48 = x4 at *
    generalize bitField f 47 32 = x5 at *; generalize bitField f 31 16 = x6 at *
    generalize bitField f 15 0 = x7 at *
    simp only [bitField]
    norm_num at *
    omega

/-- The default subtraction function answers what a subtraction function can answer (R103, R104). -/
theorem fsub_isResult (t : FType) (a b : Nat) : t.isResult (t.fsub a b) = true := by
  unfold FType.fsub FType.round
  generalize t.scaled a - t.scaled b = q
  by_cases hq : q = 0
  · rw [if_pos hq]
    cases t <;> decide
  · rw [if_neg hq]
    extract_lets p L M M' e
    split
    · rfl
    · split
      · rfl
      · next h1 h2 =>
        obtain ⟨h3, h4⟩ := pack_exponent t (s := if q < 0 then 1 else 0) (f := M' - 2 ^ (p - 1)) (by split <;> omega)
          (show e.toNat ≤ t.maxExponent by omega)
        have h5 : (t.exponent (t.pack (if q < 0 then 1 else 0) e.toNat (M' - 2 ^ (p - 1))) == 0) = false := by
          rw [h4]; simp; omega
        simp only [FType.isResult, FType.isReserved, FType.isZero, h3, h5, decide_true, Bool.false_and, Bool.not_false,
          Bool.and_true, Bool.or_true]

end Results

end Sys2Proof
end

