-- ==== Sys2Proof/Laws/State.lean ====
section
/-! SUPPORT. One lemma for each field and each update of the state, so that no proof unfolds a record update. -/

namespace Sys2Proof.Machine

section Registers

@[simp] theorem State.getReg_setReg (s : State) (m n : Reg) (v : Word) :
    (s.setReg m v).getReg n = if m = n then v else s.getReg n := by
  simp only [State.getReg, State.setReg, Vector.get_eq_getElem, Vector.getElem_set, Fin.ext_iff]

@[simp] theorem State.setReg_psl (s : State) (n : Reg) (v : Word) : (s.setReg n v).psl = s.psl := rfl
@[simp] theorem State.setReg_mem (s : State) (n : Reg) (v : Word) : (s.setReg n v).mem = s.mem := rfl
@[simp] theorem State.setReg_platform (s : State) (n : Reg) (v : Word) :
    (s.setReg n v).platform = s.platform := rfl
@[simp] theorem State.setReg_written (s : State) (n : Reg) (v : Word) :
    (s.setReg n v).written = s.written := rfl
@[simp] theorem State.setReg_draws (s : State) (n : Reg) (v : Word) : (s.setReg n v).draws = s.draws := rfl

@[simp] theorem State.pc_setPc (s : State) (v : Word) : (s.setPc v).pc = v := by
  simp [State.pc, State.setPc]

@[simp] theorem State.getReg_setPc (s : State) (n : Reg) (v : Word) :
    (s.setPc v).getReg n = if 15 = n then v else s.getReg n := by
  simp [State.setPc]

@[simp] theorem State.setPc_psl (s : State) (v : Word) : (s.setPc v).psl = s.psl := rfl
@[simp] theorem State.setPc_mem (s : State) (v : Word) : (s.setPc v).mem = s.mem := rfl
@[simp] theorem State.setPc_platform (s : State) (v : Word) : (s.setPc v).platform = s.platform := rfl
@[simp] theorem State.setPc_written (s : State) (v : Word) : (s.setPc v).written = s.written := rfl
@[simp] theorem State.setPc_draws (s : State) (v : Word) : (s.setPc v).draws = s.draws := rfl

end Registers

section ConditionCodes

@[simp] theorem State.setCC_cc (s : State) (cc : CC) : (s.setCC cc).cc = cc := rfl
@[simp] theorem State.getReg_setCC (s : State) (cc : CC) (n : Reg) :
    (s.setCC cc).getReg n = s.getReg n := rfl
@[simp] theorem State.setCC_pc (s : State) (cc : CC) : (s.setCC cc).pc = s.pc := rfl
@[simp] theorem State.setCC_psl (s : State) (cc : CC) : (s.setCC cc).psl = s.psl.setCC cc := rfl
@[simp] theorem State.setCC_mem (s : State) (cc : CC) : (s.setCC cc).mem = s.mem := rfl
@[simp] theorem State.setCC_platform (s : State) (cc : CC) : (s.setCC cc).platform = s.platform := rfl
@[simp] theorem State.setCC_written (s : State) (cc : CC) : (s.setCC cc).written = s.written := rfl
@[simp] theorem State.setCC_draws (s : State) (cc : CC) : (s.setCC cc).draws = s.draws := rfl

@[simp] theorem State.setReg_cc (s : State) (n : Reg) (v : Word) : (s.setReg n v).cc = s.cc := rfl
@[simp] theorem State.setPc_cc (s : State) (v : Word) : (s.setPc v).cc = s.cc := rfl

@[simp] theorem Psl.setCC_setCC (p : Psl) (a b : CC) : (p.setCC a).setCC b = p.setCC b := rfl
@[simp] theorem Psl.setCC_cc (p : Psl) (cc : CC) : (p.setCC cc).cc = cc := rfl
@[simp] theorem Psl.setCC_n (p : Psl) (cc : CC) : (p.setCC cc).n = cc.n := rfl
@[simp] theorem Psl.setCC_z (p : Psl) (cc : CC) : (p.setCC cc).z = cc.z := rfl
@[simp] theorem Psl.setCC_v (p : Psl) (cc : CC) : (p.setCC cc).v = cc.v := rfl
@[simp] theorem Psl.setCC_c (p : Psl) (cc : CC) : (p.setCC cc).c = cc.c := rfl
@[simp] theorem Psl.setCC_fu (p : Psl) (cc : CC) : (p.setCC cc).fu = p.fu := rfl
@[simp] theorem Psl.setCC_fpd (p : Psl) (cc : CC) : (p.setCC cc).fpd = p.fpd := rfl
@[simp] theorem Psl.setCC_t (p : Psl) (cc : CC) : (p.setCC cc).t = p.t := rfl
@[simp] theorem Psl.setCC_tp (p : Psl) (cc : CC) : (p.setCC cc).tp = p.tp := rfl
@[simp] theorem Psl.setCC_cm (p : Psl) (cc : CC) : (p.setCC cc).cm = p.cm := rfl

end ConditionCodes

section Stores

@[simp] theorem State.getReg_storeBytes (s : State) (a : Word) (bs : List Byte) (n : Reg) :
    (s.storeBytes a bs).getReg n = s.getReg n := rfl
@[simp] theorem State.storeBytes_psl (s : State) (a : Word) (bs : List Byte) :
    (s.storeBytes a bs).psl = s.psl := rfl
@[simp] theorem State.storeBytes_mem (s : State) (a : Word) (bs : List Byte) :
    (s.storeBytes a bs).mem = s.mem.writeBytes a bs := rfl
@[simp] theorem State.storeBytes_platform (s : State) (a : Word) (bs : List Byte) :
    (s.storeBytes a bs).platform = s.platform := rfl
@[simp] theorem State.storeBytes_written (s : State) (a : Word) (bs : List Byte) :
    (s.storeBytes a bs).written = Written.markRange s.written a bs.length := rfl
@[simp] theorem State.storeBytes_draws (s : State) (a : Word) (bs : List Byte) :
    (s.storeBytes a bs).draws = s.draws := rfl

end Stores

section Draws

@[simp] theorem State.getReg_drawCC (s : State) (n : Reg) : s.drawCC.getReg n = s.getReg n := rfl
@[simp] theorem State.drawCC_pc (s : State) : s.drawCC.pc = s.pc := rfl
@[simp] theorem State.drawCC_mem (s : State) : s.drawCC.mem = s.mem := rfl
@[simp] theorem State.drawCC_platform (s : State) : s.drawCC.platform = s.platform := rfl
@[simp] theorem State.drawCC_written (s : State) : s.drawCC.written = s.written := rfl
@[simp] theorem State.drawCC_draws (s : State) : s.drawCC.draws = s.draws + 4 := rfl

@[simp] theorem State.drawBytes_nil (s : State) : s.drawBytes [] = s := rfl

theorem State.drawBytes_psl (as : List Word) (s : State) : (s.drawBytes as).psl = s.psl := by
  induction as generalizing s with
  | nil => rfl
  | cons a as ih => exact ih _

theorem State.getReg_drawBytes (as : List Word) (s : State) (n : Reg) :
    (s.drawBytes as).getReg n = s.getReg n := by
  induction as generalizing s with
  | nil => rfl
  | cons a as ih => exact ih _

theorem State.drawBytes_platform (as : List Word) (s : State) :
    (s.drawBytes as).platform = s.platform := by
  induction as generalizing s with
  | nil => rfl
  | cons a as ih => exact ih _

theorem State.drawBytes_draws (as : List Word) (s : State) :
    (s.drawBytes as).draws = s.draws + as.length := by
  induction as generalizing s with
  | nil => rfl
  | cons a as ih => rw [State.drawBytes, ih]; simp only [List.length_cons]; omega

end Draws

section Completion

theorem State.getReg_setRegs (ws : List (Reg × Word)) (s : State) (n : Reg)
    (h : ∀ w ∈ ws, w.1 ≠ n) : (s.setRegs ws).getReg n = s.getReg n := by
  induction ws generalizing s with
  | nil => rfl
  | cons w ws ih =>
    rw [State.setRegs, ih _ fun x hx => h x (List.mem_cons_of_mem _ hx), State.getReg_setReg,
      if_neg (h w List.mem_cons_self)]

/-- Of registers written one after another, all different, each holds its value. -/
theorem State.getReg_setRegs_mem (ws : List (Reg × Word)) (s : State) (h : (ws.map Prod.fst).Nodup) :
    ∀ w ∈ ws, (s.setRegs ws).getReg w.1 = w.2 := by
  induction ws generalizing s with
  | nil => simp
  | cons w ws ih =>
    rw [List.map_cons, List.nodup_cons] at h
    intro x hx
    rw [State.setRegs]
    rcases List.mem_cons.mp hx with rfl | hx
    · rw [State.getReg_setRegs _ _ _ fun y hy he => h.1 (List.mem_map.mpr ⟨y, hy, he⟩), State.getReg_setReg, if_pos rfl]
    · exact ih _ h.2 x hx

@[simp] theorem State.setRegs_nil (s : State) : s.setRegs [] = s := rfl
@[simp] theorem State.setRegs_cons (s : State) (n : Reg) (v : Word) (ws : List (Reg × Word)) :
    s.setRegs ((n, v) :: ws) = (s.setReg n v).setRegs ws := rfl

theorem State.setRegs_fields (ws : List (Reg × Word)) (s : State) :
    (s.setRegs ws).psl = s.psl ∧ (s.setRegs ws).mem = s.mem ∧ (s.setRegs ws).platform = s.platform ∧
      (s.setRegs ws).written = s.written ∧ (s.setRegs ws).draws = s.draws := by
  induction ws generalizing s with
  | nil => exact ⟨rfl, rfl, rfl, rfl, rfl⟩
  | cons w ws ih => exact ih _

@[simp] theorem State.complete_pc (s : State) (ws : List (Reg × Word)) (cc : CC) (pc : Word) :
    (s.complete ws cc pc).pc = pc := by simp [State.complete]

@[simp] theorem State.complete_psl (s : State) (ws : List (Reg × Word)) (cc : CC) (pc : Word) :
    (s.complete ws cc pc).psl = s.psl.setCC cc := by
  simp [State.complete, (State.setRegs_fields ws s).1]

@[simp] theorem State.complete_cc (s : State) (ws : List (Reg × Word)) (cc : CC) (pc : Word) :
    (s.complete ws cc pc).cc = cc := by simp [State.cc]

@[simp] theorem State.complete_mem (s : State) (ws : List (Reg × Word)) (cc : CC) (pc : Word) :
    (s.complete ws cc pc).mem = s.mem := by
  simp [State.complete, (State.setRegs_fields ws s).2.1]

@[simp] theorem State.complete_platform (s : State) (ws : List (Reg × Word)) (cc : CC) (pc : Word) :
    (s.complete ws cc pc).platform = s.platform := by
  simp [State.complete, (State.setRegs_fields ws s).2.2.1]

@[simp] theorem State.complete_written (s : State) (ws : List (Reg × Word)) (cc : CC) (pc : Word) :
    (s.complete ws cc pc).written = s.written := by
  simp [State.complete, (State.setRegs_fields ws s).2.2.2.1]

@[simp] theorem State.complete_draws (s : State) (ws : List (Reg × Word)) (cc : CC) (pc : Word) :
    (s.complete ws cc pc).draws = s.draws := by
  simp [State.complete, (State.setRegs_fields ws s).2.2.2.2]

/-- What completing an instruction does to a register: R15 is the PC, an implied register has its value, the
others are as before. -/
@[simp] theorem State.getReg_complete (s : State) (ws : List (Reg × Word)) (cc : CC) (pc : Word) (n : Reg) :
    (s.complete ws cc pc).getReg n = if 15 = n then pc else (s.setRegs ws).getReg n := by
  simp [State.complete]

end Completion

end Sys2Proof.Machine
end

