-- ==== Sys2Proof/Laws/Operands.lean ====
section
/-! SUPPORT. What operand evaluation does when it answers an operand: it changes nothing but the registers its
specifier steps, moves the cursor past the specifier, and answers only legal forms. One lemma for each
function of Machine/Operands.lean; callers cite these instead of unfolding. -/

namespace Sys2Proof.Machine

section Binding

/-- A computation with two parts answers when both do. -/
theorem except_bind_ok {ε α β : Type} {x : Except ε α} {f : α → Except ε β} {b : β} :
    (x >>= f) = .ok b ↔ ∃ a, x = .ok a ∧ f a = .ok b := by
  cases x with
  | error e => simp [bind, Except.bind]
  | ok a => simp [bind, Except.bind]

/-- A computation with two parts stops when the first does, or the second after the first answers. -/
theorem except_bind_error {ε α β : Type} {x : Except ε α} {f : α → Except ε β} {e : ε} :
    (x >>= f) = .error e ↔ x = .error e ∨ ∃ a, x = .ok a ∧ f a = .error e := by
  cases x with
  | error e => simp [bind, Except.bind]
  | ok a => simp [bind, Except.bind]

/-- A refusal is the same during every instruction. -/
@[simp] theorem Stop.during_refuse (op : Opcode) (r : Refusal) : (Stop.refuse r).during op = .refuse r := by
  simp [Stop.during, Stop.inString]

/-- Nothing else becomes a refusal. -/
theorem Stop.during_eq_refuse {op : Opcode} {e : Stop} {r : Refusal} : e.during op = .refuse r ↔ e = .refuse r := by
  unfold Stop.during
  split
  · rcases e with e | _
    · cases e <;> simp [Stop.inString]
    · simp [Stop.inString]
  · exact Iff.rfl

/-- An access fault during a string instruction is one of a string without a destination (20_memory.md R46). -/
theorem Stop.during_access (op : Opcode) (a : Word) (kind : AccessKind) :
    (Stop.raise (.access a kind)).during op
      = .raise (if op.isString then .stringAccess a kind 0 0 else .access a kind) := by
  unfold Stop.during; split <;> rfl

/-- When a string instruction answers a next state, its meaning did. -/
@[simp] theorem concludeString_eq_next {s t : State} {r : Except Stop State} :
    concludeString s r = .next t ↔ r = .ok t := by
  rcases r with (e | e) | u
  · cases e <;> simp [concludeString, Stop.inString, conclude, raise]
  · simp [concludeString, Stop.inString, conclude]
  · simp [concludeString]

/-- When an instruction answers a next state, its meaning did. -/
@[simp] theorem conclude_eq_next {s t : State} {r : Except Stop State} :
    conclude s r = .next t ↔ r = .ok t := by
  rcases r with (e | r) | u
  · cases e <;> simp [conclude, raise]
  · simp [conclude]
  · simp [conclude]

end Binding

section Frames

theorem onlyRegs_refl (rs : List Reg) (s : State) : OnlyRegs rs s s :=
  ⟨rfl, rfl, rfl, rfl, rfl, fun _ _ => rfl⟩

theorem OnlyRegs.trans {as bs : List Reg} {s t u : State} (h1 : OnlyRegs as s t) (h2 : OnlyRegs bs t u) :
    OnlyRegs (as ++ bs) s u where
  psl := h2.psl.trans h1.psl
  mem := h2.mem.trans h1.mem
  platform := h2.platform.trans h1.platform
  written := h2.written.trans h1.written
  draws := h2.draws.trans h1.draws
  regs n hn := by
    rw [List.mem_append, not_or] at hn
    exact (h2.regs n hn.2).trans (h1.regs n hn.1)

theorem OnlyRegs.mono {as bs : List Reg} {s t : State} (h : OnlyRegs as s t) (hs : as ⊆ bs) :
    OnlyRegs bs s t :=
  { h with regs := fun n hn => h.regs n fun ha => hn (hs ha) }

theorem OnlyRegs.admits {rs : List Reg} {s t : State} (h : OnlyRegs rs s t) : t.admits = s.admits := by
  funext kind a; simp [State.admits, h.platform]

theorem OnlyRegs.firstDenied {rs : List Reg} {s t : State} (h : OnlyRegs rs s t) :
    t.firstDenied = s.firstDenied := by
  funext kind a n; simp [State.firstDenied, h.admits]

theorem OnlyRegs.memRead {rs : List Reg} {s t : State} (h : OnlyRegs rs s t) : t.memRead = s.memRead := by
  funext a n; simp [State.memRead, h.firstDenied, h.mem]

theorem OnlyRegs.readByte {rs : List Reg} {s t : State} (h : OnlyRegs rs s t) : t.readByte = s.readByte := by
  funext a; simp [State.readByte, h.mem]

theorem onlyRegs_setReg (s : State) (n : Reg) (v : Word) : OnlyRegs [n] s (s.setReg n v) where
  psl := rfl
  mem := rfl
  platform := rfl
  written := rfl
  draws := rfl
  regs m hm := by simp at hm; simp [Ne.symm hm]

end Frames

section Reads

/-- What a memory read answers: every byte is admitted, and the value is theirs, little-endian (R42). -/
theorem memRead_ok {s : State} {a : Word} {n v : Nat} :
    s.memRead a n = .ok v ↔
      (∀ x ∈ stringAddrs a n, s.admits .read x = true) ∧ v = leValue (s.mem.readString a n) := by
  unfold State.memRead State.firstDenied
  cases h : (stringAddrs a n).find? fun x => !s.admits .read x with
  | none =>
    have h' : ∀ x ∈ stringAddrs a n, s.admits .read x = true := fun x hx => by
      simpa using List.find?_eq_none.mp h x hx
    simp only [Except.ok.injEq]
    exact ⟨fun hv => ⟨h', hv.symm⟩, fun hv => hv.2.symm⟩
  | some x =>
    have h1 := List.mem_of_find?_eq_some h
    have h2 := List.find?_some h
    simp only [Bool.not_eq_true'] at h2
    simp only [reduceCtorEq, false_iff, not_and]
    intro h3
    simp [h3 x h1] at h2

/-- A read that faults names an address of the read that is not admitted (R42). -/
theorem memRead_error {s : State} {a : Word} {n : Nat} {e : Stop} (h : s.memRead a n = .error e) :
    ∃ x ∈ stringAddrs a n, s.admits .read x = false ∧ e = .raise (.access x .read) := by
  unfold State.memRead State.firstDenied at h
  cases hx : (stringAddrs a n).find? fun x => !s.admits .read x with
  | none => simp [hx] at h
  | some x =>
    simp only [hx, Except.error.injEq] at h
    exact ⟨x, List.mem_of_find?_eq_some hx, by simpa using List.find?_some hx, h.symm⟩

end Reads

section Evaluation

theorem baseAddress_ok {s s' : State} {size : Nat} {pcnext a : Word} {b : BaseSpec}
    (h : baseAddress s size pcnext b = .ok (a, s')) : OnlyRegs b.stepped.toList s s' := by
  cases b with
  | literal _ => simp [baseAddress] at h
  | register _ => simp [baseAddress] at h
  | deferred _ | immediate _ | absolute _ | displacement _ _ =>
    simp only [baseAddress, Except.ok.injEq, Prod.mk.injEq] at h
    exact h.2 ▸ onlyRegs_refl _ _
  | autodecrement n | autoincrement n =>
    simp only [baseAddress, Except.ok.injEq, Prod.mk.injEq] at h
    exact h.2 ▸ onlyRegs_setReg _ _ _
  | autoincrementDeferred n =>
    obtain ⟨_, _, h⟩ := except_bind_ok.mp h
    simp only [Except.ok.injEq, Prod.mk.injEq] at h
    exact h.2 ▸ onlyRegs_setReg _ _ _
  | displacementDeferred n d =>
    obtain ⟨_, _, h⟩ := except_bind_ok.mp h
    simp only [Except.ok.injEq, Prod.mk.injEq] at h
    exact h.2 ▸ onlyRegs_refl _ _

theorem operandAddress_ok {size : Nat} {sp : Specifier} {k k' : Cursor} {a : Word}
    (h : operandAddress size sp k = .ok (a, k')) :
    OnlyRegs sp.stepped k.state k'.state ∧ k'.addr = k.addr + BitVec.ofNat 32 (sp.length size) := by
  cases sp with
  | plain b | index rx b =>
    obtain ⟨p, hp, h⟩ := except_bind_ok.mp h
    simp only [Except.ok.injEq, Prod.mk.injEq] at h
    exact h.2 ▸ ⟨baseAddress_ok hp, rfl⟩

theorem readOperand_ok {ty : DataType} {sp : Specifier} {k k' : Cursor} {v : Nat}
    (h : readOperand ty sp k = .ok (v, k')) :
    sp.legal .read ty = true ∧ OnlyRegs sp.stepped k.state k'.state ∧
      k'.addr = k.addr + BitVec.ofNat 32 (sp.length ty.size) := by
  unfold readOperand at h
  split at h
  case isFalse => simp at h
  case isTrue hl =>
    refine ⟨hl, ?_⟩
    split at h
    · simp only [Except.ok.injEq, Prod.mk.injEq] at h
      exact h.2 ▸ ⟨onlyRegs_refl _ _, rfl⟩
    · simp only [Except.ok.injEq, Prod.mk.injEq] at h
      exact h.2 ▸ ⟨onlyRegs_refl _ _, rfl⟩
    · simp only [Except.ok.injEq, Prod.mk.injEq] at h
      exact h.2 ▸ ⟨onlyRegs_refl _ _, rfl⟩
    · obtain ⟨⟨a, k1⟩, h1, h⟩ := except_bind_ok.mp h
      obtain ⟨w, _, h⟩ := except_bind_ok.mp h
      simp only [Except.ok.injEq, Prod.mk.injEq] at h
      exact h.2 ▸ operandAddress_ok h1

/-- A byte or word read operand fits its type (R65, R66, R69). -/
theorem readOperand_lt {ty : DataType} {sp : Specifier} {k k' : Cursor} {v : Nat}
    (h : readOperand ty sp k = .ok (v, k')) (hty : ty = .word ∨ ty = .byte) : v < 256 ^ ty.size := by
  unfold readOperand at h
  split at h
  · split at h
    · next lit _ =>
      simp only [Except.ok.injEq, Prod.mk.injEq] at h
      have := lit.isLt
      rcases hty with rfl | rfl <;> simp [expandLiteral, DataType.size] at * <;> omega
    · simp only [Except.ok.injEq, Prod.mk.injEq] at h
      rw [← h.1]; exact Nat.mod_lt _ (by positivity)
    · simp only [Except.ok.injEq, Prod.mk.injEq] at h
      rw [← h.1]; exact Nat.mod_lt _ (by positivity)
    · obtain ⟨⟨a, k1⟩, h1, h⟩ := except_bind_ok.mp h
      obtain ⟨w, h2, h⟩ := except_bind_ok.mp h
      simp only [Except.ok.injEq, Prod.mk.injEq] at h
      rw [← h.1, (memRead_ok.mp h2).2]
      have := leValue_lt (k1.state.mem.readString a ty.size)
      simpa using this
  · simp at h

/-- A word operand is the read operand of that type (R8, R75). -/
theorem readWordOperand_iff {sp : Specifier} {k k' : Cursor} {l : BitVec 16} :
    readWordOperand sp k = .ok (l, k') ↔ readOperand .word sp k = .ok (l.toNat, k') := by
  unfold readWordOperand
  rw [except_bind_ok]
  constructor
  · rintro ⟨⟨v, k1⟩, h1, h⟩
    simp only [Except.ok.injEq, Prod.mk.injEq] at h
    obtain ⟨rfl, rfl⟩ := h
    have := readOperand_lt h1 (.inl rfl)
    rw [h1]; simp [DataType.size] at *; omega
  · intro h
    exact ⟨_, h, by simp⟩

/-- A byte operand is the read operand of that type (R8, R75). -/
theorem readByteOperand_iff {sp : Specifier} {k k' : Cursor} {b : Byte} :
    readByteOperand sp k = .ok (b, k') ↔ readOperand .byte sp k = .ok (b.toNat, k') := by
  unfold readByteOperand
  rw [except_bind_ok]
  constructor
  · rintro ⟨⟨v, k1⟩, h1, h⟩
    simp only [Except.ok.injEq, Prod.mk.injEq] at h
    obtain ⟨rfl, rfl⟩ := h
    have := readOperand_lt h1 (.inr rfl)
    rw [h1]; simp [DataType.size] at *; omega
  · intro h
    exact ⟨_, h, by simp⟩

theorem readByteOperand_ok {sp : Specifier} {k k' : Cursor} {b : Byte}
    (h : readByteOperand sp k = .ok (b, k')) :
    sp.legal .read .byte = true ∧ OnlyRegs sp.stepped k.state k'.state ∧
      k'.addr = k.addr + BitVec.ofNat 32 (sp.length DataType.byte.size) := by
  obtain ⟨⟨v, k1⟩, h1, h⟩ := except_bind_ok.mp h
  simp only [Except.ok.injEq, Prod.mk.injEq] at h
  exact h.2 ▸ readOperand_ok h1

theorem readWordOperand_ok {sp : Specifier} {k k' : Cursor} {b : BitVec 16}
    (h : readWordOperand sp k = .ok (b, k')) :
    sp.legal .read .word = true ∧ OnlyRegs sp.stepped k.state k'.state ∧
      k'.addr = k.addr + BitVec.ofNat 32 (sp.length DataType.word.size) := by
  obtain ⟨⟨v, k1⟩, h1, h⟩ := except_bind_ok.mp h
  simp only [Except.ok.injEq, Prod.mk.injEq] at h
  exact h.2 ▸ readOperand_ok h1

theorem addressOperand_ok {sp : Specifier} {k k' : Cursor} {a : Word}
    (h : addressOperand sp k = .ok (a, k')) :
    sp.legal .address .byte = true ∧ OnlyRegs sp.stepped k.state k'.state ∧
      k'.addr = k.addr + BitVec.ofNat 32 (sp.length DataType.byte.size) := by
  unfold addressOperand at h
  split at h
  · next hl => exact ⟨hl, operandAddress_ok h⟩
  · simp at h

theorem checkReserved_ok {t : FType} {B : Nat} {u : Unit} :
    checkReserved t B = .ok u ↔ t.isReserved B = false := by
  unfold checkReserved; split <;> simp_all

theorem readFloating_ok {t : FType} {sp : Specifier} {k k' : Cursor} {v : Nat}
    (h : readFloating t sp k = .ok (v, k')) :
    readOperand (.floating t) sp k = .ok (v, k') ∧ t.isReserved v = false := by
  obtain ⟨⟨w, k1⟩, h1, h⟩ := except_bind_ok.mp h
  obtain ⟨_, h2, h⟩ := except_bind_ok.mp h
  simp only [Except.ok.injEq, Prod.mk.injEq] at h
  obtain ⟨rfl, rfl⟩ := h
  exact ⟨h1, checkReserved_ok.mp h2⟩

/-- A located operand is a legal form, its registers stay below the PC, and locating steps registers only. -/
theorem locate_ok {acc : Access} {ty : DataType} {sp : Specifier} {k k' : Cursor} {l : Location}
    (h : locate acc ty sp k = .ok (l, k')) :
    sp.legal acc ty = true ∧ OnlyRegs sp.stepped k.state k'.state ∧
      k'.addr = k.addr + BitVec.ofNat 32 (sp.length ty.size) ∧
      (∀ r, l = .register r → sp = .plain (.register r) ∧ r.val + ty.registers ≤ 15) := by
  unfold locate at h
  split at h
  case isFalse => simp at h
  case isTrue hl =>
    refine ⟨hl, ?_⟩
    split at h
    · next r =>
      simp only [Except.ok.injEq, Prod.mk.injEq] at h
      obtain ⟨rfl, rfl⟩ := h
      refine ⟨onlyRegs_refl _ _, rfl, fun r' hr => ?_⟩
      cases hr
      simp only [Specifier.legal, BaseSpec.legal, Bool.and_eq_true, decide_eq_true_eq] at hl
      exact ⟨rfl, hl.2⟩
    · obtain ⟨⟨a, k1⟩, h1, h⟩ := except_bind_ok.mp h
      simp only [Except.ok.injEq, Prod.mk.injEq] at h
      obtain ⟨rfl, rfl⟩ := h
      obtain ⟨h2, h3⟩ := operandAddress_ok h1
      exact ⟨h2, h3, fun r hr => by cases hr⟩

theorem location_read_ok {l : Location} {ty : DataType} {s : State} {v : Nat}
    (h : l.read ty s = .ok v) : v = l.value ty s := by
  cases l with
  | register r => simpa [Location.read, Location.value, eq_comm] using h
  | memory a => exact (memRead_ok.mp h).2

theorem modifyFloating_ok {t : FType} {sp : Specifier} {k k' : Cursor} {l : Location} {v : Nat}
    (h : modifyFloating t sp k = .ok (l, v, k')) :
    locate .modify (.floating t) sp k = .ok (l, k') ∧ l.read (.floating t) k'.state = .ok v ∧
      t.isReserved v = false := by
  obtain ⟨⟨l1, k1⟩, h1, h⟩ := except_bind_ok.mp h
  obtain ⟨w, h2, h⟩ := except_bind_ok.mp h
  obtain ⟨_, h3, h⟩ := except_bind_ok.mp h
  simp only [Except.ok.injEq, Prod.mk.injEq] at h
  obtain ⟨rfl, rfl, rfl⟩ := h
  exact ⟨h1, h2, checkReserved_ok.mp h3⟩

/-- Evaluating an operand steps the registers of its specifier and nothing else (R75). -/
theorem evaluateOperand_ok {acc : Access} {ty : DataType} {sp : Specifier} {k k' : Cursor}
    (h : evaluateOperand acc ty sp k = .ok k') : OnlyRegs sp.stepped k.state k'.state := by
  have part : ∀ {α : Type} {x : Except Stop α} {f : α → Cursor} {c : Cursor},
      (x >>= fun a => Except.ok (f a)) = .ok c → ∃ a, x = .ok a ∧ f a = c := fun h => by
    obtain ⟨a, h1, h2⟩ := except_bind_ok.mp h
    exact ⟨a, h1, by simpa using h2⟩
  unfold evaluateOperand at h
  split at h <;> obtain ⟨x, hx, rfl⟩ := part h
  · exact (readOperand_ok (readFloating_ok hx).1).2.1
  · exact (locate_ok (modifyFloating_ok hx).1).2.1
  · exact (readOperand_ok hx).2.1
  · exact (addressOperand_ok hx).2.1
  · exact (locate_ok hx).2.1

/-- Evaluating operands steps the registers of their specifiers and nothing else (R75). -/
theorem evaluateOperands_ok : ∀ {os : List ((Access × DataType) × Specifier)} {k k' : Cursor},
    evaluateOperands os k = .ok k' → OnlyRegs (os.flatMap fun o => o.2.stepped) k.state k'.state
  | [], k, k', h => by
    simp only [evaluateOperands, Except.ok.injEq] at h
    exact h ▸ onlyRegs_refl _ _
  | o :: os, k, k', h => by
    obtain ⟨k1, h1, h⟩ := except_bind_ok.mp h
    rw [List.flatMap_cons]
    exact (evaluateOperand_ok h1).trans (evaluateOperands_ok h)

end Evaluation

end Sys2Proof.Machine
end

