-- ==== Sys2Proof/Laws/Ops.lean ====
section
/-! SUPPORT. What the shared operations of the meanings do: admission checks, locations, the subtraction, and the
string operations on resolved operands. One lemma each says all that an answer implies. -/

namespace Sys2Proof.Machine

section Admission

theorem firstDenied_none {s : State} {kind : AccessKind} {a : Word} {n : Nat} :
    s.firstDenied kind a n = none ↔ ∀ x ∈ stringAddrs a n, s.admits kind x = true := by
  simp only [State.firstDenied, List.find?_eq_none, Bool.not_eq_eq_eq_not, Bool.not_true,
    Bool.not_eq_false]

/-- Admission by offset and by address are the same. -/
theorem forall_mem_stringAddrs {p : Word → Prop} {a : Word} {n : Nat} :
    (∀ x ∈ stringAddrs a n, p x) ↔ ∀ i, i < n → p (offset a i) := by
  simp only [mem_stringAddrs, offset]
  exact ⟨fun h i hi => h _ ⟨i, hi, rfl⟩, fun h x ⟨i, hi, he⟩ => he ▸ h i hi⟩

/-- The first address denied is the lowest-offset one (R42). -/
theorem firstDenied_some {s : State} {kind : AccessKind} {a : Word} {n j : Nat} (hj : j < n)
    (h1 : ∀ i, i < j → s.admits kind (offset a i) = true) (h2 : s.admits kind (offset a j) = false) :
    s.firstDenied kind a n = some (offset a j) := by
  simp only [State.firstDenied, stringAddrs, List.find?_map, Option.map_eq_some_iff]
  refine ⟨j, ?_, rfl⟩
  rw [List.find?_range_eq_some]
  simp only [Function.comp, offset] at *
  exact ⟨by simp [h2], by simpa using hj, fun i hi => by simp [h1 i hi]⟩

/-- A read stops at its lowest-offset byte that is not admitted (20_memory.md R42). -/
theorem memRead_denied {s : State} {a : Word} {n j : Nat} (hj : j < n)
    (h1 : ∀ i, i < j → s.admits .read (offset a i) = true) (h2 : s.admits .read (offset a j) = false) :
    s.memRead a n = .error (.raise (.access (offset a j) .read)) := by
  rw [State.memRead, firstDenied_some hj h1 h2]

theorem admitStrings_ok {s : State} {d : Word} {dl : Nat} : ∀ {ss : List (AccessKind × Word × Nat)},
    admitStrings s d dl ss = .ok () ↔ ∀ x ∈ ss, ∀ y ∈ stringAddrs x.2.1 x.2.2, s.admits x.1 y = true
  | [] => by simp [admitStrings]
  | (kind, a, n) :: ss => by
    unfold admitStrings
    cases h : s.firstDenied kind a n with
    | none =>
      simp only [List.forall_mem_cons]
      rw [admitStrings_ok]
      exact ⟨fun hs => ⟨firstDenied_none.mp h, hs⟩, fun hs => hs.2⟩
    | some x =>
      simp only [reduceCtorEq, List.forall_mem_cons, false_iff, not_and]
      intro h'
      rw [firstDenied_none.mpr h'] at h
      simp at h

end Admission

section Locations

theorem mem_regsFrom {ty : DataType} {r n : Reg} :
    n ∈ ty.regsFrom r ↔ ∃ i, i < ty.registers ∧ Fin.ofNat 16 (r.val + i) = n := by
  simp [DataType.regsFrom]

/-- Writing consecutive registers changes those registers and nothing else. -/
theorem writeRegs_ok (n : Nat) : ∀ (s : State) (r : Reg) (v : Nat),
    OnlyRegs ((List.range n).map fun i => Fin.ofNat 16 (r.val + i)) s (s.writeRegs r n v) := by
  induction n with
  | zero => exact fun s r v => onlyRegs_refl _ _
  | succ n ih =>
    intro s r v
    refine ((onlyRegs_setReg s r (BitVec.ofNat 32 v)).trans (ih _ (r + 1) (v / 2 ^ 32))).mono ?_
    intro x hx
    simp only [List.cons_append, List.nil_append, List.mem_cons, List.mem_map, List.mem_range] at hx ⊢
    rcases hx with rfl | ⟨i, hi, rfl⟩
    · exact ⟨0, by omega, by ext; simp [Fin.ofNat]⟩
    · exact ⟨i + 1, by omega, by ext; simp [Fin.ofNat, Fin.val_add]; omega⟩

/-- What is written to consecutive registers is read from them (R69). -/
theorem readRegs_writeRegs : ∀ (n : Nat) (s : State) (r : Reg) (v : Nat), n ≤ 15 → v < 2 ^ (32 * n) →
    (s.writeRegs r n v).readRegs r n = v
  | 0, _, _, v, _, hv => by
    simp only [Nat.mul_zero, Nat.pow_zero] at hv
    simp only [State.readRegs]; omega
  | n + 1, s, r, v, hn, hv => by
    have hd : v / 2 ^ 32 < 2 ^ (32 * n) := by
      rw [Nat.div_lt_iff_lt_mul (by positivity), ← Nat.pow_add]
      rwa [Nat.mul_succ] at hv
    have hnot : r ∉ (List.range n).map fun i => Fin.ofNat 16 ((r + 1).val + i) := by
      simp only [List.mem_map, List.mem_range, not_exists, not_and]
      intro i hi he
      have := congrArg Fin.val he
      have hr := r.isLt
      simp [Fin.ofNat, Fin.val_add] at this
      omega
    rw [State.writeRegs, State.readRegs, readRegs_writeRegs n _ _ _ (by omega) hd,
      (writeRegs_ok n _ _ _).regs r hnot]
    simp
    omega

theorem registers_size (ty : DataType) : 256 ^ ty.size ≤ 2 ^ (32 * ty.registers) := by
  cases ty with
  | floating t => cases t <;> simp [DataType.size, DataType.registers, FType.size]
  | _ => simp [DataType.size, DataType.registers]

/-- What is stored at a location is its value (R69; 20_memory.md R42). -/
theorem location_value_write (l : Location) (ty : DataType) {v : Nat} {s : State} (hm : s.mem.wf = true)
    (hv : v < 256 ^ ty.size) : l.value ty (l.write ty v s) = v := by
  cases l with
  | register r =>
    have hr : ty.registers ≤ 15 := by
      cases ty with
      | floating t => cases t <;> decide
      | _ => decide
    show readRegister (s.writeRegs r ty.registers v) ty r = v
    rw [readRegister, readRegs_writeRegs _ _ _ _ hr (Nat.lt_of_lt_of_le hv (registers_size ty)), Nat.mod_eq_of_lt hv]
  | memory a =>
    have hsize : ty.size ≤ 2 ^ 32 := by
      cases ty with
      | floating t => cases t <;> decide
      | _ => decide
    have : (s.mem.writeBytes a (leBytes ty.size v)).readString a ty.size = leBytes ty.size v := by
      apply List.ext_getElem (by simp)
      intro i h1 h2
      rw [Memory.readString_getElem, Memory.read_writeBytes _ a i h2 hm (by simpa using hsize)]
    show leValue ((s.mem.writeBytes a (leBytes ty.size v)).readString a ty.size) = v
    rw [this, leValue_leBytes, Nat.mod_eq_of_lt hv]

theorem checkWrite_ok {l : Location} {ty : DataType} {s : State} :
    l.checkWrite ty s = .ok () ↔ ∀ x ∈ l.addrs ty, s.admits .write x = true := by
  cases l with
  | register r => simp [Location.checkWrite, Location.addrs]
  | memory a =>
    cases h : s.firstDenied .write a ty.size with
    | none =>
      simp only [Location.checkWrite, h, Location.addrs, true_iff]
      exact firstDenied_none.mp h
    | some x =>
      simp only [Location.checkWrite, h, reduceCtorEq, false_iff, Location.addrs]
      intro h'
      rw [firstDenied_none.mpr h'] at h
      simp at h

/-- What a store at a location leaves alone: the PSL, the platform, the draws, the other registers and the other
bytes; and what it marks. -/
theorem location_write_frame (l : Location) (ty : DataType) (v : Nat) (s : State) :
    (l.write ty v s).psl = s.psl ∧ (l.write ty v s).platform = s.platform ∧
      (l.write ty v s).draws = s.draws ∧
      (∀ n, n ∉ l.regs ty → (l.write ty v s).getReg n = s.getReg n) ∧
      (∀ x, x ∉ l.addrs ty → (l.write ty v s).readByte x = s.readByte x) ∧
      (∀ x, x ∈ (l.write ty v s).written ↔ x ∈ s.written ∨ ∃ y ∈ l.addrs ty, y.toNat = x) := by
  cases l with
  | register r =>
    have h := writeRegs_ok ty.registers s r v
    exact ⟨h.psl, h.platform, h.draws, h.regs, fun x _ => congrFun h.readByte x, fun x => by
      simp [Location.write, Location.addrs, h.written]⟩
  | memory a =>
    refine ⟨rfl, rfl, rfl, fun _ _ => rfl, fun x hx => ?_, fun x => ?_⟩
    · exact Memory.read_writeBytes_of_not_mem _ _ _ (by simpa [Location.addrs] using hx)
    · show x ∈ Written.markRange s.written a (leBytes ty.size v).length ↔ _
      rw [Written.mem_markRange, leBytes_length]; rfl

theorem location_write_mem_wf (l : Location) (ty : DataType) (v : Nat) {s : State} (h : s.mem.wf = true) :
    (l.write ty v s).mem.wf = true := by
  cases l with
  | register r => exact (writeRegs_ok ty.registers s r v).mem ▸ h
  | memory a => exact Memory.writeBytes_wf _ _ h

theorem location_write_written_wf (l : Location) (ty : DataType) (v : Nat) {s : State}
    (h : Written.wf s.written = true) : Written.wf (l.write ty v s).written = true := by
  cases l with
  | register r => exact (writeRegs_ok ty.registers s r v).written ▸ h
  | memory a => exact Written.markRange_wf _ _ h

end Locations

section Subtraction

/-- Every platform's subtraction answers what a subtraction function can answer (R103, R104). -/
theorem platform_fsub_isResult (p : Platform) (t : FType) (a b : Nat) : t.isResult (p.fsub t a b) = true := by
  have h : ∀ rs : List SubtractionRule, t.isResult (subtractBy rs t a b) = true := fun rs => by
    induction rs with
    | nil => exact fsub_isResult t a b
    | cons r rs ih =>
      unfold subtractBy
      split
      · next hc =>
        simp only [SubtractionRule.covers, Bool.and_eq_true] at hc
        exact hc.2
      · exact ih
  unfold Platform.fsub
  split
  · exact fsub_isResult t a b
  · exact h _

/-- What SUB answers: the store is admitted, and a value, or zero on underflow with FU clear, is stored (R105). -/
theorem subtract_ok {t : FType} {a b : Nat} {l : Location} {k : Cursor} {u : State} :
    subtract t a b l k = .ok u ↔
      (∀ x ∈ l.addrs (.floating t), k.state.admits .write x = true) ∧
      ∃ r, (k.state.platform.fsub t a b = .value r ∨ (k.state.platform.fsub t a b = .underflow ∧ k.state.psl.fu = false ∧ r = zeroDatum)) ∧
        u = storeDifference t l r k := by
  unfold subtract
  rw [except_bind_ok]
  constructor
  · rintro ⟨⟨⟩, h1, h⟩
    refine ⟨checkWrite_ok.mp h1, ?_⟩
    split at h
    · next r hr => exact ⟨r, Or.inl hr, by simpa [eq_comm] using h⟩
    · simp at h
    · next hr =>
      split at h
      · simp at h
      · next hf => exact ⟨_, Or.inr ⟨hr, by simpa using hf, rfl⟩, by simpa [eq_comm] using h⟩
  · rintro ⟨h1, r, hr, rfl⟩
    refine ⟨(), checkWrite_ok.mpr h1, ?_⟩
    rcases hr with hr | ⟨hr, hf, rfl⟩
    · simp [hr]
    · simp [hr, hf]

end Subtraction

section StringOperations

theorem compare3_ok {l : BitVec 16} {a1 a2 : Word} {k : Cursor} {u : State} :
    compare3 l a1 a2 k = .ok u ↔
      ((∀ x ∈ stringAddrs a1 l.toNat, k.state.admits .read x = true) ∧
        ∀ x ∈ stringAddrs a2 l.toNat, k.state.admits .read x = true) ∧
      u = finishComparison (compareEqualLength k.state l.toNat a1 a2 equalCC) k := by
  simp only [compare3]
  rw [except_bind_ok]
  constructor
  · rintro ⟨⟨⟩, h1, h⟩
    have h1 := admitStrings_ok.mp h1
    simp only [List.forall_mem_cons] at h1
    exact ⟨⟨h1.1, h1.2.1⟩, by simpa [eq_comm] using h⟩
  · rintro ⟨⟨h1, h2⟩, rfl⟩
    exact ⟨(), admitStrings_ok.mpr (by simpa only [List.forall_mem_cons, List.not_mem_nil, false_implies,
      implies_true, and_true] using ⟨h1, h2⟩), rfl⟩

theorem compare5_ok {l1 l2 : BitVec 16} {a1 a2 : Word} {f : Byte} {k : Cursor} {u : State} :
    compare5 l1 a1 f l2 a2 k = .ok u ↔
      ((∀ x ∈ stringAddrs a1 l1.toNat, k.state.admits .read x = true) ∧
        ∀ x ∈ stringAddrs a2 l2.toNat, k.state.admits .read x = true) ∧
      u = finishComparison (compareFilled k.state f (max l1.toNat l2.toNat)
        { l1 := l1.toNat, a1 := a1, l2 := l2.toNat, a2 := a2, cc := equalCC }) k := by
  simp only [compare5]
  rw [except_bind_ok]
  constructor
  · rintro ⟨⟨⟩, h1, h⟩
    have h1 := admitStrings_ok.mp h1
    simp only [List.forall_mem_cons] at h1
    exact ⟨⟨h1.1, h1.2.1⟩, by simpa [eq_comm] using h⟩
  · rintro ⟨⟨h1, h2⟩, rfl⟩
    exact ⟨(), admitStrings_ok.mpr (by simpa only [List.forall_mem_cons, List.not_mem_nil, false_implies,
      implies_true, and_true] using ⟨h1, h2⟩), rfl⟩

theorem locateCharacter_ok {c : Byte} {l : BitVec 16} {a : Word} {k : Cursor} {u : State} :
    locateCharacter c l a k = .ok u ↔
      (∀ x ∈ stringAddrs a l.toNat, k.state.admits .read x = true) ∧
      u = k.state.complete
        [(0, BitVec.ofNat 32 (locateByte k.state c l.toNat a).1), (1, (locateByte k.state c l.toNat a).2)]
        (zeroCC (BitVec.ofNat 32 (locateByte k.state c l.toNat a).1)) k.addr := by
  simp only [locateCharacter]
  rw [except_bind_ok]
  constructor
  · rintro ⟨⟨⟩, h1, h⟩
    have h1 := admitStrings_ok.mp h1
    simp only [List.forall_mem_cons] at h1
    exact ⟨h1.1, by simpa [eq_comm] using h⟩
  · rintro ⟨h1, rfl⟩
    exact ⟨(), admitStrings_ok.mpr (by simpa only [List.forall_mem_cons, List.not_mem_nil, false_implies,
      implies_true, and_true] using h1), rfl⟩

/-- The final state of MATCHC for a match at an offset, or none (R139). -/
def matchResult (ol : Nat) (oa : Word) (sl : Nat) (sa : Word) (k : Cursor) : Option Nat → State
  | some p => k.state.complete
      [(0, 0), (1, offset oa ol), (2, BitVec.ofNat 32 (sl - (p + ol))), (3, offset sa (p + ol))]
      (zeroCC 0) k.addr
  | none => k.state.complete
      [(0, BitVec.ofNat 32 ol), (1, oa), (2, 0), (3, offset sa sl)] (zeroCC (BitVec.ofNat 32 ol)) k.addr

theorem matchCharacters_ok {ol sl : BitVec 16} {oa sa : Word} {k : Cursor} {u : State} :
    matchCharacters ol oa sl sa k = .ok u ↔
      (ol.toNat ≠ 0 → sl.toNat ≠ 0 →
        (∀ x ∈ stringAddrs oa ol.toNat, k.state.admits .read x = true) ∧
          ∀ x ∈ stringAddrs sa sl.toNat, k.state.admits .read x = true) ∧
      u = matchResult ol.toNat oa sl.toNat sa k (findMatch k.state ol.toNat oa sl.toNat sa) := by
  have hmeaning : matchCharacters ol oa sl sa k =
      (if ol.toNat ≠ 0 ∧ sl.toNat ≠ 0 then
          admitStrings k.state 0 0 [(.read, oa, ol.toNat), (.read, sa, sl.toNat)] else .ok ()) >>= fun _ =>
        .ok (matchResult ol.toNat oa sl.toNat sa k (findMatch k.state ol.toNat oa sl.toNat sa)) := by
    unfold matchCharacters
    by_cases hc : ol.toNat ≠ 0 ∧ sl.toNat ≠ 0
    · simp only [if_pos hc]; cases findMatch k.state ol.toNat oa sl.toNat sa <;> rfl
    · simp only [if_neg hc]; cases findMatch k.state ol.toNat oa sl.toNat sa <;> rfl
  rw [hmeaning, except_bind_ok]
  by_cases hc : ol.toNat ≠ 0 ∧ sl.toNat ≠ 0
  · rw [if_pos hc]
    constructor
    · rintro ⟨⟨⟩, h1, h⟩
      have h1 := admitStrings_ok.mp h1
      simp only [List.forall_mem_cons] at h1
      exact ⟨fun _ _ => ⟨h1.1, h1.2.1⟩, by simpa [eq_comm] using h⟩
    · rintro ⟨h, rfl⟩
      exact ⟨(), admitStrings_ok.mpr (by simpa only [List.forall_mem_cons, List.not_mem_nil, false_implies,
        implies_true, and_true] using (h hc.1 hc.2)), rfl⟩
  · rw [if_neg hc]
    exact ⟨fun ⟨_, _, h⟩ => ⟨fun h1 h2 => absurd ⟨h1, h2⟩ hc, by simpa [eq_comm] using h⟩,
      fun h => ⟨(), rfl, by rw [h.2]⟩⟩

theorem moveCharacter3_ok {l : BitVec 16} {a d : Word} {k : Cursor} {u : State} :
    moveCharacter3 l a d k = .ok u ↔
      ((∀ x ∈ stringAddrs a l.toNat, k.state.admits .read x = true) ∧
        ∀ x ∈ stringAddrs d l.toNat, k.state.admits .write x = true) ∧
      u = (k.state.storeBytes d (k.state.mem.readString a l.toNat)).complete
        [(0, 0), (1, offset a l.toNat), (2, 0), (3, offset d l.toNat), (4, 0), (5, 0)] equalCC k.addr := by
  simp only [moveCharacter3]
  rw [except_bind_ok]
  constructor
  · rintro ⟨⟨⟩, h1, h⟩
    have h1 := admitStrings_ok.mp h1
    simp only [List.forall_mem_cons] at h1
    exact ⟨⟨h1.1, h1.2.1⟩, by simpa [eq_comm] using h⟩
  · rintro ⟨⟨h1, h2⟩, rfl⟩
    exact ⟨(), admitStrings_ok.mpr (by simpa only [List.forall_mem_cons, List.not_mem_nil, false_implies,
      implies_true, and_true] using ⟨h1, h2⟩), rfl⟩

theorem moveCharacter5_ok {sl dl : BitVec 16} {a d : Word} {f : Byte} {k : Cursor} {u : State} :
    moveCharacter5 sl a f dl d k = .ok u ↔
      ((∀ x ∈ stringAddrs a (readLength sl.toNat dl.toNat), k.state.admits .read x = true) ∧
        ∀ x ∈ stringAddrs d dl.toNat, k.state.admits .write x = true) ∧
      u = (k.state.storeBytes d (k.state.mem.readString a (min sl.toNat dl.toNat)
          ++ List.replicate (dl.toNat - min sl.toNat dl.toNat) f)).complete
        [(0, BitVec.ofNat 32 (sl.toNat - min sl.toNat dl.toNat)), (1, offset a (min sl.toNat dl.toNat)), (2, 0),
          (3, offset d dl.toNat), (4, 0), (5, 0)] (lengthCC sl dl) k.addr := by
  simp only [moveCharacter5]
  rw [except_bind_ok]
  constructor
  · rintro ⟨⟨⟩, h1, h⟩
    have h1 := admitStrings_ok.mp h1
    simp only [List.forall_mem_cons] at h1
    exact ⟨⟨h1.1, h1.2.1⟩, by simpa [eq_comm] using h⟩
  · rintro ⟨⟨h1, h2⟩, rfl⟩
    exact ⟨(), admitStrings_ok.mpr (by simpa only [List.forall_mem_cons, List.not_mem_nil, false_implies,
      implies_true, and_true] using ⟨h1, h2⟩), rfl⟩

/-- What storing the destination string of MOVTC answers (R142). -/
theorem storeTranslated_ok {s u : State} {ta d : Word} {dl : Nat} {bs : List Byte} :
    storeTranslated s ta d dl bs = .ok u ↔
      (overlapsTable ta d dl = false ∧ u = s.storeBytes d bs) ∨
      (overlapsTable ta d dl = true ∧ s.platform.movtcOverlap = .draw ∧
        u = s.drawBytes (stringAddrs d dl)) := by
  unfold storeTranslated
  split
  · next h => cases hp : s.platform.movtcOverlap <;> simp [h, eq_comm]
  · next h => simp [h, eq_comm]

/-- The bytes MOVTC stores when its destination is clear of the table (R142). -/
def translatedBytes (s : State) (sl dl : Nat) (a ta : Word) (f : Byte) : List Byte :=
  translateBytes s ta (s.mem.readString a (min sl dl)) ++ List.replicate (dl - min sl dl) f

theorem moveTranslated_ok {sl dl : BitVec 16} {a ta d : Word} {f : Byte} {k : Cursor} {u : State} :
    moveTranslated sl a f ta dl d k = .ok u ↔
      ((∀ x ∈ stringAddrs a (readLength sl.toNat dl.toNat), k.state.admits .read x = true) ∧
        (∀ x ∈ stringAddrs d dl.toNat, k.state.admits .write x = true) ∧
        ∀ x ∈ stringAddrs ta (if min sl.toNat dl.toNat = 0 then 0 else 256), k.state.admits .read x = true) ∧
      ∃ v, storeTranslated k.state ta d dl.toNat (translatedBytes k.state sl.toNat dl.toNat a ta f) = .ok v ∧
        u = v.complete
          [(0, BitVec.ofNat 32 (sl.toNat - min sl.toNat dl.toNat)), (1, offset a (min sl.toNat dl.toNat)), (2, 0),
            (3, ta), (4, 0), (5, offset d dl.toNat)] (lengthCC sl dl) k.addr := by
  simp only [moveTranslated]
  rw [except_bind_ok]
  constructor
  · rintro ⟨⟨⟩, h1, h⟩
    have h1 := admitStrings_ok.mp h1
    simp only [List.forall_mem_cons] at h1
    obtain ⟨v, h2, h⟩ := except_bind_ok.mp h
    exact ⟨⟨h1.1, h1.2.1, h1.2.2.1⟩, v, h2, by simpa [eq_comm] using h⟩
  · rintro ⟨⟨h1, h2, h3⟩, v, hv, rfl⟩
    exact ⟨(), admitStrings_ok.mpr (by simpa only [List.forall_mem_cons, List.not_mem_nil, false_implies,
      implies_true, and_true] using ⟨h1, h2, h3⟩), except_bind_ok.mpr ⟨v, hv, rfl⟩⟩

end StringOperations

section Draws

theorem drawBytes_mem_wf : ∀ (as : List Word) {s : State}, s.mem.wf = true → (s.drawBytes as).mem.wf = true
  | [], _, h => h
  | _ :: as, _, h => drawBytes_mem_wf as (Memory.writeBytes_wf _ _ h)

theorem drawBytes_written_wf : ∀ (as : List Word) {s : State}, Written.wf s.written = true →
    Written.wf (s.drawBytes as).written = true
  | [], _, h => h
  | _ :: as, _, h => drawBytes_written_wf as (Written.markRange_wf _ _ h)

/-- Drawing bytes leaves every other address alone. -/
theorem drawBytes_readByte : ∀ (as : List Word) (s : State) {x : Word}, x ∉ as →
    (s.drawBytes as).readByte x = s.readByte x
  | [], _, _, _ => rfl
  | a :: as, s, x, h => by
    rw [List.mem_cons, not_or] at h
    rw [State.drawBytes, drawBytes_readByte as _ h.2]
    exact Memory.read_writeBytes_of_not_mem _ _ _ (by simp [stringAddrs, h.1])

/-- Drawing bytes marks their addresses and loses no mark. -/
theorem mem_drawBytes_written : ∀ (as : List Word) (s : State) (x : Nat),
    x ∈ (s.drawBytes as).written ↔ x ∈ s.written ∨ ∃ y ∈ as, y.toNat = x
  | [], s, x => by simp
  | a :: as, s, x => by
    rw [State.drawBytes, mem_drawBytes_written as]
    show x ∈ Written.markRange s.written a 1 ∨ _ ↔ _
    rw [Written.mem_markRange]
    simp [stringAddrs, or_assoc]

theorem drawRegs_ok : ∀ (ns : List Reg) (s : State),
    (s.drawRegs ns).psl = s.psl ∧ (s.drawRegs ns).mem = s.mem ∧ (s.drawRegs ns).platform = s.platform ∧
      (s.drawRegs ns).written = s.written ∧ ∀ n, n ∉ ns → (s.drawRegs ns).getReg n = s.getReg n
  | [], _ => ⟨rfl, rfl, rfl, rfl, fun _ _ => rfl⟩
  | m :: ns, s => by
    obtain ⟨h1, h2, h3, h4, h5⟩ := drawRegs_ok ns
      { s.setReg m (Config.freeWord s.draws) with draws := s.draws + 1 }
    refine ⟨h1, h2, h3, h4, fun n hn => ?_⟩
    rw [List.mem_cons, not_or] at hn
    rw [State.drawRegs, h5 n hn.2]
    show (s.setReg m _).getReg n = _
    rw [State.getReg_setReg, if_neg (Ne.symm hn.1)]

/-- Register `i` of a list without repeats receives draw number `i` (20_memory.md R46). -/
theorem drawRegs_getReg (ns : List Reg) : ∀ (s : State), ns.Nodup → ∀ (i : Nat) (hi : i < ns.length),
    (s.drawRegs ns).getReg ns[i] = Config.freeWord (s.draws + i) := by
  induction ns with
  | nil => exact fun _ _ _ hi => absurd hi (Nat.not_lt_zero _)
  | cons m ns ih =>
    intro s hd i hi
    rw [List.nodup_cons] at hd
    rw [State.drawRegs]
    cases i with
    | zero =>
      rw [List.getElem_cons_zero, (drawRegs_ok ns _).2.2.2.2 m hd.1]
      exact (State.getReg_setReg s m m _).trans (if_pos rfl)
    | succ i =>
      rw [List.getElem_cons_succ, ih _ hd.2 i (Nat.lt_of_succ_lt_succ hi)]
      exact congrArg Config.freeWord (by simp only; omega)

end Draws

end Sys2Proof.Machine
end

