-- ==== Sys2Proof/Laws/Exec.lean ====
section
/-! SUPPORT. What an instruction does when it answers a next state: its operands are evaluated, then it finishes in
one of three ways. One lemma for each operand list and one for `exec`; frames and invariants of all instructions
follow from `exec_next`. -/

namespace Sys2Proof.Machine

open Sys2Proof.Safety

/-- The operands of an instruction have been evaluated: `k` is `s` but for the registers that the specifiers step,
and the cursor stands after the instruction's last byte. -/
def Evaluated (i : Instr) (s : State) (k : Cursor) : Prop :=
  OnlyRegs i.steppedRegs s k.state ∧ k.addr = s.pc + BitVec.ofNat 32 i.length

/-- Condition codes as every completed instruction leaves them (10_state.md R26). -/
def CC.Ordered (cc : CC) : Prop :=
  cc.v = false ∧ (cc.n && cc.z) = false ∧ (cc.c && cc.z) = false

section ConditionCodes

theorem floatingCC_ordered (t : FType) (x : Nat) : (floatingCC t x).Ordered := by
  simp only [CC.Ordered, floatingCC, FType.isNegative, FType.isZero, Bool.false_and, and_true, true_and]
  cases h : t.exponent x == 0 <;> simp_all

theorem equalCC_ordered : equalCC.Ordered := ⟨rfl, rfl, rfl⟩

theorem zeroCC_ordered (x : Word) : (zeroCC x).Ordered := ⟨rfl, rfl, rfl⟩

theorem byteCC_ordered (a b : Byte) : (byteCC a b).Ordered := by
  by_cases h : a = b
  · subst h; simp [CC.Ordered, byteCC, BitVec.slt, BitVec.ult]
  · simp [CC.Ordered, byteCC, h]

theorem lengthCC_ordered (a b : BitVec 16) : (lengthCC a b).Ordered := by
  by_cases h : a = b
  · subst h; simp [CC.Ordered, lengthCC, BitVec.slt, BitVec.ult]
  · simp [CC.Ordered, lengthCC, h]

theorem compareEqualLength_ordered (s : State) : ∀ (l : Nat) (a1 a2 : Word) {cc : CC}, cc.Ordered →
    (compareEqualLength s l a1 a2 cc).cc.Ordered
  | 0, _, _, _, h => h
  | l + 1, a1, a2, _, _ => by
    unfold compareEqualLength
    dsimp only
    split
    · exact compareEqualLength_ordered s l _ _ (byteCC_ordered _ _)
    · exact byteCC_ordered _ _

theorem compareFilled_ordered (s : State) (f : Byte) : ∀ (n : Nat) {t : Comparison}, t.cc.Ordered →
    (compareFilled s f n t).cc.Ordered
  | 0, _, h => h
  | n + 1, t, _ => by
    unfold compareFilled
    extract_lets b1 b2
    by_cases hb : b1 = b2
    · rw [if_pos hb]; exact compareFilled_ordered s f n (byteCC_ordered b1 b2)
    · rw [if_neg hb]; exact byteCC_ordered b1 b2

end ConditionCodes

/-- How a completed instruction ends, from the cursor after its operands: a difference is stored, or a source is
tested, or a string instruction writes its control block after storing its destination. -/
inductive Finished (i : Instr) (k : Cursor) (u : State) : Prop where
  | difference (t : FType) (l : Location) (r : Nat) (group : isSub i = true)
      (regs : ∀ n ∈ l.regs (.floating t), n ∈ i.writtenRegs ∧ n ≠ 15)
      (admitted : ∀ x ∈ l.addrs (.floating t), k.state.admits .write x = true)
      (state : u = storeDifference t l r k)
  | test (t : FType) (x : Nat) (group : isTst i = true)
      (state : u = (k.state.setCC (floatingCC t x)).setPc k.addr)
  | string (v : State) (ws : List (Reg × Word)) (cc : CC) (group : isSub i = false ∧ isTst i = false)
      (implied : ws.map Prod.fst = i.opcode.implied) (ordered : cc.Ordered)
      (stored : v = k.state ∨ isMove i = true ∧
        ((∃ d bs, v = k.state.storeBytes d bs ∧
            ∀ x ∈ stringAddrs d bs.length, k.state.admits .write x = true) ∨
          ∃ as, v = k.state.drawBytes as ∧ ∀ x ∈ as, k.state.admits .write x = true))
      (state : u = v.complete ws cc k.addr)

section Operands

theorem evaluated_start (s : State) (op : Opcode) :
    OnlyRegs [] s (Cursor.start s op).state ∧
      (Cursor.start s op).addr = s.pc + BitVec.ofNat 32 op.bytes.length :=
  ⟨onlyRegs_refl _ _, rfl⟩

theorem operands3_ok {op : Opcode} {o1 o2 o3 : Specifier} {s : State} {l : BitVec 16} {a1 a2 : Word} {k : Cursor}
    (h : operands3 op o1 o2 o3 s = .ok (l, a1, a2, k)) :
    OnlyRegs (o1.stepped ++ o2.stepped ++ o3.stepped) s k.state ∧
      k.addr = s.pc + BitVec.ofNat 32 op.bytes.length + BitVec.ofNat 32 (o1.length 2) +
        BitVec.ofNat 32 (o2.length 1) + BitVec.ofNat 32 (o3.length 1) ∧
      o1.legal .read .word = true ∧ o2.legal .address .byte = true ∧ o3.legal .address .byte = true := by
  obtain ⟨⟨_, k1⟩, h1, h⟩ := except_bind_ok.mp h
  obtain ⟨⟨_, k2⟩, h2, h⟩ := except_bind_ok.mp h
  obtain ⟨⟨_, k3⟩, h3, h⟩ := except_bind_ok.mp h
  simp only [Except.ok.injEq, Prod.mk.injEq] at h
  obtain ⟨rfl, rfl, rfl, rfl⟩ := h
  obtain ⟨l1, f1, e1⟩ := readWordOperand_ok h1
  obtain ⟨l2, f2, e2⟩ := addressOperand_ok h2
  obtain ⟨l3, f3, e3⟩ := addressOperand_ok h3
  exact ⟨(f1.trans f2).trans f3, by rw [e3, e2, e1]; rfl, l1, l2, l3⟩

theorem operands5_ok {op : Opcode} {o1 o2 o3 o4 o5 : Specifier} {s : State} {l1 l2 : BitVec 16} {a1 a2 : Word}
    {f : Byte} {k : Cursor} (h : operands5 op o1 o2 o3 o4 o5 s = .ok (l1, a1, f, l2, a2, k)) :
    OnlyRegs (o1.stepped ++ o2.stepped ++ o3.stepped ++ o4.stepped ++ o5.stepped) s k.state ∧
      k.addr = s.pc + BitVec.ofNat 32 op.bytes.length + BitVec.ofNat 32 (o1.length 2) +
        BitVec.ofNat 32 (o2.length 1) + BitVec.ofNat 32 (o3.length 1) + BitVec.ofNat 32 (o4.length 2) +
        BitVec.ofNat 32 (o5.length 1) ∧
      o1.legal .read .word = true ∧ o2.legal .address .byte = true ∧ o3.legal .read .byte = true ∧
      o4.legal .read .word = true ∧ o5.legal .address .byte = true := by
  obtain ⟨⟨_, k1⟩, h1, h⟩ := except_bind_ok.mp h
  obtain ⟨⟨_, k2⟩, h2, h⟩ := except_bind_ok.mp h
  obtain ⟨⟨_, k3⟩, h3, h⟩ := except_bind_ok.mp h
  obtain ⟨⟨_, k4⟩, h4, h⟩ := except_bind_ok.mp h
  obtain ⟨⟨_, k5⟩, h5, h⟩ := except_bind_ok.mp h
  simp only [Except.ok.injEq, Prod.mk.injEq] at h
  obtain ⟨rfl, rfl, rfl, rfl, rfl, rfl⟩ := h
  obtain ⟨l1, f1, e1⟩ := readWordOperand_ok h1
  obtain ⟨l2, f2, e2⟩ := addressOperand_ok h2
  obtain ⟨l3, f3, e3⟩ := readByteOperand_ok h3
  obtain ⟨l4, f4, e4⟩ := readWordOperand_ok h4
  obtain ⟨l5, f5, e5⟩ := addressOperand_ok h5
  exact ⟨(((f1.trans f2).trans f3).trans f4).trans f5, by rw [e5, e4, e3, e2, e1]; rfl, l1, l2, l3, l4, l5⟩

theorem loccOperands_ok {o1 o2 o3 : Specifier} {s : State} {c : Byte} {l : BitVec 16} {a : Word} {k : Cursor}
    (h : loccOperands o1 o2 o3 s = .ok (c, l, a, k)) :
    OnlyRegs (o1.stepped ++ o2.stepped ++ o3.stepped) s k.state ∧
      k.addr = s.pc + BitVec.ofNat 32 1 + BitVec.ofNat 32 (o1.length 1) +
        BitVec.ofNat 32 (o2.length 2) + BitVec.ofNat 32 (o3.length 1) ∧
      o1.legal .read .byte = true ∧ o2.legal .read .word = true ∧ o3.legal .address .byte = true := by
  obtain ⟨⟨_, k1⟩, h1, h⟩ := except_bind_ok.mp h
  obtain ⟨⟨_, k2⟩, h2, h⟩ := except_bind_ok.mp h
  obtain ⟨⟨_, k3⟩, h3, h⟩ := except_bind_ok.mp h
  simp only [Except.ok.injEq, Prod.mk.injEq] at h
  obtain ⟨rfl, rfl, rfl, rfl⟩ := h
  obtain ⟨l1, f1, e1⟩ := readByteOperand_ok h1
  obtain ⟨l2, f2, e2⟩ := readWordOperand_ok h2
  obtain ⟨l3, f3, e3⟩ := addressOperand_ok h3
  exact ⟨(f1.trans f2).trans f3, by rw [e3, e2, e1]; rfl, l1, l2, l3⟩

theorem matchcOperands_ok {o1 o2 o3 o4 : Specifier} {s : State} {ol sl : BitVec 16} {oa sa : Word} {k : Cursor}
    (h : matchcOperands o1 o2 o3 o4 s = .ok (ol, oa, sl, sa, k)) :
    OnlyRegs (o1.stepped ++ o2.stepped ++ o3.stepped ++ o4.stepped) s k.state ∧
      k.addr = s.pc + BitVec.ofNat 32 1 + BitVec.ofNat 32 (o1.length 2) +
        BitVec.ofNat 32 (o2.length 1) + BitVec.ofNat 32 (o3.length 2) + BitVec.ofNat 32 (o4.length 1) ∧
      o1.legal .read .word = true ∧ o2.legal .address .byte = true ∧ o3.legal .read .word = true ∧
      o4.legal .address .byte = true := by
  obtain ⟨⟨_, k1⟩, h1, h⟩ := except_bind_ok.mp h
  obtain ⟨⟨_, k2⟩, h2, h⟩ := except_bind_ok.mp h
  obtain ⟨⟨_, k3⟩, h3, h⟩ := except_bind_ok.mp h
  obtain ⟨⟨_, k4⟩, h4, h⟩ := except_bind_ok.mp h
  simp only [Except.ok.injEq, Prod.mk.injEq] at h
  obtain ⟨rfl, rfl, rfl, rfl, rfl⟩ := h
  obtain ⟨l1, f1, e1⟩ := readWordOperand_ok h1
  obtain ⟨l2, f2, e2⟩ := addressOperand_ok h2
  obtain ⟨l3, f3, e3⟩ := readWordOperand_ok h3
  obtain ⟨l4, f4, e4⟩ := addressOperand_ok h4
  exact ⟨((f1.trans f2).trans f3).trans f4, by rw [e4, e3, e2, e1]; rfl, l1, l2, l3, l4⟩

theorem movtcOperands_ok {o1 o2 o3 o4 o5 o6 : Specifier} {s : State} {sl dl : BitVec 16} {a ta d : Word} {f : Byte}
    {k : Cursor} (h : movtcOperands o1 o2 o3 o4 o5 o6 s = .ok (sl, a, f, ta, dl, d, k)) :
    OnlyRegs (o1.stepped ++ o2.stepped ++ o3.stepped ++ o4.stepped ++ o5.stepped ++ o6.stepped) s k.state ∧
      k.addr = s.pc + BitVec.ofNat 32 1 + BitVec.ofNat 32 (o1.length 2) +
        BitVec.ofNat 32 (o2.length 1) + BitVec.ofNat 32 (o3.length 1) + BitVec.ofNat 32 (o4.length 1) +
        BitVec.ofNat 32 (o5.length 2) + BitVec.ofNat 32 (o6.length 1) ∧
      o1.legal .read .word = true ∧ o2.legal .address .byte = true ∧ o3.legal .read .byte = true ∧
      o4.legal .address .byte = true ∧ o5.legal .read .word = true ∧ o6.legal .address .byte = true := by
  obtain ⟨⟨_, k1⟩, h1, h⟩ := except_bind_ok.mp h
  obtain ⟨⟨_, k2⟩, h2, h⟩ := except_bind_ok.mp h
  obtain ⟨⟨_, k3⟩, h3, h⟩ := except_bind_ok.mp h
  obtain ⟨⟨_, k4⟩, h4, h⟩ := except_bind_ok.mp h
  obtain ⟨⟨_, k5⟩, h5, h⟩ := except_bind_ok.mp h
  obtain ⟨⟨_, k6⟩, h6, h⟩ := except_bind_ok.mp h
  simp only [Except.ok.injEq, Prod.mk.injEq] at h
  obtain ⟨rfl, rfl, rfl, rfl, rfl, rfl, rfl⟩ := h
  obtain ⟨l1, f1, e1⟩ := readWordOperand_ok h1
  obtain ⟨l2, f2, e2⟩ := addressOperand_ok h2
  obtain ⟨l3, f3, e3⟩ := readByteOperand_ok h3
  obtain ⟨l4, f4, e4⟩ := addressOperand_ok h4
  obtain ⟨l5, f5, e5⟩ := readWordOperand_ok h5
  obtain ⟨l6, f6, e6⟩ := addressOperand_ok h6
  exact ⟨((((f1.trans f2).trans f3).trans f4).trans f5).trans f6, by rw [e6, e5, e4, e3, e2, e1]; rfl,
    l1, l2, l3, l4, l5, l6⟩

/-- The location of a written operand holds only registers that its specifier names, none of them the PC. -/
theorem location_regs_ok {acc : Access} {ty : DataType} {sp : Specifier} {k k' : Cursor} {l : Location}
    (h : locate acc ty sp k = .ok (l, k')) (hacc : acc = .modify ∨ acc = .write) :
    ∀ n ∈ l.regs ty, n ∈ Sys2Proof.writtenRegs ((acc, ty), sp) ∧ n ≠ 15 := by
  obtain ⟨_, _, _, hr⟩ := locate_ok h
  cases l with
  | memory a => simp [Location.regs]
  | register r =>
    obtain ⟨rfl, hb⟩ := hr r rfl
    intro n hn
    have hn' : n ∈ ty.regsFrom r := hn
    refine ⟨by rcases hacc with rfl | rfl <;> exact hn', ?_⟩
    obtain ⟨i, hi, rfl⟩ := mem_regsFrom.mp hn'
    intro he
    have := congrArg Fin.val he
    simp [Fin.ofNat] at this
    omega

theorem sub2Operands_ok {t : FType} {op : Opcode} {o1 o2 : Specifier} {s : State} {b a : Nat} {l : Location}
    {k : Cursor} (h : sub2Operands t op o1 o2 s = .ok (b, l, a, k)) :
    OnlyRegs (o1.stepped ++ o2.stepped) s k.state ∧
      k.addr = s.pc + BitVec.ofNat 32 op.bytes.length + BitVec.ofNat 32 (o1.length t.size) +
        BitVec.ofNat 32 (o2.length t.size) ∧
      (∀ n ∈ l.regs (.floating t), n ∈ Sys2Proof.writtenRegs ((.modify, .floating t), o2) ∧ n ≠ 15) ∧
      o1.legal .read (.floating t) = true ∧ o2.legal .modify (.floating t) = true ∧
      t.isReserved b = false ∧ t.isReserved a = false ∧ a = l.value (.floating t) k.state := by
  obtain ⟨⟨_, k1⟩, h1, h⟩ := except_bind_ok.mp h
  obtain ⟨⟨_, _, k2⟩, h2, h⟩ := except_bind_ok.mp h
  simp only [Except.ok.injEq, Prod.mk.injEq] at h
  obtain ⟨rfl, rfl, rfl, rfl⟩ := h
  obtain ⟨h1, n1⟩ := readFloating_ok h1
  obtain ⟨l1, f1, e1⟩ := readOperand_ok h1
  obtain ⟨h2, r2, n2⟩ := modifyFloating_ok h2
  obtain ⟨l2, f2, e2, _⟩ := locate_ok h2
  exact ⟨f1.trans f2, by rw [e2, e1]; rfl, location_regs_ok h2 (.inl rfl), l1, l2, n1, n2,
    location_read_ok r2⟩

theorem sub3Operands_ok {t : FType} {op : Opcode} {o1 o2 o3 : Specifier} {s : State} {b a : Nat} {l : Location}
    {k : Cursor} (h : sub3Operands t op o1 o2 o3 s = .ok (b, a, l, k)) :
    OnlyRegs (o1.stepped ++ o2.stepped ++ o3.stepped) s k.state ∧
      k.addr = s.pc + BitVec.ofNat 32 op.bytes.length + BitVec.ofNat 32 (o1.length t.size) +
        BitVec.ofNat 32 (o2.length t.size) + BitVec.ofNat 32 (o3.length t.size) ∧
      (∀ n ∈ l.regs (.floating t), n ∈ Sys2Proof.writtenRegs ((.write, .floating t), o3) ∧ n ≠ 15) ∧
      o1.legal .read (.floating t) = true ∧ o2.legal .read (.floating t) = true ∧
      o3.legal .write (.floating t) = true ∧ t.isReserved b = false ∧ t.isReserved a = false := by
  obtain ⟨⟨_, k1⟩, h1, h⟩ := except_bind_ok.mp h
  obtain ⟨⟨_, k2⟩, h2, h⟩ := except_bind_ok.mp h
  obtain ⟨⟨_, k3⟩, h3, h⟩ := except_bind_ok.mp h
  simp only [Except.ok.injEq, Prod.mk.injEq] at h
  obtain ⟨rfl, rfl, rfl, rfl⟩ := h
  obtain ⟨h1, n1⟩ := readFloating_ok h1
  obtain ⟨l1, f1, e1⟩ := readOperand_ok h1
  obtain ⟨h2, n2⟩ := readFloating_ok h2
  obtain ⟨l2, f2, e2⟩ := readOperand_ok h2
  obtain ⟨l3, f3, e3, _⟩ := locate_ok h3
  exact ⟨(f1.trans f2).trans f3, by rw [e3, e2, e1]; rfl, location_regs_ok h3 (.inr rfl), l1, l2, l3, n1, n2⟩

end Operands

section Completion

/-- Address arithmetic and register lists of an evaluated instruction, from those of its operands. -/
theorem Evaluated.of {i : Instr} {s : State} {k : Cursor} {rs : List Reg} {a : Word}
    (h : OnlyRegs rs s k.state) (ha : k.addr = a) (hr : rs = i.steppedRegs)
    (hl : a = s.pc + BitVec.ofNat 32 i.length) : Evaluated i s k :=
  ⟨hr ▸ h, ha.trans hl⟩

theorem sub2_next {t : FType} {op : Opcode} {o1 o2 : Specifier} {s u : State} {i : Instr}
    (hi : isSub i = true) (hop : i.operands = [((.read, .floating t), o1), ((.modify, .floating t), o2)])
    (hb : i.opcode = op) (h : sub2 t op o1 o2 s = .next u) :
    ∃ k, Evaluated i s k ∧ Finished i k u ∧ i.formsLegal = true := by
  obtain ⟨⟨b, l, a, k⟩, h1, h⟩ := except_bind_ok.mp (conclude_eq_next.mp h)
  obtain ⟨f, e, w, l1, l2, _⟩ := sub2Operands_ok h1
  obtain ⟨hs, r, _, rfl⟩ := subtract_ok.mp h
  refine ⟨k, .of f e (by simp [Instr.steppedRegs, hop]) ?_, .difference t l r hi ?_ hs rfl, ?_⟩
  · simp [Instr.length, hop, hb, BitVec.ofNat_add, BitVec.add_assoc, DataType.size]
  · simpa [Instr.writtenRegs, hop, Sys2Proof.writtenRegs] using w
  · simp [Instr.formsLegal, hop, l1, l2]

theorem sub3_next {t : FType} {op : Opcode} {o1 o2 o3 : Specifier} {s u : State} {i : Instr}
    (hi : isSub i = true) (hop : i.operands =
      [((.read, .floating t), o1), ((.read, .floating t), o2), ((.write, .floating t), o3)])
    (hb : i.opcode = op) (h : sub3 t op o1 o2 o3 s = .next u) :
    ∃ k, Evaluated i s k ∧ Finished i k u ∧ i.formsLegal = true := by
  obtain ⟨⟨b, a, l, k⟩, h1, h⟩ := except_bind_ok.mp (conclude_eq_next.mp h)
  obtain ⟨f, e, w, l1, l2, l3, _⟩ := sub3Operands_ok h1
  obtain ⟨hs, r, _, rfl⟩ := subtract_ok.mp h
  refine ⟨k, .of f e (by simp [Instr.steppedRegs, hop]) ?_, .difference t l r hi ?_ hs rfl, ?_⟩
  · simp [Instr.length, hop, hb, BitVec.ofNat_add, BitVec.add_assoc, DataType.size]
  · simpa [Instr.writtenRegs, hop, Sys2Proof.writtenRegs] using w
  · simp [Instr.formsLegal, hop, l1, l2, l3]

theorem tst_next {t : FType} {op : Opcode} {o1 : Specifier} {s u : State} {i : Instr}
    (hi : isTst i = true) (hop : i.operands = [((.read, .floating t), o1)]) (hb : i.opcode = op)
    (h : tst t op o1 s = .next u) : ∃ k, Evaluated i s k ∧ Finished i k u ∧ i.formsLegal = true := by
  obtain ⟨⟨x, k⟩, h1, h⟩ := except_bind_ok.mp (conclude_eq_next.mp h)
  obtain ⟨h1, _⟩ := readFloating_ok h1
  obtain ⟨l1, f, e⟩ := readOperand_ok h1
  simp only [Except.ok.injEq] at h
  refine ⟨k, .of f e (by simp [Instr.steppedRegs, hop]) ?_, .test t x hi h.symm, ?_⟩
  · simp [Instr.length, hop, hb, BitVec.ofNat_add, BitVec.add_assoc, DataType.size, Cursor.start]
  · simp [Instr.formsLegal, hop, l1]

theorem cmpc3_next {o1 o2 o3 : Specifier} {s u : State} (h : execCmpc3 o1 o2 o3 s = .next u) :
    ∃ k, Evaluated (.cmpc3 o1 o2 o3) s k ∧ Finished (.cmpc3 o1 o2 o3) k u ∧
      (Instr.cmpc3 o1 o2 o3).formsLegal = true := by
  obtain ⟨⟨l, a1, a2, k⟩, h1, h⟩ := except_bind_ok.mp (concludeString_eq_next.mp h)
  obtain ⟨f, e, l1, l2, l3⟩ := operands3_ok h1
  obtain ⟨_, rfl⟩ := compare3_ok.mp h
  refine ⟨k, .of f e (by simp [Instr.steppedRegs, Instr.operands, Instr.specifiers, Instr.opcode,
    Opcode.signature]) ?_, .string k.state _ _ ⟨rfl, rfl⟩ rfl
      (compareEqualLength_ordered _ _ _ _ equalCC_ordered) (.inl rfl) rfl, ?_⟩
  · simp [Instr.length, Instr.operands, Instr.specifiers, Instr.opcode, Opcode.signature, BitVec.ofNat_add,
      BitVec.add_assoc, DataType.size]
  · simp [Instr.formsLegal, Instr.operands, Instr.specifiers, Instr.opcode, Opcode.signature, l1, l2, l3]

theorem cmpc5_next {o1 o2 o3 o4 o5 : Specifier} {s u : State} (h : execCmpc5 o1 o2 o3 o4 o5 s = .next u) :
    ∃ k, Evaluated (.cmpc5 o1 o2 o3 o4 o5) s k ∧ Finished (.cmpc5 o1 o2 o3 o4 o5) k u ∧
      (Instr.cmpc5 o1 o2 o3 o4 o5).formsLegal = true := by
  obtain ⟨⟨_, _, _, _, _, k⟩, h1, h⟩ := except_bind_ok.mp (concludeString_eq_next.mp h)
  obtain ⟨f, e, l1, l2, l3, l4, l5⟩ := operands5_ok h1
  obtain ⟨_, rfl⟩ := compare5_ok.mp h
  refine ⟨k, .of f e (by simp [Instr.steppedRegs, Instr.operands, Instr.specifiers, Instr.opcode,
    Opcode.signature]) ?_, .string k.state _ _ ⟨rfl, rfl⟩ rfl
      (compareFilled_ordered _ _ _ equalCC_ordered) (.inl rfl) rfl, ?_⟩
  · simp [Instr.length, Instr.operands, Instr.specifiers, Instr.opcode, Opcode.signature, BitVec.ofNat_add,
      BitVec.add_assoc, DataType.size]
  · simp [Instr.formsLegal, Instr.operands, Instr.specifiers, Instr.opcode, Opcode.signature, l1, l2, l3, l4, l5]

theorem locc_next {o1 o2 o3 : Specifier} {s u : State} (h : execLocc o1 o2 o3 s = .next u) :
    ∃ k, Evaluated (.locc o1 o2 o3) s k ∧ Finished (.locc o1 o2 o3) k u ∧
      (Instr.locc o1 o2 o3).formsLegal = true := by
  obtain ⟨⟨_, _, _, k⟩, h1, h⟩ := except_bind_ok.mp (concludeString_eq_next.mp h)
  obtain ⟨f, e, l1, l2, l3⟩ := loccOperands_ok h1
  obtain ⟨_, rfl⟩ := locateCharacter_ok.mp h
  refine ⟨k, .of f e (by simp [Instr.steppedRegs, Instr.operands, Instr.specifiers, Instr.opcode,
    Opcode.signature]) ?_, .string k.state _ _ ⟨rfl, rfl⟩ rfl (zeroCC_ordered _) (.inl rfl) rfl, ?_⟩
  · simp [Instr.length, Instr.operands, Instr.specifiers, Instr.opcode, Opcode.signature, BitVec.ofNat_add,
      BitVec.add_assoc, DataType.size, Opcode.bytes]
  · simp [Instr.formsLegal, Instr.operands, Instr.specifiers, Instr.opcode, Opcode.signature, l1, l2, l3]

theorem matchc_next {o1 o2 o3 o4 : Specifier} {s u : State} (h : execMatchc o1 o2 o3 o4 s = .next u) :
    ∃ k, Evaluated (.matchc o1 o2 o3 o4) s k ∧ Finished (.matchc o1 o2 o3 o4) k u ∧
      (Instr.matchc o1 o2 o3 o4).formsLegal = true := by
  obtain ⟨⟨_, _, _, _, k⟩, h1, h⟩ := except_bind_ok.mp (concludeString_eq_next.mp h)
  obtain ⟨f, e, l1, l2, l3, l4⟩ := matchcOperands_ok h1
  obtain ⟨_, rfl⟩ := matchCharacters_ok.mp h
  refine ⟨k, .of f e (by simp [Instr.steppedRegs, Instr.operands, Instr.specifiers, Instr.opcode,
    Opcode.signature]) ?_, ?_, ?_⟩
  · simp [Instr.length, Instr.operands, Instr.specifiers, Instr.opcode, Opcode.signature, BitVec.ofNat_add,
      BitVec.add_assoc, DataType.size, Opcode.bytes]
  · generalize findMatch _ _ _ _ _ = w
    cases w with
    | some p => exact .string k.state _ _ ⟨rfl, rfl⟩ rfl (zeroCC_ordered _) (.inl rfl) rfl
    | none => exact .string k.state _ _ ⟨rfl, rfl⟩ rfl (zeroCC_ordered _) (.inl rfl) rfl
  · simp [Instr.formsLegal, Instr.operands, Instr.specifiers, Instr.opcode, Opcode.signature, l1, l2, l3, l4]

theorem movc3_next {o1 o2 o3 : Specifier} {s u : State} (h : execMovc3 o1 o2 o3 s = .next u) :
    ∃ k, Evaluated (.movc3 o1 o2 o3) s k ∧ Finished (.movc3 o1 o2 o3) k u ∧
      (Instr.movc3 o1 o2 o3).formsLegal = true := by
  obtain ⟨⟨l, a1, a2, k⟩, h1, h⟩ := except_bind_ok.mp (concludeString_eq_next.mp h)
  obtain ⟨f, e, l1, l2, l3⟩ := operands3_ok h1
  obtain ⟨⟨_, hd⟩, rfl⟩ := moveCharacter3_ok.mp h
  refine ⟨k, .of f e (by simp [Instr.steppedRegs, Instr.operands, Instr.specifiers, Instr.opcode,
    Opcode.signature]) ?_, .string _ _ _ ⟨rfl, rfl⟩ rfl equalCC_ordered
      (.inr ⟨rfl, .inl ⟨_, _, rfl, by simpa using hd⟩⟩) rfl, ?_⟩
  · simp [Instr.length, Instr.operands, Instr.specifiers, Instr.opcode, Opcode.signature, BitVec.ofNat_add,
      BitVec.add_assoc, DataType.size]
  · simp [Instr.formsLegal, Instr.operands, Instr.specifiers, Instr.opcode, Opcode.signature, l1, l2, l3]

/-- Moved bytes and fill together are as long as the destination (R141, R142). -/
theorem fill_length (m n : Nat) : min m n + (n - min m n) = n := by omega

theorem movc5_next {o1 o2 o3 o4 o5 : Specifier} {s u : State} (h : execMovc5 o1 o2 o3 o4 o5 s = .next u) :
    ∃ k, Evaluated (.movc5 o1 o2 o3 o4 o5) s k ∧ Finished (.movc5 o1 o2 o3 o4 o5) k u ∧
      (Instr.movc5 o1 o2 o3 o4 o5).formsLegal = true := by
  obtain ⟨⟨_, _, _, _, _, k⟩, h1, h⟩ := except_bind_ok.mp (concludeString_eq_next.mp h)
  obtain ⟨f, e, l1, l2, l3, l4, l5⟩ := operands5_ok h1
  obtain ⟨⟨_, hd⟩, rfl⟩ := moveCharacter5_ok.mp h
  refine ⟨k, .of f e (by simp [Instr.steppedRegs, Instr.operands, Instr.specifiers, Instr.opcode,
    Opcode.signature]) ?_, .string _ _ _ ⟨rfl, rfl⟩ rfl (lengthCC_ordered _ _)
      (.inr ⟨rfl, .inl ⟨_, _, rfl, fun x hx => hd x (by simpa [fill_length] using hx)⟩⟩) rfl, ?_⟩
  · simp [Instr.length, Instr.operands, Instr.specifiers, Instr.opcode, Opcode.signature, BitVec.ofNat_add,
      BitVec.add_assoc, DataType.size]
  · simp [Instr.formsLegal, Instr.operands, Instr.specifiers, Instr.opcode, Opcode.signature, l1, l2, l3, l4, l5]

theorem movtc_next {o1 o2 o3 o4 o5 o6 : Specifier} {s u : State} (h : execMovtc o1 o2 o3 o4 o5 o6 s = .next u) :
    ∃ k, Evaluated (.movtc o1 o2 o3 o4 o5 o6) s k ∧ Finished (.movtc o1 o2 o3 o4 o5 o6) k u ∧
      (Instr.movtc o1 o2 o3 o4 o5 o6).formsLegal = true := by
  obtain ⟨⟨_, _, _, _, _, _, k⟩, h1, h⟩ := except_bind_ok.mp (concludeString_eq_next.mp h)
  obtain ⟨f, e, l1, l2, l3, l4, l5, l6⟩ := movtcOperands_ok h1
  obtain ⟨⟨_, hd, _⟩, v, hv, rfl⟩ := moveTranslated_ok.mp h
  refine ⟨k, .of f e (by simp [Instr.steppedRegs, Instr.operands, Instr.specifiers, Instr.opcode,
    Opcode.signature]) ?_, .string v _ _ ⟨rfl, rfl⟩ rfl (lengthCC_ordered _ _) (.inr ⟨rfl, ?_⟩) rfl, ?_⟩
  · simp [Instr.length, Instr.operands, Instr.specifiers, Instr.opcode, Opcode.signature, BitVec.ofNat_add,
      BitVec.add_assoc, DataType.size, Opcode.bytes]
  · rcases storeTranslated_ok.mp hv with ⟨_, h⟩ | ⟨_, _, h⟩
    · exact .inl ⟨_, _, h, fun x hx => hd x (by simpa [translatedBytes, translateBytes, fill_length] using hx)⟩
    · exact .inr ⟨_, h, hd⟩
  · simp [Instr.formsLegal, Instr.operands, Instr.specifiers, Instr.opcode, Opcode.signature, l1, l2, l3, l4, l5, l6]

theorem undescribed_ne_next {m : String} {os : List ((Access × DataType) × Specifier)} {u : State} :
    undescribed m os ≠ .next u := by
  unfold undescribed; split <;> simp

/-- All that a next state says about the instruction: its forms are legal, its operands were evaluated, and it
finished in one of the three ways. -/
theorem exec_next {i : Instr} {s u : State} (h : exec i s = .next u) :
    ∃ k, Evaluated i s k ∧ Finished i k u ∧ i.formsLegal = true := by
  cases i with
  | movc3 _ _ _ => exact movc3_next h
  | cmpc3 _ _ _ => exact cmpc3_next h
  | scanc _ _ _ _ => exact absurd h undescribed_ne_next
  | spanc _ _ _ _ => exact absurd h undescribed_ne_next
  | movc5 _ _ _ _ _ => exact movc5_next h
  | cmpc5 _ _ _ _ _ => exact cmpc5_next h
  | movtc _ _ _ _ _ _ => exact movtc_next h
  | movtuc _ _ _ _ _ _ => exact absurd h undescribed_ne_next
  | matchc _ _ _ _ => exact matchc_next h
  | locc _ _ _ => exact locc_next h
  | skpc _ _ _ => exact absurd h undescribed_ne_next
  | subf2 _ _ => exact sub2_next rfl rfl rfl h
  | subd2 _ _ => exact sub2_next rfl rfl rfl h
  | subg2 _ _ => exact sub2_next rfl rfl rfl h
  | subh2 _ _ => exact sub2_next rfl rfl rfl h
  | subf3 _ _ _ => exact sub3_next rfl rfl rfl h
  | subd3 _ _ _ => exact sub3_next rfl rfl rfl h
  | subg3 _ _ _ => exact sub3_next rfl rfl rfl h
  | subh3 _ _ _ => exact sub3_next rfl rfl rfl h
  | tstf _ => exact tst_next rfl rfl rfl h
  | tstd _ => exact tst_next rfl rfl rfl h
  | tstg _ => exact tst_next rfl rfl rfl h
  | tsth _ => exact tst_next rfl rfl rfl h

end Completion

end Sys2Proof.Machine
end

