-- ==== Sys2Proof/Laws/Stops.lean ====
section
/-! SUPPORT. When operand evaluation and the meanings stop, and why: each evaluator stops only on an
illegal form, on a read that is not admitted, or (floating) on a reserved operand. One lemma each, and `exec_outcome`
for all instructions. -/

namespace Sys2Proof.Machine

open Sys2Proof.Safety

section Stops

/-- Why operand evaluation stops: an operand form without a meaning, when the forms are not all legal, or a read that
is not admitted (R68, R75; 60_exceptions.md R204). -/
def OperandStop (s : State) (legal : Bool) (e : Stop) : Prop :=
  (legal = false ∧ e = .refuse .operandForm) ∨ ∃ x, s.admits .read x = false ∧ e = .raise (.access x .read)

/-- A stop of one operand is a stop of the operand list, in the state before it. -/
theorem OperandStop.lift {s t : State} {rs : List Reg} {l l' : Bool} {e : Stop} (h : OperandStop t l e)
    (hk : OnlyRegs rs s t) (hl : l' = true → l = true) : OperandStop s l' e := by
  rcases h with ⟨h, rfl⟩ | ⟨x, hx, rfl⟩
  · refine .inl ⟨?_, rfl⟩
    cases l'
    · rfl
    · rw [hl rfl] at h; exact absurd h (by simp)
  · exact .inr ⟨x, by rw [← hk.admits]; exact hx, rfl⟩

theorem memRead_stop {s : State} {a : Word} {n : Nat} {e : Stop} (h : s.memRead a n = .error e) :
    ∃ x, s.admits .read x = false ∧ e = .raise (.access x .read) := by
  obtain ⟨x, _, hx, rfl⟩ := memRead_error h
  exact ⟨x, hx, rfl⟩

theorem baseAddress_error {s : State} {size : Nat} {pcnext : Word} {b : BaseSpec} {e : Stop}
    (hl : ∀ l, b ≠ .literal l) (hr : ∀ r, b ≠ .register r) (h : baseAddress s size pcnext b = .error e) :
    ∃ x, s.admits .read x = false ∧ e = .raise (.access x .read) := by
  cases b with
  | literal l => exact absurd rfl (hl l)
  | register r => exact absurd rfl (hr r)
  | deferred _ | autodecrement _ | autoincrement _ | immediate _ | absolute _ | displacement _ _ =>
    simp [baseAddress] at h
  | autoincrementDeferred n | displacementDeferred n d =>
    rcases except_bind_error.mp h with h | ⟨_, _, h⟩
    · exact memRead_stop h
    · simp at h

theorem operandAddress_error {acc : Access} {ty : DataType} {size : Nat} {sp : Specifier} {k : Cursor} {e : Stop}
    (hl : sp.legal acc ty = true) (hlit : ∀ l, sp ≠ .plain (.literal l)) (hreg : ∀ r, sp ≠ .plain (.register r))
    (h : operandAddress size sp k = .error e) :
    ∃ x, k.state.admits .read x = false ∧ e = .raise (.access x .read) := by
  cases sp with
  | plain b =>
    rcases except_bind_error.mp h with h | ⟨_, _, h⟩
    · exact baseAddress_error (fun l hb => hlit l (hb ▸ rfl)) (fun r hb => hreg r (hb ▸ rfl)) h
    · simp at h
  | index rx b =>
    have hi : b.indexable = true := by
      simp only [Specifier.legal, Bool.and_eq_true] at hl
      exact hl.1.1.2
    rcases except_bind_error.mp h with h | ⟨_, _, h⟩
    · exact baseAddress_error (fun l hb => by simp [hb, BaseSpec.indexable] at hi)
        (fun r hb => by simp [hb, BaseSpec.indexable] at hi) h
    · simp at h

theorem readOperand_error {ty : DataType} {sp : Specifier} {k : Cursor} {e : Stop}
    (h : readOperand ty sp k = .error e) : OperandStop k.state (sp.legal .read ty) e := by
  unfold readOperand at h
  split at h
  · next hl =>
    split at h
    · simp at h
    · simp at h
    · simp at h
    · next hlit hreg _ =>
      rcases except_bind_error.mp h with h | ⟨⟨a, k1⟩, h1, h⟩
      · exact .inr (operandAddress_error hl hlit hreg h)
      · rcases except_bind_error.mp h with h | ⟨_, _, h⟩
        · obtain ⟨x, hx, rfl⟩ := memRead_stop h
          exact .inr ⟨x, by rw [← (operandAddress_ok h1).1.admits]; exact hx, rfl⟩
        · simp at h
  · next hl =>
    simp only [Except.error.injEq] at h
    exact .inl ⟨by simpa using hl, h.symm⟩

theorem readByteOperand_error {sp : Specifier} {k : Cursor} {e : Stop}
    (h : readByteOperand sp k = .error e) : OperandStop k.state (sp.legal .read .byte) e := by
  rcases except_bind_error.mp h with h | ⟨_, _, h⟩
  · exact readOperand_error h
  · simp at h

theorem readWordOperand_error {sp : Specifier} {k : Cursor} {e : Stop}
    (h : readWordOperand sp k = .error e) : OperandStop k.state (sp.legal .read .word) e := by
  rcases except_bind_error.mp h with h | ⟨_, _, h⟩
  · exact readOperand_error h
  · simp at h

theorem addressOperand_error {sp : Specifier} {k : Cursor} {e : Stop}
    (h : addressOperand sp k = .error e) : OperandStop k.state (sp.legal .address .byte) e := by
  unfold addressOperand at h
  split at h
  · next hl =>
    refine .inr (operandAddress_error hl (fun l he => ?_) (fun r he => ?_) h)
    · simp [he, Specifier.legal, BaseSpec.legal] at hl
    · simp [he, Specifier.legal, BaseSpec.legal] at hl
  · next hl =>
    simp only [Except.error.injEq] at h
    exact .inl ⟨by simpa using hl, h.symm⟩

theorem locate_error {acc : Access} {ty : DataType} {sp : Specifier} {k : Cursor} {e : Stop}
    (hacc : acc = .modify ∨ acc = .write) (h : locate acc ty sp k = .error e) :
    OperandStop k.state (sp.legal acc ty) e := by
  unfold locate at h
  split at h
  · next hl =>
    split at h
    · simp at h
    · next hreg =>
      rcases except_bind_error.mp h with h | ⟨_, _, h⟩
      · exact .inr (operandAddress_error hl
          (fun l he => by rcases hacc with rfl | rfl <;> simp [he, Specifier.legal, BaseSpec.legal] at hl) hreg h)
      · simp at h
  · next hl =>
    simp only [Except.error.injEq] at h
    exact .inl ⟨by simpa using hl, h.symm⟩

theorem checkReserved_error {t : FType} {B : Nat} {e : Stop} (h : checkReserved t B = .error e) :
    e = .raise .reservedOperand := by
  unfold checkReserved at h
  split at h
  · simpa [eq_comm] using h
  · simp at h

theorem readFloating_error {t : FType} {sp : Specifier} {k : Cursor} {e : Stop}
    (h : readFloating t sp k = .error e) :
    OperandStop k.state (sp.legal .read (.floating t)) e ∨ e = .raise .reservedOperand := by
  rcases except_bind_error.mp h with h | ⟨_, _, h⟩
  · exact .inl (readOperand_error h)
  · rcases except_bind_error.mp h with h | ⟨_, _, h⟩
    · exact .inr (checkReserved_error h)
    · simp at h

theorem modifyFloating_error {t : FType} {sp : Specifier} {k : Cursor} {e : Stop}
    (h : modifyFloating t sp k = .error e) :
    OperandStop k.state (sp.legal .modify (.floating t)) e ∨ e = .raise .reservedOperand := by
  rcases except_bind_error.mp h with h | ⟨⟨l, k1⟩, h1, h⟩
  · exact .inl (locate_error (.inl rfl) h)
  · rcases except_bind_error.mp h with h | ⟨_, _, h⟩
    · cases l with
      | register r => simp [Location.read] at h
      | memory a =>
        obtain ⟨x, hx, rfl⟩ := memRead_stop h
        exact .inl (.inr ⟨x, by rw [← (locate_ok h1).2.1.admits]; exact hx, rfl⟩)
    · rcases except_bind_error.mp h with h | ⟨_, _, h⟩
      · exact .inr (checkReserved_error h)
      · simp at h

theorem sub2Operands_error {t : FType} {op : Opcode} {o1 o2 : Specifier} {s : State} {e : Stop}
    (h : sub2Operands t op o1 o2 s = .error e) :
    OperandStop s (o1.legal .read (.floating t) && o2.legal .modify (.floating t)) e ∨
      e = .raise .reservedOperand := by
  rcases except_bind_error.mp h with h | ⟨⟨_, k1⟩, h1, h⟩
  · exact (readFloating_error h).imp_left fun h => h.lift (onlyRegs_refl [] s) (by simp +contextual)
  have f1 := (readOperand_ok (readFloating_ok h1).1).2.1
  rcases except_bind_error.mp h with h | ⟨_, _, h⟩
  · exact (modifyFloating_error h).imp_left fun h => h.lift f1 (by simp +contextual)
  · simp at h

theorem sub3Operands_error {t : FType} {op : Opcode} {o1 o2 o3 : Specifier} {s : State} {e : Stop}
    (h : sub3Operands t op o1 o2 o3 s = .error e) :
    OperandStop s (o1.legal .read (.floating t) && o2.legal .read (.floating t) && o3.legal .write (.floating t)) e ∨
      e = .raise .reservedOperand := by
  rcases except_bind_error.mp h with h | ⟨⟨_, k1⟩, h1, h⟩
  · exact (readFloating_error h).imp_left fun h => h.lift (onlyRegs_refl [] s) (by simp +contextual)
  have f1 := (readOperand_ok (readFloating_ok h1).1).2.1
  rcases except_bind_error.mp h with h | ⟨⟨_, k2⟩, h2, h⟩
  · exact (readFloating_error h).imp_left fun h => h.lift f1 (by simp +contextual)
  have f2 := (readOperand_ok (readFloating_ok h2).1).2.1
  rcases except_bind_error.mp h with h | ⟨_, _, h⟩
  · exact .inl ((locate_error (.inr rfl) h).lift (f1.trans f2) (by simp +contextual))
  · simp at h

theorem operands3_error {op : Opcode} {o1 o2 o3 : Specifier} {s : State} {e : Stop}
    (h : operands3 op o1 o2 o3 s = .error e) :
    OperandStop s (o1.legal .read .word && o2.legal .address .byte && o3.legal .address .byte) e := by
  rcases except_bind_error.mp h with h | ⟨⟨_, k1⟩, h1, h⟩
  · exact (readWordOperand_error h).lift (onlyRegs_refl [] s) (by simp +contextual)
  have f1 := (readWordOperand_ok h1).2.1
  rcases except_bind_error.mp h with h | ⟨⟨_, k2⟩, h2, h⟩
  · exact (addressOperand_error h).lift f1 (by simp +contextual)
  have f2 := f1.trans (addressOperand_ok h2).2.1
  rcases except_bind_error.mp h with h | ⟨_, _, h⟩
  · exact (addressOperand_error h).lift f2 (by simp +contextual)
  · simp at h

theorem operands5_error {op : Opcode} {o1 o2 o3 o4 o5 : Specifier} {s : State} {e : Stop}
    (h : operands5 op o1 o2 o3 o4 o5 s = .error e) :
    OperandStop s (o1.legal .read .word && o2.legal .address .byte && o3.legal .read .byte
      && o4.legal .read .word && o5.legal .address .byte) e := by
  rcases except_bind_error.mp h with h | ⟨⟨_, k1⟩, h1, h⟩
  · exact (readWordOperand_error h).lift (onlyRegs_refl [] s) (by simp +contextual)
  have f1 := (readWordOperand_ok h1).2.1
  rcases except_bind_error.mp h with h | ⟨⟨_, k2⟩, h2, h⟩
  · exact (addressOperand_error h).lift f1 (by simp +contextual)
  have f2 := f1.trans (addressOperand_ok h2).2.1
  rcases except_bind_error.mp h with h | ⟨⟨_, k3⟩, h3, h⟩
  · exact (readByteOperand_error h).lift f2 (by simp +contextual)
  have f3 := f2.trans (readByteOperand_ok h3).2.1
  rcases except_bind_error.mp h with h | ⟨⟨_, k4⟩, h4, h⟩
  · exact (readWordOperand_error h).lift f3 (by simp +contextual)
  have f4 := f3.trans (readWordOperand_ok h4).2.1
  rcases except_bind_error.mp h with h | ⟨_, _, h⟩
  · exact (addressOperand_error h).lift f4 (by simp +contextual)
  · simp at h

theorem loccOperands_error {o1 o2 o3 : Specifier} {s : State} {e : Stop}
    (h : loccOperands o1 o2 o3 s = .error e) :
    OperandStop s (o1.legal .read .byte && o2.legal .read .word && o3.legal .address .byte) e := by
  rcases except_bind_error.mp h with h | ⟨⟨_, k1⟩, h1, h⟩
  · exact (readByteOperand_error h).lift (onlyRegs_refl [] s) (by simp +contextual)
  have f1 := (readByteOperand_ok h1).2.1
  rcases except_bind_error.mp h with h | ⟨⟨_, k2⟩, h2, h⟩
  · exact (readWordOperand_error h).lift f1 (by simp +contextual)
  have f2 := f1.trans (readWordOperand_ok h2).2.1
  rcases except_bind_error.mp h with h | ⟨_, _, h⟩
  · exact (addressOperand_error h).lift f2 (by simp +contextual)
  · simp at h

theorem matchcOperands_error {o1 o2 o3 o4 : Specifier} {s : State} {e : Stop}
    (h : matchcOperands o1 o2 o3 o4 s = .error e) :
    OperandStop s (o1.legal .read .word && o2.legal .address .byte && o3.legal .read .word
      && o4.legal .address .byte) e := by
  rcases except_bind_error.mp h with h | ⟨⟨_, k1⟩, h1, h⟩
  · exact (readWordOperand_error h).lift (onlyRegs_refl [] s) (by simp +contextual)
  have f1 := (readWordOperand_ok h1).2.1
  rcases except_bind_error.mp h with h | ⟨⟨_, k2⟩, h2, h⟩
  · exact (addressOperand_error h).lift f1 (by simp +contextual)
  have f2 := f1.trans (addressOperand_ok h2).2.1
  rcases except_bind_error.mp h with h | ⟨⟨_, k3⟩, h3, h⟩
  · exact (readWordOperand_error h).lift f2 (by simp +contextual)
  have f3 := f2.trans (readWordOperand_ok h3).2.1
  rcases except_bind_error.mp h with h | ⟨_, _, h⟩
  · exact (addressOperand_error h).lift f3 (by simp +contextual)
  · simp at h

theorem movtcOperands_error {o1 o2 o3 o4 o5 o6 : Specifier} {s : State} {e : Stop}
    (h : movtcOperands o1 o2 o3 o4 o5 o6 s = .error e) :
    OperandStop s (o1.legal .read .word && o2.legal .address .byte && o3.legal .read .byte
      && o4.legal .address .byte && o5.legal .read .word && o6.legal .address .byte) e := by
  rcases except_bind_error.mp h with h | ⟨⟨_, k1⟩, h1, h⟩
  · exact (readWordOperand_error h).lift (onlyRegs_refl [] s) (by simp +contextual)
  have f1 := (readWordOperand_ok h1).2.1
  rcases except_bind_error.mp h with h | ⟨⟨_, k2⟩, h2, h⟩
  · exact (addressOperand_error h).lift f1 (by simp +contextual)
  have f2 := f1.trans (addressOperand_ok h2).2.1
  rcases except_bind_error.mp h with h | ⟨⟨_, k3⟩, h3, h⟩
  · exact (readByteOperand_error h).lift f2 (by simp +contextual)
  have f3 := f2.trans (readByteOperand_ok h3).2.1
  rcases except_bind_error.mp h with h | ⟨⟨_, k4⟩, h4, h⟩
  · exact (addressOperand_error h).lift f3 (by simp +contextual)
  have f4 := f3.trans (addressOperand_ok h4).2.1
  rcases except_bind_error.mp h with h | ⟨⟨_, k5⟩, h5, h⟩
  · exact (readWordOperand_error h).lift f4 (by simp +contextual)
  have f5 := f4.trans (readWordOperand_ok h5).2.1
  rcases except_bind_error.mp h with h | ⟨_, _, h⟩
  · exact (addressOperand_error h).lift f5 (by simp +contextual)
  · simp at h

theorem checkWrite_error {l : Location} {ty : DataType} {s : State} {e : Stop}
    (h : l.checkWrite ty s = .error e) : ∃ x, s.admits .write x = false ∧ e = .raise (.access x .write) := by
  cases l with
  | register r => simp [Location.checkWrite] at h
  | memory a =>
    cases hx : s.firstDenied .write a ty.size with
    | none => simp [Location.checkWrite, hx] at h
    | some x =>
      simp only [Location.checkWrite, hx, Except.error.injEq] at h
      exact ⟨x, by simpa using List.find?_some hx, h.symm⟩

/-- Why SUB stops once its operands are resolved (R105; 60_exceptions.md R204). -/
theorem subtract_error {t : FType} {a b : Nat} {l : Location} {k : Cursor} {e : Stop}
    (h : subtract t a b l k = .error e) :
    (∃ x, k.state.admits .write x = false ∧ e = .raise (.access x .write)) ∨ e = .raise .floatingOverflow ∨
      (k.state.psl.fu = true ∧ e = .raise .floatingUnderflow) := by
  rcases except_bind_error.mp h with h | ⟨_, _, h⟩
  · exact .inl (checkWrite_error h)
  · split at h
    · simp at h
    · simp only [Except.error.injEq] at h
      exact .inr (.inl h.symm)
    · split at h
      · next hf =>
        simp only [Except.error.injEq] at h
        exact .inr (.inr ⟨hf, h.symm⟩)
      · simp at h

/-- A string admission check stops at a byte that is not admitted, and names the destination string (R135 (c)). -/
theorem admitStrings_error {s : State} {d : Word} {dl : Nat} {e : Stop} : ∀ {ss : List (AccessKind × Word × Nat)},
    admitStrings s d dl ss = .error e → ∃ x kind, s.admits kind x = false ∧ e = .raise (.stringAccess x kind d dl)
  | (kind, a, n) :: ss, h => by
    unfold admitStrings at h
    cases hx : s.firstDenied kind a n with
    | none => rw [hx] at h; exact admitStrings_error h
    | some x =>
      rw [hx] at h
      simp only [Except.error.injEq] at h
      exact ⟨x, kind, by simpa using List.find?_some hx, h.symm⟩

theorem storeTranslated_error {s : State} {ta d : Word} {dl : Nat} {bs : List Byte} {e : Stop}
    (h : storeTranslated s ta d dl bs = .error e) :
    s.platform.movtcOverlap = .refuse ∧ e = .refuse .movtcOverlap := by
  unfold storeTranslated at h
  split at h
  · split at h
    · simp at h
    · next hp => exact ⟨hp, by simpa [eq_comm] using h⟩
  · simp at h

/-- Why an instruction stops (60_exceptions.md R200, R204; 00_scope.md R11). Past operand evaluation all its forms are
legal. -/
inductive Stopped (i : Instr) (s : State) : Stop → Prop where
  | operand {e : Stop} (h : OperandStop s i.formsLegal e) : Stopped i s (e.during i.opcode)
  | reserved (h : isSub i = true ∨ isTst i = true) : Stopped i s (.raise .reservedOperand)
  | store (x : Word) (h : isSub i = true) (ha : s.admits .write x = false) :
      Stopped i s (.raise (.access x .write))
  | overflow (h : isSub i = true) (hl : i.formsLegal = true) : Stopped i s (.raise .floatingOverflow)
  | underflow (h : isSub i = true) (hf : s.psl.fu = true) (hl : i.formsLegal = true) :
      Stopped i s (.raise .floatingUnderflow)
  | string (x : Word) (kind : AccessKind) (d : Word) (dl : Nat) (h : isSub i = false ∧ isTst i = false)
      (ha : s.admits kind x = false) (hd : isMove i = false → dl = 0) :
      Stopped i s (.raise (.stringAccess x kind d dl))
  | overlap (h : s.platform.movtcOverlap = .refuse) (hl : i.formsLegal = true) :
      Stopped i s (.refuse .movtcOverlap)
  | undescribed (m : String) (h : undescribedName i = some m) (hl : i.formsLegal = true) :
      Stopped i s (.refuse (.noSemanticsInSource m))

theorem conclude_stop {i : Instr} {s : State} {x : Except Stop State}
    (h : ∀ e, x = .error e → Stopped i s e) :
    (∃ u, conclude s x = .next u) ∨ ∃ e, Stopped i s e ∧ conclude s x = conclude s (.error e) := by
  cases x with
  | ok u => exact .inl ⟨u, rfl⟩
  | error e => exact .inr ⟨e, h e rfl, rfl⟩

/-- Outside the string instructions a stop is what it is (20_memory.md R46). -/
theorem during_of_floating {i : Instr} (h : isSub i = true ∨ isTst i = true) (e : Stop) :
    e.during i.opcode = e := by
  cases i <;> first | rfl | (simp [isSub, isTst] at h)

theorem concludeString_stop {i : Instr} {s : State} {x : Except Stop State}
    (h : ∀ e, x = .error e → Stopped i s e.inString) :
    (∃ u, concludeString s x = .next u) ∨ ∃ e, Stopped i s e ∧ concludeString s x = conclude s (.error e) := by
  cases x with
  | ok u => exact .inl ⟨u, rfl⟩
  | error e => exact .inr ⟨_, h e rfl, rfl⟩

theorem sub2_stop {i : Instr} {t : FType} {op : Opcode} {o1 o2 : Specifier} {s : State} (hi : isSub i = true)
    (hop : i.formsLegal = (o1.legal .read (.floating t) && o2.legal .modify (.floating t))) {e : Stop}
    (h : (sub2Operands t op o1 o2 s >>= fun x => subtract t x.2.2.1 x.1 x.2.1 x.2.2.2) = .error e) :
    Stopped i s e := by
  rcases except_bind_error.mp h with h | ⟨⟨b, l, a, k⟩, h1, h⟩
  · rcases sub2Operands_error h with h | rfl
    · exact during_of_floating (.inl hi) e ▸ .operand (hop ▸ h)
    · exact .reserved (.inl hi)
  · obtain ⟨hk, _, _, l1, l2, _⟩ := sub2Operands_ok h1
    have hl : i.formsLegal = true := by rw [hop, l1, l2]; rfl
    rcases subtract_error h with ⟨x, hx, rfl⟩ | rfl | ⟨hf, rfl⟩
    · exact .store x hi (by rw [← hk.admits]; exact hx)
    · exact .overflow hi hl
    · exact .underflow hi (hk.psl ▸ hf) hl

theorem sub3_stop {i : Instr} {t : FType} {op : Opcode} {o1 o2 o3 : Specifier} {s : State} (hi : isSub i = true)
    (hop : i.formsLegal = (o1.legal .read (.floating t) && o2.legal .read (.floating t)
      && o3.legal .write (.floating t))) {e : Stop}
    (h : (sub3Operands t op o1 o2 o3 s >>= fun x => subtract t x.2.1 x.1 x.2.2.1 x.2.2.2) = .error e) :
    Stopped i s e := by
  rcases except_bind_error.mp h with h | ⟨⟨b, a, l, k⟩, h1, h⟩
  · rcases sub3Operands_error h with h | rfl
    · exact during_of_floating (.inl hi) e ▸ .operand (hop ▸ h)
    · exact .reserved (.inl hi)
  · obtain ⟨hk, _, _, l1, l2, l3, _⟩ := sub3Operands_ok h1
    have hl : i.formsLegal = true := by rw [hop, l1, l2, l3]; rfl
    rcases subtract_error h with ⟨x, hx, rfl⟩ | rfl | ⟨hf, rfl⟩
    · exact .store x hi (by rw [← hk.admits]; exact hx)
    · exact .overflow hi hl
    · exact .underflow hi (hk.psl ▸ hf) hl

theorem tst_stop {i : Instr} {t : FType} {op : Opcode} {o1 : Specifier} {s : State} (hi : isTst i = true)
    (hop : i.formsLegal = o1.legal .read (.floating t)) {f : Nat × Cursor → State} {e : Stop}
    (h : (readFloating t o1 (Cursor.start s op) >>= fun x => .ok (f x)) = .error e) : Stopped i s e := by
  rcases except_bind_error.mp h with h | ⟨_, _, h⟩
  · rcases readFloating_error h with h | rfl
    · exact during_of_floating (.inr hi) e ▸ .operand (hop ▸ h)
    · exact .reserved (.inr hi)
  · simp at h

theorem admitStrings_stop {i : Instr} {s k : State} {d : Word} {dl : Nat} {rs : List Reg}
    {ss : List (AccessKind × Word × Nat)} (hi : isSub i = false ∧ isTst i = false) (hk : OnlyRegs rs s k)
    (hd : isMove i = false → dl = 0) {e : Stop} (h : admitStrings k d dl ss = .error e) : Stopped i s e.inString := by
  obtain ⟨x, kind, hx, rfl⟩ := admitStrings_error h
  exact .string x kind d dl hi (by rw [← hk.admits]; exact hx) hd

theorem undescribed_stop {i : Instr} {s : State} (m : String) (hm : undescribedName i = some m)
    (h : exec i s = undescribed m i.operands) :
    (∃ u, exec i s = .next u) ∨ ∃ e, Stopped i s e ∧ exec i s = conclude s (.error e) := by
  rw [h]
  unfold undescribed
  split
  · next hl => exact .inr ⟨_, .undescribed m hm hl, rfl⟩
  · next hl => exact .inr ⟨_, .operand (.inl ⟨Bool.eq_false_iff.mpr hl, rfl⟩), by rw [Stop.during_refuse]; rfl⟩

/-- Every outcome of `exec`: a next state, or a stop with a reason. -/
theorem exec_outcome (i : Instr) (s : State) :
    (∃ u, exec i s = .next u) ∨ ∃ e, Stopped i s e ∧ exec i s = conclude s (.error e) := by
  cases i with
  | subf2 _ _ | subd2 _ _ | subg2 _ _ | subh2 _ _ =>
    exact conclude_stop fun e h => sub2_stop rfl
      (by simp [Instr.formsLegal, Instr.operands, Instr.specifiers, Instr.opcode, Opcode.signature]) h
  | subf3 _ _ _ | subd3 _ _ _ | subg3 _ _ _ | subh3 _ _ _ =>
    exact conclude_stop fun e h => sub3_stop rfl
      (by simp [Instr.formsLegal, Instr.operands, Instr.specifiers, Instr.opcode, Opcode.signature, Bool.and_assoc]) h
  | tstf _ | tstd _ | tstg _ | tsth _ =>
    exact conclude_stop fun e h => tst_stop rfl
      (by simp [Instr.formsLegal, Instr.operands, Instr.specifiers, Instr.opcode, Opcode.signature]) h
  | scanc _ _ _ _ | spanc _ _ _ _ | movtuc _ _ _ _ _ _ | skpc _ _ _ => exact undescribed_stop _ rfl rfl
  | cmpc3 o1 o2 o3 | movc3 o1 o2 o3 =>
    refine concludeString_stop fun e h => ?_
    rcases except_bind_error.mp h with h | ⟨⟨_, _, _, k⟩, h1, h⟩
    · refine .operand (e := e) ((operands3_error h).lift (onlyRegs_refl [] s) ?_)
      simp +contextual [Instr.formsLegal, Instr.operands, Instr.specifiers, Instr.opcode, Opcode.signature]
    rcases except_bind_error.mp h with h | ⟨_, _, h⟩
    · exact admitStrings_stop ⟨rfl, rfl⟩ (operands3_ok h1).1 (by simp [isMove]) h
    · simp at h
  | cmpc5 o1 o2 o3 o4 o5 | movc5 o1 o2 o3 o4 o5 =>
    refine concludeString_stop fun e h => ?_
    rcases except_bind_error.mp h with h | ⟨⟨_, _, _, _, _, k⟩, h1, h⟩
    · refine .operand (e := e) ((operands5_error h).lift (onlyRegs_refl [] s) ?_)
      simp +contextual [Instr.formsLegal, Instr.operands, Instr.specifiers, Instr.opcode, Opcode.signature]
    rcases except_bind_error.mp h with h | ⟨_, _, h⟩
    · exact admitStrings_stop ⟨rfl, rfl⟩ (operands5_ok h1).1 (by simp [isMove]) h
    · simp at h
  | locc o1 o2 o3 =>
    refine concludeString_stop fun e h => ?_
    rcases except_bind_error.mp h with h | ⟨⟨_, _, _, k⟩, h1, h⟩
    · refine .operand (e := e) ((loccOperands_error h).lift (onlyRegs_refl [] s) ?_)
      simp +contextual [Instr.formsLegal, Instr.operands, Instr.specifiers, Instr.opcode, Opcode.signature]
    rcases except_bind_error.mp h with h | ⟨_, _, h⟩
    · exact admitStrings_stop ⟨rfl, rfl⟩ (loccOperands_ok h1).1 (fun _ => rfl) h
    · simp at h
  | matchc o1 o2 o3 o4 =>
    refine concludeString_stop fun e h => ?_
    rcases except_bind_error.mp h with h | ⟨⟨ol, oa, sl, sa, k⟩, h1, h⟩
    · refine .operand (e := e) ((matchcOperands_error h).lift (onlyRegs_refl [] s) ?_)
      simp +contextual [Instr.formsLegal, Instr.operands, Instr.specifiers, Instr.opcode, Opcode.signature]
    unfold matchCharacters at h
    by_cases hc : ol.toNat ≠ 0 ∧ sl.toNat ≠ 0
    · simp only [if_pos hc] at h
      rcases except_bind_error.mp h with h | ⟨_, _, h⟩
      · exact admitStrings_stop ⟨rfl, rfl⟩ (matchcOperands_ok h1).1 (fun _ => rfl) h
      · exact absurd h (by cases findMatch k.state ol.toNat oa sl.toNat sa <;> simp)
    · simp only [if_neg hc] at h
      exact absurd h (by cases findMatch k.state ol.toNat oa sl.toNat sa <;> simp)
  | movtc o1 o2 o3 o4 o5 o6 =>
    refine concludeString_stop fun e h => ?_
    rcases except_bind_error.mp h with h | ⟨⟨_, _, _, _, _, _, k⟩, h1, h⟩
    · refine .operand (e := e) ((movtcOperands_error h).lift (onlyRegs_refl [] s) ?_)
      simp +contextual [Instr.formsLegal, Instr.operands, Instr.specifiers, Instr.opcode, Opcode.signature]
    obtain ⟨hk, _, l1, l2, l3, l4, l5, l6⟩ := movtcOperands_ok h1
    rcases except_bind_error.mp h with h | ⟨_, _, h⟩
    · exact admitStrings_stop ⟨rfl, rfl⟩ hk (by simp [isMove]) h
    rcases except_bind_error.mp h with h | ⟨_, _, h⟩
    · obtain ⟨hp, rfl⟩ := storeTranslated_error h
      exact .overlap (hk.platform ▸ hp) (by
        simp [Instr.formsLegal, Instr.operands, Instr.specifiers, Instr.opcode, Opcode.signature, l1, l2, l3, l4, l5,
          l6])
    · simp at h

end Stops

section EvaluatedInOrder

/-- Evaluating an operand stops exactly when its evaluator stops, for the same reason (R75). -/
theorem evaluateOperand_word (sp : Specifier) (k : Cursor) :
    evaluateOperand .read .word sp k = (readWordOperand sp k).map Prod.snd := by
  simp only [evaluateOperand, readWordOperand, bind, Except.bind]
  cases readOperand .word sp k <;> rfl

theorem evaluateOperand_byte (sp : Specifier) (k : Cursor) :
    evaluateOperand .read .byte sp k = (readByteOperand sp k).map Prod.snd := by
  simp only [evaluateOperand, readByteOperand, bind, Except.bind]
  cases readOperand .byte sp k <;> rfl

theorem evaluateOperand_address (sp : Specifier) (k : Cursor) :
    evaluateOperand .address .byte sp k = (addressOperand sp k).map Prod.snd := by
  simp only [evaluateOperand, bind, Except.bind]
  cases addressOperand sp k <;> rfl

theorem evaluateOperand_floating (t : FType) (sp : Specifier) (k : Cursor) :
    evaluateOperand .read (.floating t) sp k = (readFloating t sp k).map Prod.snd := by
  simp only [evaluateOperand, bind, Except.bind]
  cases readFloating t sp k <;> rfl

theorem evaluateOperand_modify (t : FType) (sp : Specifier) (k : Cursor) :
    evaluateOperand .modify (.floating t) sp k = (modifyFloating t sp k).map fun x => x.2.2 := by
  simp only [evaluateOperand, bind, Except.bind]
  cases modifyFloating t sp k <;> rfl

theorem evaluateOperand_write (t : FType) (sp : Specifier) (k : Cursor) :
    evaluateOperand .write (.floating t) sp k = (writeFloating t sp k).map Prod.snd := by
  simp only [evaluateOperand, writeFloating, bind, Except.bind]
  cases locate .write (.floating t) sp k <;> rfl

/-- Whether a form is legal as an address operand does not depend on its data type (R68). -/
theorem legal_address (ty ty' : DataType) (sp : Specifier) : sp.legal .address ty = sp.legal .address ty' := by
  cases sp with
  | plain b | index rx b => cases b <;> rfl

/-- Why an operand's evaluation stops (R68, R75; 60_exceptions.md R204 (2)). -/
theorem evaluateOperand_error {acc : Access} {ty : DataType} {sp : Specifier} {k : Cursor} {e : Stop}
    (h : evaluateOperand acc ty sp k = .error e) :
    OperandStop k.state (sp.legal acc ty) e ∨ e = .raise .reservedOperand := by
  have part : ∀ {α : Type} {x : Except Stop α} {f : α → Cursor},
      (x >>= fun a => Except.ok (f a)) = .error e → x = .error e := fun h => by
    rcases except_bind_error.mp h with h | ⟨_, _, h⟩
    · exact h
    · simp at h
  unfold evaluateOperand at h
  split at h
  · exact readFloating_error (part h)
  · exact modifyFloating_error (part h)
  · exact .inl (readOperand_error (part h))
  · exact .inl (legal_address .byte ty sp ▸ addressOperand_error (part h))
  · next h1 h2 _ _ =>
    cases acc with
    | read => exact (h1 rfl).elim
    | address => exact (h2 rfl).elim
    | modify => exact .inl (locate_error (.inl rfl) (part h))
    | write => exact .inl (locate_error (.inr rfl) (part h))

/-- Evaluating operands whose forms are all legal is never refused (R68). -/
theorem evaluateOperands_legal : ∀ {os : List ((Access × DataType) × Specifier)} {k : Cursor} {r : Refusal},
    (os.all fun o => o.2.legal o.1.1 o.1.2) = true → evaluateOperands os k ≠ .error (.refuse r)
  | [], _, _, _, h => by simp [evaluateOperands] at h
  | o :: os, k, r, hl, h => by
    simp only [List.all_cons, Bool.and_eq_true] at hl
    rcases except_bind_error.mp h with h | ⟨k', _, h⟩
    · rcases evaluateOperand_error h with (⟨h, _⟩ | ⟨_, _, h⟩) | h
      · rw [hl.1] at h; exact absurd h (by simp)
      · simp at h
      · simp at h
    · exact evaluateOperands_legal hl.2 h

/-- A part that stops as the evaluation of its operand stops, then the rest. -/
theorem bind_stops {α β : Type} {x : Except Stop α} {f : α → Except Stop β} {c : α → Cursor}
    {g : Cursor → Except Stop Cursor} {e : Stop} (h : (x.map c >>= g) = .error e)
    (hf : ∀ a, g (c a) = .error e → f a = .error e) : (x >>= f) = .error e := by
  cases x with
  | error e' => simpa [Except.map, bind, Except.bind] using h
  | ok a => exact hf a h

theorem evaluateOperands_append (os os' : List ((Access × DataType) × Specifier)) (k : Cursor) :
    evaluateOperands (os ++ os') k = evaluateOperands os k >>= evaluateOperands os' := by
  induction os generalizing k with
  | nil => rfl
  | cons o os ih =>
    simp only [List.cons_append, evaluateOperands, bind, Except.bind]
    cases evaluateOperand o.1.1 o.1.2 o.2 k with
    | error e => rfl
    | ok k => exact ih k

/-- An instruction whose operands stop on the way ends with that stop (R75, R76 (3); 20_memory.md R46). -/
theorem exec_of_operand_stop {i : Instr} {s : State} {e : Stop} (hd : i.opcode.described = true)
    (h : evaluateOperands i.operands (Cursor.start s i.opcode) = .error e) :
    exec i s = conclude s (.error (e.during i.opcode)) := by
  have key : ∀ {α : Type} {x : Except Stop α} {f : α → Except Stop State}, x = .error e →
      conclude s (x >>= f) = conclude s (.error e) := fun h => by rw [h]; rfl
  have keyString : ∀ {α : Type} {x : Except Stop α} {f : α → Except Stop State}, x = .error e →
      concludeString s (x >>= f) = conclude s (.error e.inString) := fun h => by rw [h]; rfl
  have done : ∀ {k : Cursor}, ¬evaluateOperands [] k = .error e := by simp [evaluateOperands]
  cases i with
  | scanc _ _ _ _ | spanc _ _ _ _ | movtuc _ _ _ _ _ _ | skpc _ _ _ => cases hd
  | tstf _ | tstd _ | tstg _ | tsth _ =>
    simp only [Instr.operands, Instr.opcode, Instr.specifiers, Opcode.signature, List.zip_cons_cons,
      List.zip_nil_right, evaluateOperands, evaluateOperand_floating] at h
    exact congrArg (conclude s) (bind_stops h fun _ h => absurd h done)
  | _ =>
    first | refine key ?_ | refine keyString ?_
    simp only [Instr.operands, Instr.opcode, Instr.specifiers, Opcode.signature, List.zip_cons_cons,
      List.zip_nil_right, evaluateOperands, evaluateOperand_word, evaluateOperand_byte, evaluateOperand_address,
      evaluateOperand_floating, evaluateOperand_modify, evaluateOperand_write] at h
    repeat' refine bind_stops h fun _ h => ?_
    exact absurd h done

/-- An operand whose form has no meaning is refused (R68). -/
theorem evaluateOperand_illegal {acc : Access} {ty : DataType} {sp : Specifier} {k : Cursor}
    (h : sp.legal acc ty = false) : evaluateOperand acc ty sp k = .error (.refuse .operandForm) := by
  have hr : acc = .read → readOperand ty sp k = .error (.refuse .operandForm) := by
    rintro rfl; simp [readOperand, h]
  have hl : locate acc ty sp k = .error (.refuse .operandForm) := by simp [locate, h]
  unfold evaluateOperand
  split
  · simp only [readFloating]; rw [hr rfl]; rfl
  · simp only [modifyFloating]; rw [hl]; rfl
  · rw [hr rfl]; rfl
  · rw [addressOperand, legal_address .byte ty, h]; rfl
  · rw [hl]; rfl

/-- An instruction is refused for an operand form that has no meaning once the operands before it are evaluated (R68,
R76 (3)). -/
theorem exec_illegal {i : Instr} {s : State} {pre post : List ((Access × DataType) × Specifier)} {acc : Access}
    {ty : DataType} {sp : Specifier} {k : Cursor} (hi : i.operands = pre ++ ((acc, ty), sp) :: post)
    (hl : sp.legal acc ty = false) (hp : evaluateOperands pre (Cursor.start s i.opcode) = .ok k) :
    exec i s = .refused .operandForm := by
  cases hd : i.opcode.described with
  | true =>
    rw [exec_of_operand_stop (e := .refuse .operandForm) hd]
    · rw [Stop.during_refuse]; rfl
    · rw [hi, evaluateOperands_append, hp]
      show evaluateOperands _ k = _
      rw [evaluateOperands, evaluateOperand_illegal hl]
      rfl
  | false =>
    have h : (i.operands.all fun o => o.2.legal o.1.1 o.1.2) = false := by
      rw [hi]; simp [hl]
    cases i <;> first | (simp [Instr.opcode, Opcode.described] at hd; done) | skip
    all_goals
      simp only [exec, execMovtuc, execScanc, execSkpc, execSpanc, undescribed, h]
      rfl

end EvaluatedInOrder

end Sys2Proof.Machine
end

