-- ==== Sys2Proof/Laws/Fetch.lean ====
section
/-! SUPPORT. What fetching answers: the bytes of an instruction that stand at the PC and can be fetched, or the reason
of the first byte that cannot; and what a run is, step by step. -/

namespace Sys2Proof.Machine

open Sys2Proof.Safety

/-- Below the top of the address space, offsets from the PC are sums (10_state.md R22). -/
theorem pc_offset (s : State) (k : Nat) (h : s.pc.toNat + k < 2 ^ 32) :
    BitVec.ofNat 32 (s.pc.toNat + k) = offset s.pc k ∧ (offset s.pc k).toNat = s.pc.toNat + k := by
  constructor
  · apply BitVec.eq_of_toNat_eq; simp [offset]
  · simp [offset]; omega

/-- An instruction byte is fetched when it is below the top, admitted, and not written by an instruction (R76;
10_state.md R22; 20_memory.md R54). -/
theorem fetchByte_ok {s : State} {k : Nat} {b : Byte} :
    fetchByte s k = .ok b ↔ s.pc.toNat + k < 2 ^ 32 ∧ s.admits .fetch (offset s.pc k) = true ∧ (offset s.pc k).toNat ∉ s.written ∧ s.readByte (offset s.pc k) = b := by
  unfold fetchByte
  by_cases h : 2 ^ 32 ≤ s.pc.toNat + k
  · simp only [if_pos h]; simp; omega
  · obtain ⟨h1, h2⟩ := pc_offset s k (by omega)
    simp only [if_neg h, h1]
    cases ha : s.admits .fetch (offset s.pc k)
    · simp
    · by_cases hw : (s.pc.toNat + k) ∈ s.written
      · simp [hw, h2]
      · simp [hw, h2, State.readByte]; omega

/-- The operands before byte `j` are a prefix, and byte `j` lies in the specifier after them. -/
theorem specifiersBefore_split : ∀ (os : List ((Access × DataType) × Specifier)) (j : Nat),
    j < (os.flatMap fun o => o.2.encode o.1.2.size).length →
    ∃ o rest, os = specifiersBefore os j ++ o :: rest ∧
      ((specifiersBefore os j).flatMap fun o => o.2.encode o.1.2.size).length ≤ j ∧
      j < ((specifiersBefore os j).flatMap fun o => o.2.encode o.1.2.size).length + (o.2.encode o.1.2.size).length
  | [], j, h => by simp at h
  | o :: os, j, h => by
    unfold specifiersBefore
    rw [List.flatMap_cons, List.length_append, specifier_encode_length] at h
    split
    · next hle =>
      obtain ⟨x, rest, h1, h2, h3⟩ := specifiersBefore_split os (j - o.2.length o.1.2.size) (by omega)
      refine ⟨x, rest, by rw [List.cons_append, ← h1], ?_, ?_⟩ <;>
        rw [List.flatMap_cons, List.length_append, specifier_encode_length] <;> omega
    · next hlt => exact ⟨o, os, rfl, by simp, by rw [specifier_encode_length]; simp; omega⟩

/-- An instruction of which a byte cannot be fetched ends as `unreadStop` says, after the operands before that
byte (R76 (3)); a fault on a byte after the opcode is one during that instruction (20_memory.md R46). -/
theorem fetch_cut {s : State} {i : Instr} {m : Nat} {e : Stop} (he : i.encodable = true)
    (hi : s.platform.implements i.opcode = true) (hm : m < (encode i).length)
    (h : ∀ j, (hj : j < m) → fetchByte s j = .ok ((encode i)[j]'(by omega)))
    (hb : fetchByte s m = .error e) : fetch s = .error (unreadStop i.opcode (operandsBefore i m)
      (if m < i.opcode.bytes.length then e else e.during i.opcode) s) := by
  have hcut : Cut (fetchByte s) 0 (encode i) e :=
    cut_of hm (fun j hj => by rw [Nat.zero_add]; exact h j hj) (by rw [Nat.zero_add]; exact hb)
  unfold fetch
  rw [decodeFrom_cut he hcut]
  by_cases hop : m < i.opcode.bytes.length
  · have hc : Cut (fetchByte s) 0 i.opcode.bytes e := by
      refine cut_of hop (fun j hj => ?_) (by rw [Nat.zero_add]; exact hb)
      rw [Nat.zero_add, h j hj]
      simp only [encode, List.getElem_append_left (show j < i.opcode.bytes.length by omega)]
    have hpre : operandsBefore i m = [] := by
      unfold operandsBefore
      rw [show m - i.opcode.bytes.length = 0 by omega]
      cases i.operands with
      | nil => rfl
      | cons o os =>
        have := specifier_length_pos o.1.2.size o.2
        rw [specifiersBefore, if_neg (by omega)]
    rw [decodeOpcode_cut hc, hpre, if_pos hop]
    unfold unreadStop reachOperands
    cases i.opcode.described <;> simp [evaluateOperands, decodeStop]
  · rw [if_neg hop]
    have hlen : (encode i).length
        = i.opcode.bytes.length + (i.operands.flatMap fun o => o.2.encode o.1.2.size).length := by
      rw [encode, List.length_append]
    obtain ⟨o, rest, h1, h2, h3⟩ := specifiersBefore_split i.operands (m - i.opcode.bytes.length) (by omega)
    rw [show specifiersBefore i.operands (m - i.opcode.bytes.length) = operandsBefore i m from rfl] at h1 h2 h3
    generalize operandsBefore i m = pre at h1 h2 h3 ⊢
    have hall : ∀ p ∈ pre, p.2.encodable p.1.2.size = true := fun p hp => by
      have := List.all_eq_true.mp he p (by rw [h1]; simp [hp])
      exact this
    have hbytes : encode i = i.opcode.bytes ++ (pre.flatMap fun o => o.2.encode o.1.2.size)
        ++ (o.2.encode o.1.2.size ++ rest.flatMap fun o => o.2.encode o.1.2.size) := by
      rw [encode, h1]; simp
    have hserves : Serves (fetchByte s) 0 (i.opcode.bytes ++ pre.flatMap fun o => o.2.encode o.1.2.size) := by
      intro j hj
      rw [List.length_append] at hj
      rw [Nat.zero_add, h j (by omega)]
      simp only [hbytes]
      rw [List.getElem_append_left]
    obtain ⟨s1, s2⟩ := serves_append.mp hserves
    have hc : Cut (fetchByte s) (i.opcode.bytes.length + (pre.flatMap fun o => o.2.encode o.1.2.size).length)
        (o.2.encode o.1.2.size) e := by
      refine cut_of (m := m - (i.opcode.bytes.length + (pre.flatMap fun o => o.2.encode o.1.2.size).length))
        (by omega) (fun j hj => ?_) ?_
      · rw [h _ (by omega)]
        simp only [hbytes]
        rw [List.getElem_append_right (by simp), List.getElem_append_left (by simp; omega)]
        simp
      · rw [show i.opcode.bytes.length + (pre.flatMap fun o => o.2.encode o.1.2.size).length
          + (m - (i.opcode.bytes.length + (pre.flatMap fun o => o.2.encode o.1.2.size).length)) = m by omega]
        exact hb
    have hsig : i.opcode.signature = pre.map Prod.fst ++ o.1 :: rest.map Prod.fst := by
      have : i.opcode.signature = i.operands.map Prod.fst := by
        rw [Instr.operands, List.map_fst_zip]
        rw [specifiers_length]
      rw [this, h1]; simp
    rw [decodeOpcode_of_bytes s1]
    simp only [hi, if_true]
    rw [hsig, (decodeSpecifiers_stop hall (by rwa [Nat.zero_add] at s2) (decodeSpecifier_cut hc)).2]
    rfl

/-- Fetching answers exactly the instructions whose bytes can be fetched, byte by byte (R76). -/
theorem fetch_ok {s : State} {i : Instr} :
    fetch s = .ok i ↔ i.encodable = true ∧ Serves (fetchByte s) 0 (encode i) := by
  have h : fetch s = .ok i ↔ ∃ k, decodeFrom (fetchByte s) = .ok (i, k) := by
    unfold fetch
    split
    · simp_all
    · next h =>
      simp only [h, reduceCtorEq, exists_false, iff_false]
      split
      · split <;> simp
      · simp
  rw [h]
  constructor
  · rintro ⟨k, h⟩
    obtain ⟨h1, h2, _⟩ := encode_of_decodeFrom h
    exact ⟨h1, h2⟩
  · rintro ⟨h1, h2⟩
    exact ⟨_, decodeFrom_of_encode h1 h2⟩

/-- Bytes that stand at the PC and can be fetched are served (R76). -/
theorem serves_fetchByte {s : State} {bs : List Byte} (hc : ∀ i, (h : i < bs.length) → s.readByte (offset s.pc i) = bs[i])
    (ht : s.pc.toNat + bs.length ≤ 2 ^ 32) (ha : ∀ i, i < bs.length → s.admits .fetch (offset s.pc i) = true)
    (hw : ∀ i, i < bs.length → (offset s.pc i).toNat ∉ s.written) : Serves (fetchByte s) 0 bs := fun i hi => by
  rw [Nat.zero_add]
  exact fetchByte_ok.mpr ⟨by omega, ha i hi, hw i hi, hc i hi⟩

/-- A step whose opcode bytes are no opcode is refused (R71). -/
theorem step_unknownOpcode {s : State} (hp : pslRefusal s.psl = none)
    (h : decodeOpcode (fetchByte s) = .error .unknownOpcode) : step s = .refused .unknownOpcode := by
  simp only [step, hp, fetch, decodeFrom, h, bind, Except.bind, decodeStop, conclude]

/-- A step whose opcode is not implemented is refused as soon as the opcode is read (00_scope.md R6;
notes/assumptions/32.md). -/
theorem step_notImplemented {s : State} {op : Opcode} {n : Nat} (hp : pslRefusal s.psl = none)
    (h : decodeOpcode (fetchByte s) = .ok (op, n)) (hi : s.platform.implements op = false) :
    step s = .refused .notImplemented := by
  simp only [step, hp, fetch]
  cases hd : decodeFrom (fetchByte s) with
  | error e => simp [h, hi, conclude]
  | ok x =>
    obtain ⟨i, k⟩ := x
    have he := (decodeOpcode_of_bytes (serves_append.mp (encode_of_decodeFrom hd).2.1).1).symm.trans h
    simp only [Except.ok.injEq, Prod.mk.injEq] at he
    simp [he.1, hi]

/-- A step with index mode over index mode is refused as an operand form once the operands before it are evaluated;
one of them that is refused or raises an exception ends it instead (R68, R76 (3); notes/assumptions/13.md). -/
theorem step_indexOverIndex {s : State} {op : Opcode} {pre : List ((Access × DataType) × Specifier)}
    {o : Access × DataType} {rest : List (Access × DataType)} {x y : Byte} (hp : pslRefusal s.psl = none)
    (hi : s.platform.implements op = true) (hsig : op.signature = pre.map Prod.fst ++ o :: rest)
    (he : ∀ p ∈ pre, p.2.encodable p.1.2.size = true) (hx : x.toNat / 16 = 4) (hy : y.toNat / 16 = 4)
    (h : Serves (fetchByte s) 0 (op.bytes ++ (pre.flatMap fun p => p.2.encode p.1.2.size) ++ [x, y])) :
    step s = conclude s (.error (unreadStop op pre (.refuse .operandForm) s)) := by
  obtain ⟨h, h3⟩ := serves_append.mp h
  obtain ⟨h1, h2⟩ := serves_append.mp h
  rw [Nat.zero_add] at h2 h3
  rw [List.length_append] at h3
  obtain ⟨d1, d2⟩ := decodeSpecifiers_stop (o := o) (rest := rest) he h2 (decodeSpecifier_indexOverIndex hx hy h3)
  have hd : decodeFrom (fetchByte s) = .error .operandForm := by
    simp only [decodeFrom, decodeOpcode_of_bytes h1, bind, Except.bind, hsig, d1]
  simp only [step, hp, fetch, hd, decodeOpcode_of_bytes h1, hi, if_true, hsig, d2, decodeStop, Stop.during_refuse]

/-- Operands whose forms are all legal are never refused (R68). -/
theorem reachOperands_legal {op : Opcode} {os : List ((Access × DataType) × Specifier)} {s : State} {r : Refusal}
    (hl : (os.all fun o => o.2.legal o.1.1 o.1.2) = true) : reachOperands op os s ≠ .error (.refuse r) := by
  intro h
  unfold reachOperands at h
  split at h
  · split at h
    · simp at h
    · next he => exact evaluateOperands_legal hl (Stop.during_eq_refuse.mp (Except.error.inj h) ▸ he)
  · simp at h

/-- How an instruction with a byte that is not admitted for fetch ends: not with an exception of an operand before
it, if these have legal forms (60_exceptions.md R204 (1)). -/
theorem unreadStop_raise {op : Opcode} {os : List ((Access × DataType) × Specifier)} {x : Exception} {s : State}
    (hl : (os.all fun o => o.2.legal o.1.1 o.1.2) = true) : unreadStop op os (.raise x) s = .raise x := by
  unfold unreadStop
  cases hr : reachOperands op os s with
  | ok _ => rfl
  | error e =>
    cases e with
    | refuse r => exact absurd hr (reachOperands_legal hl)
    | raise y => simp [hl]

/-- How an instruction that is refused where it cannot be read ends: the operands before are evaluated first. -/
theorem unreadStop_refuse {op : Opcode} {os : List ((Access × DataType) × Specifier)} {r : Refusal} {s : State} :
    (reachOperands op os s = .ok () → unreadStop op os (.refuse r) s = .refuse r) ∧
      ∀ e, reachOperands op os s = .error e → unreadStop op os (.refuse r) s = e := by
  constructor
  · intro h; simp only [unreadStop, h]
  · intro e h; simp only [unreadStop, h]; cases e <;> rfl

/-- Every instruction has at least one byte. -/
theorem encode_length_pos (i : Instr) : 0 < (encode i).length := by
  rw [encode_length]; cases i <;> simp [Instr.length, Instr.opcode, Opcode.bytes]

/-- A step that answers a next state ran the instruction that was fetched, under a PSL that allows it. -/
theorem step_next {s u : State} (h : step s = .next u) :
    ∃ i, pslRefusal s.psl = none ∧ fetch s = .ok i ∧ s.platform.implements i.opcode = true ∧
      exec i s = .next u := by
  unfold step at h
  split at h
  · simp at h
  · next hp =>
    split at h
    · next e _ =>
      rcases e with e | r
      · cases e <;> simp [conclude, raise] at h
      · simp [conclude] at h
    · next i hi =>
      split at h
      · next him => exact ⟨i, hp, hi, him, h⟩
      · simp at h

end Sys2Proof.Machine

namespace Sys2Proof.Safety

open Sys2Proof.Machine

theorem reaches_zero {s u : State} : Reaches 0 s u ↔ s = u := by
  constructor
  · intro h
    have h : (Host.Outcome.next s : Result) = .next u := h
    cases h; rfl
  · rintro rfl; rfl

/-- A run of `n + 1` steps is a step and a run of `n` steps. -/
theorem reaches_succ {n : Nat} {s v : State} : Reaches (n + 1) s v ↔ ∃ u, step s = .next u ∧ Reaches n u v := by
  unfold Reaches
  have e := Host.Core.run.eq_2 core s n
  rw [show core.step s = step s from rfl] at e
  rw [e]
  cases step s <;> simp

end Sys2Proof.Safety
end

