-- ==== Sys2Proof/Laws/PerInstr.lean ====
section
/-! SUPPORT. What is proved constructor by constructor: the family `Shape`. -/

namespace Sys2Proof.Laws

/-- The instruction has one specifier for each operand of its opcode (30_encoding.md R60), and its opcode and its
specifiers are all of it: the decoder rebuilds it from them. -/
def Shape.Statement (i : Instr) : Prop :=
  i.specifiers.length = i.opcode.signature.length ∧ Instr.ofParts i.opcode i.specifiers = some i

theorem Shape.movc3 (a b c : Specifier) : Shape.Statement (.movc3 a b c) := ⟨rfl, rfl⟩
theorem Shape.cmpc3 (a b c : Specifier) : Shape.Statement (.cmpc3 a b c) := ⟨rfl, rfl⟩
theorem Shape.scanc (a b c d : Specifier) : Shape.Statement (.scanc a b c d) := ⟨rfl, rfl⟩
theorem Shape.spanc (a b c d : Specifier) : Shape.Statement (.spanc a b c d) := ⟨rfl, rfl⟩
theorem Shape.movc5 (a b c d e : Specifier) : Shape.Statement (.movc5 a b c d e) := ⟨rfl, rfl⟩
theorem Shape.cmpc5 (a b c d e : Specifier) : Shape.Statement (.cmpc5 a b c d e) := ⟨rfl, rfl⟩
theorem Shape.movtc (a b c d e f : Specifier) : Shape.Statement (.movtc a b c d e f) := ⟨rfl, rfl⟩
theorem Shape.movtuc (a b c d e f : Specifier) : Shape.Statement (.movtuc a b c d e f) := ⟨rfl, rfl⟩
theorem Shape.matchc (a b c d : Specifier) : Shape.Statement (.matchc a b c d) := ⟨rfl, rfl⟩
theorem Shape.locc (a b c : Specifier) : Shape.Statement (.locc a b c) := ⟨rfl, rfl⟩
theorem Shape.skpc (a b c : Specifier) : Shape.Statement (.skpc a b c) := ⟨rfl, rfl⟩
theorem Shape.subf2 (a b : Specifier) : Shape.Statement (.subf2 a b) := ⟨rfl, rfl⟩
theorem Shape.subf3 (a b c : Specifier) : Shape.Statement (.subf3 a b c) := ⟨rfl, rfl⟩
theorem Shape.tstf (a : Specifier) : Shape.Statement (.tstf a) := ⟨rfl, rfl⟩
theorem Shape.subd2 (a b : Specifier) : Shape.Statement (.subd2 a b) := ⟨rfl, rfl⟩
theorem Shape.subd3 (a b c : Specifier) : Shape.Statement (.subd3 a b c) := ⟨rfl, rfl⟩
theorem Shape.tstd (a : Specifier) : Shape.Statement (.tstd a) := ⟨rfl, rfl⟩
theorem Shape.subg2 (a b : Specifier) : Shape.Statement (.subg2 a b) := ⟨rfl, rfl⟩
theorem Shape.subg3 (a b c : Specifier) : Shape.Statement (.subg3 a b c) := ⟨rfl, rfl⟩
theorem Shape.tstg (a : Specifier) : Shape.Statement (.tstg a) := ⟨rfl, rfl⟩
theorem Shape.subh2 (a b : Specifier) : Shape.Statement (.subh2 a b) := ⟨rfl, rfl⟩
theorem Shape.subh3 (a b c : Specifier) : Shape.Statement (.subh3 a b c) := ⟨rfl, rfl⟩
theorem Shape.tsth (a : Specifier) : Shape.Statement (.tsth a) := ⟨rfl, rfl⟩

end Sys2Proof.Laws
end

