-- ==== Sys2Proof/Laws/Psl.lean ====
section
/-! SUPPORT. Operand evaluation and the string loops do not look at the PSL: with another PSL they answer the same,
and the state they leave differs in the PSL only. One lemma for each function. -/

namespace Sys2Proof.Machine

/-- The state with another PSL. -/
def State.withPsl (s : State) (p : Psl) : State := { s with psl := p }

/-- The cursor with another PSL. -/
def Cursor.withPsl (k : Cursor) (p : Psl) : Cursor := { k with state := k.state.withPsl p }

variable {p : Psl}

@[simp] theorem Cursor.withPsl_state (k : Cursor) : (k.withPsl p).state = k.state.withPsl p := rfl
@[simp] theorem Cursor.withPsl_addr (k : Cursor) : (k.withPsl p).addr = k.addr := rfl
@[simp] theorem State.withPsl_psl (s : State) : (s.withPsl p).psl = p := rfl

section Evaluation

theorem baseAddress_withPsl {s s' : State} {size : Nat} {pcnext a : Word} {b : BaseSpec}
    (h : baseAddress s size pcnext b = .ok (a, s')) :
    baseAddress (s.withPsl p) size pcnext b = .ok (a, s'.withPsl p) := by
  cases b with
  | literal _ | register _ => simp [baseAddress] at h
  | deferred _ | immediate _ | absolute _ | displacement _ _ | autodecrement n | autoincrement n =>
    simp only [baseAddress, Except.ok.injEq, Prod.mk.injEq] at h
    obtain ⟨rfl, rfl⟩ := h
    rfl
  | autoincrementDeferred n | displacementDeferred n d =>
    obtain ⟨v, hv, h⟩ := except_bind_ok.mp h
    simp only [Except.ok.injEq, Prod.mk.injEq] at h
    obtain ⟨rfl, rfl⟩ := h
    exact except_bind_ok.mpr ⟨v, hv, rfl⟩

theorem operandAddress_withPsl {size : Nat} {sp : Specifier} {k k' : Cursor} {a : Word}
    (h : operandAddress size sp k = .ok (a, k')) :
    operandAddress size sp (k.withPsl p) = .ok (a, k'.withPsl p) := by
  cases sp with
  | plain b | index rx b =>
    obtain ⟨⟨a', s'⟩, hb, h⟩ := except_bind_ok.mp h
    simp only [Except.ok.injEq, Prod.mk.injEq] at h
    obtain ⟨rfl, rfl⟩ := h
    exact except_bind_ok.mpr ⟨_, baseAddress_withPsl hb, rfl⟩

theorem readRegs_withPsl (s : State) : ∀ (n : Nat) (r : Reg), (s.withPsl p).readRegs r n = s.readRegs r n
  | 0, _ => rfl
  | n + 1, r => by rw [State.readRegs, State.readRegs, readRegs_withPsl s n]; rfl

theorem readRegister_withPsl (s : State) (ty : DataType) (r : Reg) :
    readRegister (s.withPsl p) ty r = readRegister s ty r := by
  rw [readRegister, readRegister, readRegs_withPsl]

theorem writeRegs_withPsl : ∀ (n : Nat) (s : State) (r : Reg) (v : Nat),
    (s.withPsl p).writeRegs r n v = (s.writeRegs r n v).withPsl p
  | 0, _, _, _ => rfl
  | n + 1, s, r, v => writeRegs_withPsl n (s.setReg r (BitVec.ofNat 32 v)) (r + 1) (v / 2 ^ 32)

theorem readOperand_withPsl {ty : DataType} {sp : Specifier} {k k' : Cursor} {v : Nat}
    (h : readOperand ty sp k = .ok (v, k')) : readOperand ty sp (k.withPsl p) = .ok (v, k'.withPsl p) := by
  unfold readOperand at h ⊢
  split at h
  · next hl =>
    rw [if_pos hl]
    split at h
    · simp only [Except.ok.injEq, Prod.mk.injEq] at h
      obtain ⟨rfl, rfl⟩ := h
      rfl
    · simp only [Except.ok.injEq, Prod.mk.injEq] at h
      obtain ⟨rfl, rfl⟩ := h
      simp only [Cursor.withPsl_state, readRegister_withPsl]; rfl
    · simp only [Except.ok.injEq, Prod.mk.injEq] at h
      obtain ⟨rfl, rfl⟩ := h
      rfl
    · obtain ⟨⟨a, k1⟩, hb, h⟩ := except_bind_ok.mp h
      obtain ⟨w, hw, h⟩ := except_bind_ok.mp h
      simp only [Except.ok.injEq, Prod.mk.injEq] at h
      obtain ⟨rfl, rfl⟩ := h
      exact except_bind_ok.mpr ⟨_, operandAddress_withPsl hb, except_bind_ok.mpr ⟨w, hw, rfl⟩⟩
  · simp at h

theorem readByteOperand_withPsl {sp : Specifier} {k k' : Cursor} {b : Byte}
    (h : readByteOperand sp k = .ok (b, k')) : readByteOperand sp (k.withPsl p) = .ok (b, k'.withPsl p) := by
  obtain ⟨⟨v, k1⟩, h1, h⟩ := except_bind_ok.mp h
  simp only [Except.ok.injEq, Prod.mk.injEq] at h
  obtain ⟨rfl, rfl⟩ := h
  exact except_bind_ok.mpr ⟨_, readOperand_withPsl h1, rfl⟩

theorem readWordOperand_withPsl {sp : Specifier} {k k' : Cursor} {b : BitVec 16}
    (h : readWordOperand sp k = .ok (b, k')) : readWordOperand sp (k.withPsl p) = .ok (b, k'.withPsl p) := by
  obtain ⟨⟨v, k1⟩, h1, h⟩ := except_bind_ok.mp h
  simp only [Except.ok.injEq, Prod.mk.injEq] at h
  obtain ⟨rfl, rfl⟩ := h
  exact except_bind_ok.mpr ⟨_, readOperand_withPsl h1, rfl⟩

theorem addressOperand_withPsl {sp : Specifier} {k k' : Cursor} {a : Word}
    (h : addressOperand sp k = .ok (a, k')) : addressOperand sp (k.withPsl p) = .ok (a, k'.withPsl p) := by
  unfold addressOperand at h ⊢
  split at h
  · next hl => rw [if_pos hl]; exact operandAddress_withPsl h
  · simp at h

theorem readFloating_withPsl {t : FType} {sp : Specifier} {k k' : Cursor} {v : Nat}
    (h : readFloating t sp k = .ok (v, k')) : readFloating t sp (k.withPsl p) = .ok (v, k'.withPsl p) := by
  obtain ⟨⟨w, k1⟩, h1, h⟩ := except_bind_ok.mp h
  obtain ⟨_, h2, h⟩ := except_bind_ok.mp h
  simp only [Except.ok.injEq, Prod.mk.injEq] at h
  obtain ⟨rfl, rfl⟩ := h
  exact except_bind_ok.mpr ⟨_, readOperand_withPsl h1, except_bind_ok.mpr ⟨_, h2, rfl⟩⟩

theorem locate_withPsl {acc : Access} {ty : DataType} {sp : Specifier} {k k' : Cursor} {l : Location}
    (h : locate acc ty sp k = .ok (l, k')) : locate acc ty sp (k.withPsl p) = .ok (l, k'.withPsl p) := by
  unfold locate at h ⊢
  split at h
  · next hl =>
    rw [if_pos hl]
    split at h
    · simp only [Except.ok.injEq, Prod.mk.injEq] at h
      obtain ⟨rfl, rfl⟩ := h
      rfl
    · obtain ⟨⟨a, k1⟩, hb, h⟩ := except_bind_ok.mp h
      simp only [Except.ok.injEq, Prod.mk.injEq] at h
      obtain ⟨rfl, rfl⟩ := h
      exact except_bind_ok.mpr ⟨_, operandAddress_withPsl hb, rfl⟩
  · simp at h

theorem location_read_withPsl (l : Location) (ty : DataType) (s : State) :
    l.read ty (s.withPsl p) = l.read ty s := by
  cases l with
  | register r => rw [Location.read, Location.read, readRegister_withPsl]
  | memory a => rfl

theorem location_write_withPsl (l : Location) (ty : DataType) (v : Nat) (s : State) :
    l.write ty v (s.withPsl p) = (l.write ty v s).withPsl p := by
  cases l with
  | register r => exact writeRegs_withPsl _ _ _ _
  | memory a => rfl

theorem modifyFloating_withPsl {t : FType} {sp : Specifier} {k k' : Cursor} {l : Location} {v : Nat}
    (h : modifyFloating t sp k = .ok (l, v, k')) :
    modifyFloating t sp (k.withPsl p) = .ok (l, v, k'.withPsl p) := by
  obtain ⟨⟨l1, k1⟩, h1, h⟩ := except_bind_ok.mp h
  obtain ⟨w, h2, h⟩ := except_bind_ok.mp h
  obtain ⟨_, h3, h⟩ := except_bind_ok.mp h
  simp only [Except.ok.injEq, Prod.mk.injEq] at h
  obtain ⟨rfl, rfl, rfl⟩ := h
  exact except_bind_ok.mpr ⟨_, locate_withPsl h1, except_bind_ok.mpr ⟨w, (location_read_withPsl _ _ _).trans h2,
    except_bind_ok.mpr ⟨_, h3, rfl⟩⟩⟩

end Evaluation

section OperandLists

theorem operands3_withPsl {o1 o2 o3 : Specifier} {s : State} {op : Opcode} {l : BitVec 16} {a1 a2 : Word} {k : Cursor}
    (h : operands3 op o1 o2 o3 s = .ok (l, a1, a2, k)) : operands3 op o1 o2 o3 (s.withPsl p) = .ok (l, a1, a2, k.withPsl p) := by
  obtain ⟨_, g1, h⟩ := except_bind_ok.mp h
  obtain ⟨_, g2, h⟩ := except_bind_ok.mp h
  obtain ⟨_, g3, h⟩ := except_bind_ok.mp h
  simp only [Except.ok.injEq, Prod.mk.injEq] at h
  obtain ⟨rfl, rfl, rfl, rfl⟩ := h
  exact except_bind_ok.mpr ⟨_, readWordOperand_withPsl g1,
    except_bind_ok.mpr ⟨_, addressOperand_withPsl g2,
    except_bind_ok.mpr ⟨_, addressOperand_withPsl g3,
    rfl⟩⟩⟩

theorem operands5_withPsl {o1 o2 o3 o4 o5 : Specifier} {s : State} {op : Opcode} {l1 l2 : BitVec 16} {a1 a2 : Word} {f : Byte} {k : Cursor}
    (h : operands5 op o1 o2 o3 o4 o5 s = .ok (l1, a1, f, l2, a2, k)) : operands5 op o1 o2 o3 o4 o5 (s.withPsl p) = .ok (l1, a1, f, l2, a2, k.withPsl p) := by
  obtain ⟨_, g1, h⟩ := except_bind_ok.mp h
  obtain ⟨_, g2, h⟩ := except_bind_ok.mp h
  obtain ⟨_, g3, h⟩ := except_bind_ok.mp h
  obtain ⟨_, g4, h⟩ := except_bind_ok.mp h
  obtain ⟨_, g5, h⟩ := except_bind_ok.mp h
  simp only [Except.ok.injEq, Prod.mk.injEq] at h
  obtain ⟨rfl, rfl, rfl, rfl, rfl, rfl⟩ := h
  exact except_bind_ok.mpr ⟨_, readWordOperand_withPsl g1,
    except_bind_ok.mpr ⟨_, addressOperand_withPsl g2,
    except_bind_ok.mpr ⟨_, readByteOperand_withPsl g3,
    except_bind_ok.mpr ⟨_, readWordOperand_withPsl g4,
    except_bind_ok.mpr ⟨_, addressOperand_withPsl g5,
    rfl⟩⟩⟩⟩⟩

theorem loccOperands_withPsl {o1 o2 o3 : Specifier} {s : State} {c : Byte} {l : BitVec 16} {a : Word} {k : Cursor}
    (h : loccOperands o1 o2 o3 s = .ok (c, l, a, k)) : loccOperands o1 o2 o3 (s.withPsl p) = .ok (c, l, a, k.withPsl p) := by
  obtain ⟨_, g1, h⟩ := except_bind_ok.mp h
  obtain ⟨_, g2, h⟩ := except_bind_ok.mp h
  obtain ⟨_, g3, h⟩ := except_bind_ok.mp h
  simp only [Except.ok.injEq, Prod.mk.injEq] at h
  obtain ⟨rfl, rfl, rfl, rfl⟩ := h
  exact except_bind_ok.mpr ⟨_, readByteOperand_withPsl g1,
    except_bind_ok.mpr ⟨_, readWordOperand_withPsl g2,
    except_bind_ok.mpr ⟨_, addressOperand_withPsl g3,
    rfl⟩⟩⟩

theorem matchcOperands_withPsl {o1 o2 o3 o4 : Specifier} {s : State} {ol sl : BitVec 16} {oa sa : Word} {k : Cursor}
    (h : matchcOperands o1 o2 o3 o4 s = .ok (ol, oa, sl, sa, k)) : matchcOperands o1 o2 o3 o4 (s.withPsl p) = .ok (ol, oa, sl, sa, k.withPsl p) := by
  obtain ⟨_, g1, h⟩ := except_bind_ok.mp h
  obtain ⟨_, g2, h⟩ := except_bind_ok.mp h
  obtain ⟨_, g3, h⟩ := except_bind_ok.mp h
  obtain ⟨_, g4, h⟩ := except_bind_ok.mp h
  simp only [Except.ok.injEq, Prod.mk.injEq] at h
  obtain ⟨rfl, rfl, rfl, rfl, rfl⟩ := h
  exact except_bind_ok.mpr ⟨_, readWordOperand_withPsl g1,
    except_bind_ok.mpr ⟨_, addressOperand_withPsl g2,
    except_bind_ok.mpr ⟨_, readWordOperand_withPsl g3,
    except_bind_ok.mpr ⟨_, addressOperand_withPsl g4,
    rfl⟩⟩⟩⟩

theorem movtcOperands_withPsl {o1 o2 o3 o4 o5 o6 : Specifier} {s : State} {sl dl : BitVec 16} {a ta d : Word} {f : Byte} {k : Cursor}
    (h : movtcOperands o1 o2 o3 o4 o5 o6 s = .ok (sl, a, f, ta, dl, d, k)) : movtcOperands o1 o2 o3 o4 o5 o6 (s.withPsl p) = .ok (sl, a, f, ta, dl, d, k.withPsl p) := by
  obtain ⟨_, g1, h⟩ := except_bind_ok.mp h
  obtain ⟨_, g2, h⟩ := except_bind_ok.mp h
  obtain ⟨_, g3, h⟩ := except_bind_ok.mp h
  obtain ⟨_, g4, h⟩ := except_bind_ok.mp h
  obtain ⟨_, g5, h⟩ := except_bind_ok.mp h
  obtain ⟨_, g6, h⟩ := except_bind_ok.mp h
  simp only [Except.ok.injEq, Prod.mk.injEq] at h
  obtain ⟨rfl, rfl, rfl, rfl, rfl, rfl, rfl⟩ := h
  exact except_bind_ok.mpr ⟨_, readWordOperand_withPsl g1,
    except_bind_ok.mpr ⟨_, addressOperand_withPsl g2,
    except_bind_ok.mpr ⟨_, readByteOperand_withPsl g3,
    except_bind_ok.mpr ⟨_, addressOperand_withPsl g4,
    except_bind_ok.mpr ⟨_, readWordOperand_withPsl g5,
    except_bind_ok.mpr ⟨_, addressOperand_withPsl g6,
    rfl⟩⟩⟩⟩⟩⟩

theorem sub2Operands_withPsl {o1 o2 : Specifier} {s : State} {t : FType} {op : Opcode} {b a : Nat} {l : Location} {k : Cursor}
    (h : sub2Operands t op o1 o2 s = .ok (b, l, a, k)) : sub2Operands t op o1 o2 (s.withPsl p) = .ok (b, l, a, k.withPsl p) := by
  obtain ⟨_, g1, h⟩ := except_bind_ok.mp h
  obtain ⟨_, g2, h⟩ := except_bind_ok.mp h
  simp only [Except.ok.injEq, Prod.mk.injEq] at h
  obtain ⟨rfl, rfl, rfl, rfl⟩ := h
  exact except_bind_ok.mpr ⟨_, readFloating_withPsl g1,
    except_bind_ok.mpr ⟨_, modifyFloating_withPsl g2,
    rfl⟩⟩

theorem sub3Operands_withPsl {o1 o2 o3 : Specifier} {s : State} {t : FType} {op : Opcode} {b a : Nat} {l : Location} {k : Cursor}
    (h : sub3Operands t op o1 o2 o3 s = .ok (b, a, l, k)) : sub3Operands t op o1 o2 o3 (s.withPsl p) = .ok (b, a, l, k.withPsl p) := by
  obtain ⟨_, g1, h⟩ := except_bind_ok.mp h
  obtain ⟨_, g2, h⟩ := except_bind_ok.mp h
  obtain ⟨_, g3, h⟩ := except_bind_ok.mp h
  simp only [Except.ok.injEq, Prod.mk.injEq] at h
  obtain ⟨rfl, rfl, rfl, rfl⟩ := h
  exact except_bind_ok.mpr ⟨_, readFloating_withPsl g1,
    except_bind_ok.mpr ⟨_, readFloating_withPsl g2,
    except_bind_ok.mpr ⟨_, locate_withPsl g3,
    rfl⟩⟩⟩

end OperandLists

section Loops

theorem compareEqualLength_withPsl (s : State) : ∀ (l : Nat) (a1 a2 : Word) (cc : CC),
    compareEqualLength (s.withPsl p) l a1 a2 cc = compareEqualLength s l a1 a2 cc
  | 0, _, _, _ => rfl
  | l + 1, a1, a2, cc => by
    simp only [compareEqualLength, compareEqualLength_withPsl s l]; rfl

theorem compareFilled_withPsl (s : State) (f : Byte) : ∀ (n : Nat) (t : Comparison),
    compareFilled (s.withPsl p) f n t = compareFilled s f n t
  | 0, _ => rfl
  | n + 1, t => by
    simp only [compareFilled, compareFilled_withPsl s f n]; rfl

theorem locateByte_withPsl (s : State) (c : Byte) : ∀ (l : Nat) (a : Word),
    locateByte (s.withPsl p) c l a = locateByte s c l a
  | 0, _ => rfl
  | l + 1, a => by simp only [locateByte, locateByte_withPsl s c l]; rfl

theorem drawBytes_withPsl : ∀ (as : List Word) (s : State),
    (s.withPsl p).drawBytes as = (s.drawBytes as).withPsl p
  | [], _ => rfl
  | a :: as, s => drawBytes_withPsl as { s.storeBytes a [Config.freeByte s.draws] with draws := s.draws + 1 }

theorem setRegs_withPsl : ∀ (ws : List (Reg × Word)) (s : State),
    (s.withPsl p).setRegs ws = (s.setRegs ws).withPsl p
  | [], _ => rfl
  | (n, v) :: ws, s => setRegs_withPsl ws (s.setReg n v)

/-- A completed instruction writes the condition codes into the PSL it started with. -/
theorem complete_withPsl (s : State) (ws : List (Reg × Word)) (cc : CC) (pc : Word) :
    (s.withPsl p).complete ws cc pc = (s.complete ws cc pc).withPsl (p.setCC cc) := by
  rw [State.complete, State.complete, setRegs_withPsl]; rfl

end Loops

end Sys2Proof.Machine
end

