-- ==== Sys2Proof/Laws/Strings.lean ====
section
/-! SUPPORT. What the loops of the string instructions reach (41_character_string.md R136 to R139, R142), byte by byte:
one lemma for equal strings and one for the first difference, or the first match. -/

namespace Sys2Proof.Machine

@[simp] theorem offset_zero (a : Word) : offset a 0 = a := by simp [offset]

theorem offset_succ (a : Word) (i : Nat) : offset (a + 1) i = offset a (i + 1) := by
  rw [offset, offset, Nat.add_comm i 1, BitVec.ofNat_add, BitVec.add_assoc]; rfl

/-- `offset_succ` with the 1 as `simp` writes it. -/
theorem offset_succ_lit (a : Word) (i : Nat) : offset (a + 1#32) i = offset a (i + 1) := offset_succ a i

theorem byteCC_self (b : Byte) : byteCC b b = equalCC := by
  simp [byteCC, equalCC, BitVec.slt, BitVec.ult]

section Compare

/-- CMPC3 over equal strings. -/
theorem compareEqualLength_equal (s : State) : ∀ (l : Nat) (a1 a2 : Word),
    (∀ i, i < l → s.readByte (offset a1 i) = s.readByte (offset a2 i)) →
    compareEqualLength s l a1 a2 equalCC = { l1 := 0, a1 := offset a1 l, l2 := 0, a2 := offset a2 l, cc := equalCC }
  | 0, a1, a2, _ => by simp [compareEqualLength]
  | l + 1, a1, a2, h => by
    have h0 : s.readByte a1 = s.readByte a2 := by simpa using h 0 (by omega)
    rw [compareEqualLength]
    simp only [h0, if_true, byteCC_self]
    rw [compareEqualLength_equal s l _ _ fun i hi => by rw [offset_succ, offset_succ]; exact h (i + 1) (by omega)]
    rw [offset_succ, offset_succ]

/-- CMPC3 stops at the first byte that differs. -/
theorem compareEqualLength_differ (s : State) : ∀ (j l : Nat) (a1 a2 : Word) (cc : CC), j < l →
    (∀ i, i < j → s.readByte (offset a1 i) = s.readByte (offset a2 i)) →
    s.readByte (offset a1 j) ≠ s.readByte (offset a2 j) →
    compareEqualLength s l a1 a2 cc =
      { l1 := l - j, a1 := offset a1 j, l2 := l - j, a2 := offset a2 j,
        cc := byteCC (s.readByte (offset a1 j)) (s.readByte (offset a2 j)) }
  | 0, l + 1, a1, a2, cc, _, _, hd => by
    simp only [offset_zero] at hd
    rw [compareEqualLength]
    simp only [if_neg hd, offset_zero, Nat.sub_zero]
  | j + 1, l + 1, a1, a2, cc, hj, he, hd => by
    have h0 : s.readByte a1 = s.readByte a2 := by simpa using he 0 (by omega)
    rw [compareEqualLength]
    simp only [h0, if_true]
    rw [compareEqualLength_differ s j l _ _ _ (by omega)
      (fun i hi => by rw [offset_succ, offset_succ]; exact he (i + 1) (by omega))
      (by rw [offset_succ, offset_succ]; exact hd)]
    simp only [offset_succ, Nat.add_sub_add_right]

/-- Byte `i` of a string of length `l`, extended with the fill byte (R137). -/
def filled (s : State) (f : Byte) (l : Nat) (a : Word) (i : Nat) : Byte :=
  if i < l then s.readByte (offset a i) else f

theorem filled_zero (s : State) (f : Byte) (l : Nat) (a : Word) :
    filled s f l a 0 = if l = 0 then f else s.readByte a := by
  cases l <;> simp [filled]

theorem filled_step (s : State) (f : Byte) (l : Nat) (a : Word) (i : Nat) :
    filled s f (l - 1) (if l = 0 then a else a + 1) i = filled s f l a (i + 1) := by
  cases l with
  | zero => simp [filled]
  | succ l => simp [filled, offset_succ_lit]

theorem offset_step (l n : Nat) (a : Word) :
    offset (if l = 0 then a else a + 1) (min n (l - 1)) = offset a (min (n + 1) l) := by
  cases l with
  | zero => simp
  | succ l => simp [offset_succ_lit]

/-- CMPC5 over strings that are equal when the shorter one is extended. -/
theorem compareFilled_equal (s : State) (f : Byte) : ∀ (n : Nat) (t : Comparison), max t.l1 t.l2 = n → t.cc = equalCC →
    (∀ i, i < n → filled s f t.l1 t.a1 i = filled s f t.l2 t.a2 i) →
    compareFilled s f n t =
      { l1 := 0, a1 := offset t.a1 t.l1, l2 := 0, a2 := offset t.a2 t.l2, cc := equalCC }
  | 0, t, hn, hcc, _ => by
    obtain ⟨l1, a1, l2, a2, cc⟩ := t
    have h1 : l1 = 0 := by simp only at hn; omega
    have h2 : l2 = 0 := by simp only at hn; omega
    subst h1; subst h2; subst hcc
    simp [compareFilled]
  | n + 1, t, hn, hcc, h => by
    have h0 := h 0 (by omega)
    rw [filled_zero, filled_zero] at h0
    rw [compareFilled]
    simp only [h0, if_true, byteCC_self]
    rw [compareFilled_equal s f n _ (by simp only; omega) rfl fun i hi => by
      simp only [filled_step]; exact h (i + 1) (by omega)]
    have h1 := offset_step t.l1 (t.l1 - 1) t.a1
    have h2 := offset_step t.l2 (t.l2 - 1) t.a2
    simp only [Nat.min_self] at h1 h2
    simp only [h1, h2]
    congr 2 <;> omega

/-- CMPC5 stops at the first byte that differs when the shorter string is extended. -/
theorem compareFilled_differ (s : State) (f : Byte) : ∀ (j n : Nat) (t : Comparison), j < n →
    (∀ i, i < j → filled s f t.l1 t.a1 i = filled s f t.l2 t.a2 i) →
    filled s f t.l1 t.a1 j ≠ filled s f t.l2 t.a2 j →
    compareFilled s f n t =
      { l1 := t.l1 - j, a1 := offset t.a1 (min j t.l1), l2 := t.l2 - j, a2 := offset t.a2 (min j t.l2),
        cc := byteCC (filled s f t.l1 t.a1 j) (filled s f t.l2 t.a2 j) }
  | 0, n + 1, t, _, _, hd => by
    simp only [filled_zero] at hd ⊢
    rw [compareFilled]
    simp only [if_neg hd, Nat.zero_min, offset_zero, Nat.sub_zero]
  | j + 1, n + 1, t, hj, he, hd => by
    have h0 := he 0 (by omega)
    rw [filled_zero, filled_zero] at h0
    rw [compareFilled]
    simp only [h0, if_true]
    rw [compareFilled_differ s f j n _ (by omega)
      (fun i hi => by simp only [filled_step]; exact he (i + 1) (by omega))
      (by simp only [filled_step]; exact hd)]
    simp only [filled_step, offset_step, Nat.sub_sub, Nat.add_comm 1 j]

end Compare

section Locate

/-- LOCC finds the lowest byte equal to the character. -/
theorem locateByte_found (s : State) (c : Byte) : ∀ (j l : Nat) (a : Word), j < l →
    (∀ i, i < j → s.readByte (offset a i) ≠ c) → s.readByte (offset a j) = c →
    locateByte s c l a = (l - j, offset a j)
  | 0, l + 1, a, _, _, h => by
    simp only [offset_zero] at h
    simp [locateByte, h]
  | j + 1, l + 1, a, hj, hn, h => by
    have h0 : s.readByte a ≠ c := by simpa using hn 0 (by omega)
    rw [locateByte, if_neg h0, locateByte_found s c j l _ (by omega)
      (fun i hi => by rw [offset_succ]; exact hn (i + 1) (by omega)) (by rw [offset_succ]; exact h)]
    rw [offset_succ, Nat.add_sub_add_right]

/-- LOCC over a string without the character. -/
theorem locateByte_none (s : State) (c : Byte) : ∀ (l : Nat) (a : Word),
    (∀ i, i < l → s.readByte (offset a i) ≠ c) → locateByte s c l a = (0, offset a l)
  | 0, a, _ => by simp [locateByte]
  | l + 1, a, hn => by
    have h0 : s.readByte a ≠ c := by simpa using hn 0 (by omega)
    rw [locateByte, if_neg h0, locateByte_none s c l _ fun i hi => by
      rw [offset_succ]; exact hn (i + 1) (by omega)]
    rw [offset_succ]

end Locate

section Match

theorem matchesAt_iff {s : State} {ol : Nat} {oa sa : Word} {p : Nat} :
    matchesAt s ol oa sa p = true ↔ ∀ j, j < ol → s.readByte (offset sa (p + j)) = s.readByte (offset oa j) := by
  simp [matchesAt, List.all_eq_true]

/-- MATCHC finds the lowest offset at which the object stands in the source (R139, D15). -/
theorem findMatch_some {s : State} {ol sl : Nat} {oa sa : Word} {p : Nat} (hp : p + ol ≤ sl)
    (h : matchesAt s ol oa sa p = true) (hn : ∀ q, q < p → matchesAt s ol oa sa q = false) :
    findMatch s ol oa sl sa = some p := by
  unfold findMatch
  split
  · next h0 =>
    subst h0
    cases p with
    | zero => rfl
    | succ p => simpa [matchesAt] using hn 0 (by omega)
  · rw [List.find?_range_eq_some]
    exact ⟨h, by simp; omega, fun q hq => by simp [hn q hq]⟩

theorem findMatch_none {s : State} {ol sl : Nat} {oa sa : Word} (h0 : 0 < ol)
    (hn : ∀ p, p + ol ≤ sl → matchesAt s ol oa sa p = false) : findMatch s ol oa sl sa = none := by
  unfold findMatch
  rw [if_neg (by omega), List.find?_eq_none]
  intro p hp
  rw [List.mem_range] at hp
  simp [hn p (by omega)]

end Match

section Stores

/-- After a store at `d`, byte `i` of the stored string is byte `i` of the bytes (20_memory.md R42, R48). -/
theorem readByte_storeBytes {s : State} {d : Word} {bs : List Byte} (hm : s.mem.wf = true) (hl : bs.length ≤ 2 ^ 32)
    {i : Nat} (hi : i < bs.length) : (s.storeBytes d bs).readByte (offset d i) = bs[i] :=
  Memory.read_writeBytes bs d i hi hm hl

/-- A store at `d` leaves every byte outside the stored string alone. -/
theorem readByte_storeBytes_of_ne {s : State} {d x : Word} {bs : List Byte}
    (h : ∀ i, i < bs.length → x ≠ offset d i) : (s.storeBytes d bs).readByte x = s.readByte x :=
  Memory.read_writeBytes_of_not_mem bs _ _ fun hx => by
    obtain ⟨i, hi, he⟩ := mem_stringAddrs.mp hx
    exact h i hi he.symm

theorem readString_getElem_offset (s : State) (a : Word) (n i : Nat) (h : i < (s.mem.readString a n).length) :
    (s.mem.readString a n)[i] = s.readByte (offset a i) := Memory.readString_getElem _ _ _ _ h

/-- Free values stored at the addresses of a string: byte `i` is the draw number `i` (R142, D16). -/
theorem readByte_drawBytes (n : Nat) : ∀ {s : State} (d : Word), s.mem.wf = true → n ≤ 2 ^ 32 → ∀ i, i < n →
    (s.drawBytes (stringAddrs d n)).readByte (offset d i) = Config.freeByte (s.draws + i) := by
  induction n with
  | zero => exact fun _ _ _ i hi => absurd hi (Nat.not_lt_zero i)
  | succ n ih =>
    intro s d hm hn i hi
    rw [stringAddrs_succ, State.drawBytes]
    cases i with
    | zero =>
      rw [offset_zero, drawBytes_readByte]
      · have h : (s.storeBytes d [Config.freeByte s.draws]).readByte (offset d 0) = Config.freeByte s.draws :=
          readByte_storeBytes (bs := [Config.freeByte s.draws]) hm
            (Nat.le_trans (Nat.succ_le_succ (Nat.zero_le n)) hn) (i := 0) Nat.zero_lt_one
        rw [offset_zero] at h
        exact h
      · intro h
        obtain ⟨j, hj, he⟩ := mem_stringAddrs.mp h
        exact add_ofNat_ne_self (Nat.lt_of_lt_of_le (Nat.succ_lt_succ hj) hn) he.symm
    | succ i =>
      rw [← offset_succ, ih (d + 1) (Memory.writeBytes_wf _ _ hm) (Nat.le_of_succ_le hn) i (Nat.lt_of_succ_lt_succ hi),
        Nat.add_assoc, Nat.add_comm 1 i]

end Stores

section Tables

/-- The destination is clear of the table when none of its bytes is one of the table's 256 (R142). -/
theorem overlapsTable_eq_false {ta d : Word} {dl : Nat} :
    overlapsTable ta d dl = false ↔ ∀ i j, i < dl → j < 256 → offset d i ≠ offset ta j := by
  have hx : ∀ x : Word, (x - ta).toNat < 256 ↔ ∃ j, j < 256 ∧ x = offset ta j := by
    intro x
    constructor
    · intro h
      refine ⟨(x - ta).toNat, h, ?_⟩
      rw [offset, BitVec.ofNat_toNat, BitVec.setWidth_eq]
      rw [BitVec.add_comm, BitVec.sub_add_cancel]
    · rintro ⟨j, hj, rfl⟩
      have : offset ta j - ta = BitVec.ofNat 32 j := by
        rw [offset, BitVec.add_comm, BitVec.add_sub_cancel]
      rw [this]
      simp; omega
  simp only [overlapsTable, List.any_eq_false, decide_eq_true_eq, hx, mem_stringAddrs]
  constructor
  · intro h i j hi hj he
    exact h _ ⟨i, hi, rfl⟩ ⟨j, hj, he⟩
  · rintro h x ⟨i, hi, rfl⟩ ⟨j, hj, he⟩
    exact h i j hi hj he

end Tables

end Sys2Proof.Machine
end

