-- ==== Sys2Proof/Tests/Slice0.lean ====
section
/-! SUPPORT. Small tests, each about one step or one decoded instruction. Expected results are the vectors of
spec/95_test_vectors.md (named in each comment) or its rules' own examples, never the model's answer. -/

namespace Sys2Proof.Tests

set_option Elab.async false

open Sys2Proof.Machine

/-- A state at PC 0x200 with these instruction bytes there, these registers and these other bytes. -/
def start (code : List Byte) (rs : List (Reg × Word)) (data : List (Word × List Byte)) : State :=
  let s := (State.reset.setRegs rs).setPc 0x200
  { s with mem := data.foldl (fun m d => m.writeBytes d.1 d.2) (s.mem.writeBytes 0x200 code) }

/-- The next state, if there is one. -/
def next? : Result → Option State
  | .next s => some s
  | _ => none

/-- The refusal, if there is one. -/
def refusal? : Result → Option Refusal
  | .refused r => some r
  | _ => none

/-- The name of the fault, its address and kind, and the state it leaves, if there is one. -/
def fault? : Result → Option (String × State)
  | .fault (.reservedOperand s) => some ("reservedOperand", s)
  | .fault (.floatingOverflow s) => some ("floatingOverflow", s)
  | .fault (.floatingUnderflow s) => some ("floatingUnderflow", s)
  | .fault (.accessFault _ _ s) => some ("accessFault", s)
  | _ => none

/-- Registers, condition codes N Z V C and PC after one step. -/
def after (s : State) (rs : List Reg) : Option (List Word × CC × Word) :=
  (next? (step s)).map fun t => (rs.map t.getReg, t.cc, t.pc)

/-- Memory bytes after one step. -/
def bytesAfter (s : State) (a : Word) (n : Nat) : Option (List Byte) :=
  (next? (step s)).map fun t => t.mem.readString a n

def nzvc (n z v c : Bool) : CC := { n := n, z := z, v := v, c := c }

/-! Decoding: words written out from the encodings of 30_encoding.md and the vectors DE1 to DE18. -/

/-- The instruction the decoder reads from a list of bytes. -/
def decoded (bs : List Byte) : Option Instr :=
  match decode bs with
  | .ok (i, _) => some i
  | .error _ => none

/-- DE1. -/
theorem test_decode_tstf : decoded [0x53, 0x50] = some (.tstf (.plain (.register 0))) := by decide

/-- DE2: two opcode bytes, FD first. -/
theorem test_decode_tstg : decoded [0xFD, 0x53, 0x52] = some (.tstg (.plain (.register 2))) := by decide

/-- DE4: PC-relative byte displacement. -/
theorem test_decode_tstd :
    decoded [0x73, 0xAF, 0x10] = some (.tstd (.plain (.displacement 15 (.byte 0x10)))) := by decide

/-- `TSTH (R6)`. -/
theorem test_decode_tsth : decoded [0xFD, 0x73, 0x66] = some (.tsth (.plain (.deferred 6))) := by decide

/-- DE6: index mode. -/
theorem test_decode_index : decoded [0x53, 0x41, 0x62] = some (.tstf (.index 1 (.deferred 2))) := by decide

/-- R106's bytes. -/
theorem test_decode_subf2 :
    decoded [0x42, 0x51, 0x52] = some (.subf2 (.plain (.register 1)) (.plain (.register 2))) := by decide

/-- P3's first instruction. -/
theorem test_decode_subf3 : decoded [0x43, 0x61, 0x62, 0x63]
    = some (.subf3 (.plain (.deferred 1)) (.plain (.deferred 2)) (.plain (.deferred 3))) := by decide

/-- P3's `SUBD2 #1.0, R4`. -/
theorem test_decode_subd2 :
    decoded [0x62, 0x08, 0x54] = some (.subd2 (.plain (.literal 8)) (.plain (.register 4))) := by decide

/-- R60 with -(R2), (R3)+, and a word displacement from R5 (modes 7, 8, C). -/
theorem test_decode_subd3 : decoded [0x63, 0x72, 0x83, 0xC5, 0x34, 0x12]
    = some (.subd3 (.plain (.autodecrement 2)) (.plain (.autoincrement 3))
        (.plain (.displacement 5 (.word 0x1234)))) := by decide

/-- V26's bytes. -/
theorem test_decode_subg2 :
    decoded [0xFD, 0x42, 0x52, 0x54] = some (.subg2 (.plain (.register 2)) (.plain (.register 4))) := by
  decide

/-- R64: modes 9, B and F. -/
theorem test_decode_subg3 : decoded [0xFD, 0x43, 0x91, 0xB2, 0xFF, 0xF3, 0x78, 0x56, 0x34, 0x12]
    = some (.subg3 (.plain (.autoincrementDeferred 1)) (.plain (.displacementDeferred 2 (.byte 0xFF)))
        (.plain (.displacementDeferred 3 (.long 0x12345678)))) := by decide

/-- V33's bytes. -/
theorem test_decode_subh2 :
    decoded [0xFD, 0x62, 0x50, 0x54] = some (.subh2 (.plain (.register 0)) (.plain (.register 4))) := by
  decide

/-- R64: modes D and E, and an index over absolute. -/
theorem test_decode_subh3 :
    decoded [0xFD, 0x63, 0xD1, 0xFE, 0xFF, 0xE2, 0, 1, 0, 0, 0x44, 0x9F, 0, 0x10, 0, 0]
    = some (.subh3 (.plain (.displacementDeferred 1 (.word 0xFFFE))) (.plain (.displacement 2 (.long 0x100)))
        (.index 4 (.absolute 0x1000))) := by decide

/-- P1's bytes. -/
theorem test_decode_movc3 : decoded [0x28, 0x04, 0x9F, 0, 0x10, 0, 0, 0x9F, 2, 0x20, 0, 0]
    = some (.movc3 (.plain (.literal 4)) (.plain (.absolute 0x1000)) (.plain (.absolute 0x2002))) := by decide

/-- CM3's bytes. -/
theorem test_decode_cmpc3 : decoded [0x29, 0x04, 0x9F, 0, 0x10, 0, 0, 0x9F, 0, 0x20, 0, 0]
    = some (.cmpc3 (.plain (.literal 4)) (.plain (.absolute 0x1000)) (.plain (.absolute 0x2000))) := by decide

/-- MV9's bytes: an immediate word. -/
theorem test_decode_movc5 :
    decoded [0x2C, 0x8F, 0, 0x80, 0x9F, 0, 0, 1, 0, 0, 1, 0x9F, 0, 0x20, 0, 0]
    = some (.movc5 (.plain (.immediate 0x8000)) (.plain (.absolute 0x10000)) (.plain (.literal 0))
        (.plain (.literal 1)) (.plain (.absolute 0x2000))) := by decide

/-- CM8's bytes. -/
theorem test_decode_cmpc5 : decoded [0x2D, 2, 0x9F, 0, 0x10, 0, 0, 0x20, 3, 0x9F, 0, 0x20, 0, 0]
    = some (.cmpc5 (.plain (.literal 2)) (.plain (.absolute 0x1000)) (.plain (.literal 0x20))
        (.plain (.literal 3)) (.plain (.absolute 0x2000))) := by decide

/-- MT1's bytes. -/
theorem test_decode_movtc :
    decoded [0x2E, 2, 0x9F, 0, 0x10, 0, 0, 0x20, 0x9F, 0, 0x40, 0, 0, 3, 0x9F, 0, 0x20, 0, 0]
    = some (.movtc (.plain (.literal 2)) (.plain (.absolute 0x1000)) (.plain (.literal 0x20))
        (.plain (.absolute 0x4000)) (.plain (.literal 3)) (.plain (.absolute 0x2000))) := by decide

/-- MC1's bytes. -/
theorem test_decode_matchc : decoded [0x39, 2, 0x9F, 0, 0x10, 0, 0, 6, 0x9F, 0, 0x20, 0, 0]
    = some (.matchc (.plain (.literal 2)) (.plain (.absolute 0x1000)) (.plain (.literal 6))
        (.plain (.absolute 0x2000))) := by decide

/-- LC5's bytes: an immediate byte. -/
theorem test_decode_locc : decoded [0x3A, 0x8F, 0x44, 5, 0x9F, 0, 0x30, 0, 0]
    = some (.locc (.plain (.immediate 0x44)) (.plain (.literal 5)) (.plain (.absolute 0x3000))) := by decide

/-- DE12. -/
theorem test_decode_skpc : decoded [0x3B, 0x2C, 5, 0x66]
    = some (.skpc (.plain (.literal 0x2C)) (.plain (.literal 5)) (.plain (.deferred 6))) := by decide

/-- DE13, with the operand lists of R143, R144 and R146. -/
theorem test_decode_scanc : decoded [0x2A, 0x50, 0x61, 0x62, 0x3F]
    = some (.scanc (.plain (.register 0)) (.plain (.deferred 1)) (.plain (.deferred 2))
        (.plain (.literal 0x3F))) := by decide

theorem test_decode_spanc : decoded [0x2B, 0x50, 0x61, 0x62, 0x3F]
    = some (.spanc (.plain (.register 0)) (.plain (.deferred 1)) (.plain (.deferred 2))
        (.plain (.literal 0x3F))) := by decide

theorem test_decode_movtuc : decoded [0x2F, 0x50, 0x61, 0x01, 0x62, 0x53, 0x64]
    = some (.movtuc (.plain (.register 0)) (.plain (.deferred 1)) (.plain (.literal 1))
        (.plain (.deferred 2)) (.plain (.register 3)) (.plain (.deferred 4))) := by decide

/-- DE14, DE15, DE16. -/
theorem test_decode_unknown :
    decoded [0] = none ∧ decoded [0xFD, 0] = none ∧ decoded [0xFF, 0x42, 0x51, 0x52] = none := by decide

/-- R67, R68: index mode over index mode is rejected. -/
theorem test_decode_double_index : decoded [0x53, 0x41, 0x42, 0x63] = none := by decide

/-- Bit 0 of a table word is the least significant bit of the first byte (FD 53 as "53FD"). -/
theorem test_table_word : decodeTableWord 16 0x53FD = some (.tstg (.plain (.literal 0))) := by decide

/-! WellFormed: one ill-formed term for each check of R64, R66 and R68. -/

/-- Register 15 in modes 8 and 9 is another mode; immediate data wider than the operand. -/
theorem test_not_encodable :
    (Instr.tstf (.plain (.autoincrement 15))).wellFormed = false ∧
    (Instr.tstf (.plain (.autoincrementDeferred 15))).wellFormed = false ∧
    (Instr.tstf (.plain (.immediate 0x100000000))).wellFormed = false := by decide

/-- Short literal as modify, write and address operand; register as address operand (DE10, DE11). -/
theorem test_wrong_access :
    (Instr.subf2 (.plain (.register 1)) (.plain (.literal 8))).wellFormed = false ∧
    (Instr.subf3 (.plain (.register 1)) (.plain (.register 1)) (.plain (.literal 8))).wellFormed = false ∧
    (Instr.movc3 (.plain (.literal 4)) (.plain (.literal 4)) (.plain (.deferred 1))).wellFormed = false ∧
    (Instr.movc3 (.plain (.literal 4)) (.plain (.register 0)) (.plain (.deferred 1))).wellFormed = false := by
  decide

/-- The PC as register operand, and inside D, G and H operands (DE9, DE17, DE18). -/
theorem test_register_runs_into_pc :
    (Instr.tstf (.plain (.register 15))).wellFormed = false ∧
    (Instr.tstd (.plain (.register 14))).wellFormed = false ∧
    (Instr.tstg (.plain (.register 14))).wellFormed = false ∧
    (Instr.tsth (.plain (.register 12))).wellFormed = false ∧
    (Instr.tsth (.plain (.register 11))).wellFormed = true := by decide

/-- Register deferred and autodecrement on the PC; immediate as destination (DE3). -/
theorem test_pc_forms :
    (Instr.tstf (.plain (.deferred 15))).wellFormed = false ∧
    (Instr.tstf (.plain (.autodecrement 15))).wellFormed = false ∧
    (Instr.subf2 (.plain (.register 1)) (.plain (.immediate 8))).wellFormed = false ∧
    (Instr.subf3 (.plain (.register 1)) (.plain (.register 1)) (.plain (.immediate 8))).wellFormed
      = false := by decide

/-- Index mode: the PC as index, a literal, register or immediate base, a base that steps the index register. -/
theorem test_index_forms :
    (Instr.tstf (.index 15 (.deferred 2))).wellFormed = false ∧
    (Instr.tstf (.index 1 (.literal 2))).wellFormed = false ∧
    (Instr.tstf (.index 1 (.register 2))).wellFormed = false ∧
    (Instr.tstf (.index 1 (.immediate 2))).wellFormed = false ∧
    (Instr.tstf (.index 1 (.autoincrement 1))).wellFormed = false ∧
    (Instr.tstf (.index 1 (.autodecrement 1))).wellFormed = false ∧
    (Instr.tstf (.index 1 (.autoincrementDeferred 1))).wellFormed = false ∧
    (Instr.tstf (.index 1 (.autoincrement 2))).wellFormed = true := by decide

/-! Subtraction: the vectors V1 to V40 of 95_test_vectors.md, minuend first. -/

theorem test_fsub_f :
    FType.f.fsub 0x4140 0x4080 = .value 0x4100 ∧ FType.f.fsub 0x4080 0x4080 = .value 0 ∧
    FType.f.fsub 0x4080 0x4140 = .value 0xC100 ∧ FType.f.fsub 0x4080 0 = .value 0x4080 ∧
    FType.f.fsub 0 0x4080 = .value 0xC080 ∧ FType.f.fsub 0x4080 0xCCCD3ECC = .value 0x66664066 ∧
    FType.f.fsub 0x80 0x8080 = .value 0x100 ∧ FType.f.fsub 0x10000 0x4080 = .value 0xC080 ∧
    FType.f.fsub 0x4080 0x10040 = .value 0x4080 := by decide +kernel

/-- V7, V8, V9: ties go away from zero. -/
theorem test_fsub_f_ties :
    FType.f.fsub 0x14C80 0x4080 = .value 0x14C80 ∧ FType.f.fsub 0x24C80 0x4080 = .value 0x24C80 ∧
    FType.f.fsub 0x14C80 0xC080 = .value 0x24C80 := by decide +kernel

/-- V10 to V12: overflow and underflow. -/
theorem test_fsub_f_range :
    FType.f.fsub 0xFFFF7FFF 0xFFFFFFFF = .overflow ∧ FType.f.fsub 0xFFFF7FFF 0xFFFF7FFF = .value 0 ∧
    FType.f.fsub 0xC0 0x80 = .underflow := by decide +kernel

/-- V19 to V24. -/
theorem test_fsub_d :
    FType.d.fsub 0x4140 0x4080 = .value 0x4100 ∧ FType.d.fsub 0x4080 0x4140 = .value 0xC100 ∧
    FType.d.fsub 0x4080 0xCCCDCCCCCCCC3ECC = .value 0x6666666666664066 ∧
    FType.d.fsub 0x0001000000005C80 0x4080 = .value 0x0001000000005C80 ∧
    FType.d.fsub 0xFFFFFFFFFFFF7FFF 0xFFFFFFFFFFFFFFFF = .overflow ∧
    FType.d.fsub 0xC0 0x80 = .underflow := by decide +kernel

/-- V26 to V31. -/
theorem test_fsub_g :
    FType.g.fsub 0x4028 0x4010 = .value 0x4020 ∧ FType.g.fsub 0x4010 0x4028 = .value 0xC020 ∧
    FType.g.fsub 0x4010 0x999A999999993FD9 = .value 0xCCCDCCCCCCCC400C ∧
    FType.g.fsub 0x0001000000004360 0x4010 = .value 0x0001000000004360 ∧
    FType.g.fsub 0xFFFFFFFFFFFF7FFF 0xFFFFFFFFFFFFFFFF = .overflow ∧
    FType.g.fsub 0x18 0x10 = .underflow := by decide +kernel

/-- V33 to V38, V40. -/
theorem test_fsub_h :
    FType.h.fsub 0x80004002 0x4001 = .value 0x4002 ∧ FType.h.fsub 0x4001 0x80004002 = .value 0xC002 ∧
    FType.h.fsub 0x4001 0x999A9999999999999999999999993FFD
      = .value 0xCCCDCCCCCCCCCCCCCCCCCCCCCCCC4000 ∧
    FType.h.fsub 0x00010000000000000000000000004072 0x4001
      = .value 0x00010000000000000000000000004072 ∧
    FType.h.fsub 0xFFFFFFFFFFFFFFFFFFFFFFFFFFFF7FFF 0xFFFFFFFFFFFFFFFFFFFFFFFFFFFFFFFF = .overflow ∧
    FType.h.fsub 0x80000001 0x00000001 = .underflow ∧
    FType.h.fsub 0x00010000 0x4001 = .value 0xC001 := by decide +kernel

/-- Section 2.1: 1.0, 1.5, 2.0, 3.0 and 120 as short literals. -/
theorem test_literals :
    expandLiteral (.floating .f) 0x08 = 0x4080 ∧ expandLiteral (.floating .f) 0x14 = 0x4140 ∧
    expandLiteral (.floating .d) 0x10 = 0x4100 ∧ expandLiteral (.floating .g) 0x0C = 0x4018 ∧
    expandLiteral (.floating .h) 0x3F = 0xE0004007 ∧ expandLiteral (.floating .f) 0 = 0x4000 ∧
    expandLiteral .word 0x3F = 63 := by decide +kernel

/-- V1 as `SUBF2 R1, R2`. -/
theorem test_subf2 : after (start [0x42, 0x51, 0x52] [(1, 0x4080), (2, 0x4140)] []) [1, 2]
    = some ([0x4080, 0x4100], nzvc false false false false, 0x203) := by decide +kernel

/-- V3 as `SUBF3 R1, R2, R3`, and the destination that is also the subtrahend. -/
theorem test_subf3 : after (start [0x43, 0x51, 0x52, 0x53] [(1, 0x4140), (2, 0x4080)] []) [1, 2, 3]
    = some ([0x4140, 0x4080, 0xC100], nzvc true false false false, 0x204) := by decide +kernel

theorem test_subf3_same : after (start [0x43, 0x51, 0x52, 0x51] [(1, 0x4080), (2, 0x4140)] []) [1, 2]
    = some ([0x4100, 0x4140], nzvc false false false false, 0x204) := by decide +kernel

/-- P3's `SUBD2 #1.0, R4`. -/
theorem test_subd2 : after (start [0x62, 0x08, 0x54] [(4, 0x4140), (5, 0)] []) [4, 5]
    = some ([0x4100, 0], nzvc false false false false, 0x203) := by decide +kernel

/-- R109's example: 1.0 - 0.1 in D_floating, through memory with autoincrement and index mode. -/
theorem test_subd3 : after (start [0x63, 0x81, 0x08, 0x43, 0x62] [(1, 0x1000), (2, 0x2000), (3, 2)]
      [(0x1000, [0xCC, 0x3E, 0xCC, 0xCC, 0xCC, 0xCC, 0xCD, 0xCC])]) [1, 3]
      = some ([0x1008, 2], nzvc false false false false, 0x205) ∧
    bytesAfter (start [0x63, 0x81, 0x08, 0x43, 0x62] [(1, 0x1000), (2, 0x2000), (3, 2)]
      [(0x1000, [0xCC, 0x3E, 0xCC, 0xCC, 0xCC, 0xCC, 0xCD, 0xCC])]) 0x2010 8
      = some [0x66, 0x40, 0x66, 0x66, 0x66, 0x66, 0x66, 0x66] := by decide +kernel

/-- V26 as `SUBG2 R2, R4`. -/
theorem test_subg2 : after (start [0xFD, 0x42, 0x52, 0x54] [(2, 0x4010), (4, 0x4028)] []) [2, 4, 5]
    = some ([0x4010, 0x4020, 0], nzvc false false false false, 0x204) := by decide +kernel

/-- R111's example, destination -(R6). -/
theorem test_subg3 :
    after (start [0xFD, 0x43, 0x52, 0x54, 0x76] [(2, 0x4028), (4, 0x4010), (6, 0x1008)] []) [6]
      = some ([0x1000], nzvc true false false false, 0x205) ∧
    bytesAfter (start [0xFD, 0x43, 0x52, 0x54, 0x76] [(2, 0x4028), (4, 0x4010), (6, 0x1008)] []) 0x1000 2
      = some [0x20, 0xC0] := by decide +kernel

/-- V33 as `SUBH2 R0, R4`. -/
theorem test_subh2 : after (start [0xFD, 0x62, 0x50, 0x54] [(0, 0x4001), (4, 0x80004002)] []) [4, 5, 6, 7]
    = some ([0x4002, 0, 0, 0], nzvc false false false false, 0x204) := by decide +kernel

/-- R113's example, in registers. -/
theorem test_subh3 :
    after (start [0xFD, 0x63, 0x50, 0x54, 0x58] [(0, 0x80004002), (4, 0x4001)] []) [8, 9, 10, 11]
    = some ([0xC002, 0, 0, 0], nzvc true false false false, 0x205) := by decide +kernel

/-- V12 and V13: underflow with FU clear stores zero, with FU set faults and leaves `dif` and the PC. -/
theorem test_underflow :
    after (start [0x42, 0x51, 0x52] [(1, 0x80), (2, 0xC0)] []) [2]
      = some ([0], nzvc false true false false, 0x203) ∧
    (let s := start [0x42, 0x51, 0x52] [(1, 0x80), (2, 0xC0)] []
     (fault? (step { s with psl := { s.psl with fu := true } })).map fun f =>
       (f.1, f.2.getReg 2, f.2.pc)) = some ("floatingUnderflow", 0xC0, 0x200) := by decide +kernel

/-- V10: overflow faults. P5 (a): a reserved operand faults. `dif` and the PC are as before. -/
theorem test_arithmetic_faults :
    ((fault? (step (start [0x42, 0x51, 0x52] [(1, 0xFFFFFFFF), (2, 0xFFFF7FFF)] []))).map fun f =>
      (f.1, f.2.getReg 2, f.2.pc)) = some ("floatingOverflow", 0xFFFF7FFF, 0x200) ∧
    ((fault? (step (start [0x42, 0x51, 0x52] [(1, 0x8000), (2, 0x4080)] []))).map fun f =>
      (f.1, f.2.getReg 2, f.2.pc)) = some ("reservedOperand", 0x4080, 0x200) := by decide +kernel

/-- T2, T3, T4 through `TSTF R0`. -/
theorem test_tstf :
    after (start [0x53, 0x50] [(0, 0xC080)] []) [0] = some ([0xC080], nzvc true false false false, 0x202) ∧
    after (start [0x53, 0x50] [(0, 0x10000)] []) [0] = some ([0x10000], nzvc false true false false, 0x202) := by
  decide +kernel

/-- DE8: `TSTD -(R2)`; T9. P3's immediate as `TSTF I^#-1.0`, 6 bytes. -/
theorem test_tstd :
    after (start [0x73, 0x72] [(2, 0x1008)] [(0x1000, [0xFF, 0xFF, 0xFF, 0xFF, 0xFF, 0xFF, 0xFF, 0xFF])]) [2]
      = some ([0x1000], nzvc true false false false, 0x202) ∧
    after (start [0x53, 0x8F, 0x80, 0xC0, 0, 0] [] []) [] = some ([], nzvc true false false false, 0x206) := by
  decide +kernel

/-- T13 (a zero with a fraction bit) and T14 (reserved). -/
theorem test_tstg :
    after (start [0xFD, 0x53, 0x52] [(2, 8)] []) [2] = some ([8], nzvc false true false false, 0x203) ∧
    ((fault? (step (start [0xFD, 0x53, 0x52] [(2, 0x8008)] []))).map fun f => f.1)
      = some "reservedOperand" := by decide +kernel

/-- T17, T16. -/
theorem test_tsth :
    after (start [0xFD, 0x73, 0x66] [(6, 0x1000)] [(0x1000, [1, 0])]) [6]
      = some ([0x1000], nzvc false false false false, 0x203) ∧
    after (start [0xFD, 0x73, 0x66] [(6, 0x1000)] [(0x1000, [0x01, 0xC0])]) [6]
      = some ([0x1000], nzvc true false false false, 0x203) := by decide +kernel

/-- DE4: the displacement is added to the PC after the specifier, (pc + 3) + 0x10. -/
theorem test_pc_relative : after (start [0x73, 0xAF, 0x10] [] [(0x213, [0x80, 0xC0])]) []
    = some ([], nzvc true false false false, 0x203) := by decide +kernel

/-- R64: autoincrement deferred steps by 4 and reads the longword it pointed at. -/
theorem test_autoincrement_deferred :
    after (start [0x53, 0x91] [(1, 0x1000)] [(0x1000, [0, 0x20]), (0x2000, [0x80, 0xC0])]) [1]
    = some ([0x1004], nzvc true false false false, 0x202) := by decide +kernel

/-! Character strings: section 2.4 to 2.8 of 95_test_vectors.md. -/

/-- CM3, CM4. -/
theorem test_cmpc3 :
    after (start [0x29, 4, 0x66, 0x67] [(6, 0x1000), (7, 0x2000)]
      [(0x1000, [0x41, 0x42, 0x43, 0x44]), (0x2000, [0x41, 0x42, 0x58, 0x44])]) [0, 1, 2, 3]
      = some ([2, 0x1002, 2, 0x2002], nzvc true false false true, 0x204) ∧
    after (start [0x29, 1, 0x66, 0x67] [(6, 0x1000), (7, 0x2000)] [(0x1000, [0x80]), (0x2000, [1])])
      [0, 1, 2, 3] = some ([1, 0x1000, 1, 0x2000], nzvc true false false false, 0x204) := by decide +kernel

/-- CM6: a string that wraps from the highest address to 0 (PC relative to 0x200). -/
theorem test_cmpc3_wraps :
    after (start [0x29, 2, 0x66, 0x67] [(6, 0xFFFFFFFF), (7, 0x2000)]
      [(0xFFFFFFFF, [0x41, 0x42]), (0x2000, [0x41, 0x42])]) [0, 1, 2, 3]
      = some ([0, 1, 0, 0x2002], nzvc false true false false, 0x204) := by decide +kernel

/-- CM8, CM10. -/
theorem test_cmpc5 :
    after (start [0x2D, 2, 0x66, 0x20, 3, 0x67] [(6, 0x1000), (7, 0x2000)]
      [(0x1000, [0x41, 0x42]), (0x2000, [0x41, 0x42, 0x43])]) [0, 1, 2, 3]
      = some ([0, 0x1002, 1, 0x2002], nzvc true false false true, 0x206) ∧
    after (start [0x2D, 3, 0x66, 0x20, 2, 0x67] [(6, 0x1000), (7, 0x2000)]
      [(0x1000, [0x41, 0x42, 0x43]), (0x2000, [0x41, 0x42])]) [0, 1, 2, 3]
      = some ([1, 0x1002, 0, 0x2002], nzvc false false false false, 0x206) := by decide +kernel

/-- LC1, LC2. -/
theorem test_locc :
    after (start [0x3A, 0x2C, 5, 0x66] [(2, 77), (6, 0x3000)] [(0x3000, [0x41, 0x42, 0x2C, 0x43, 0x44])])
      [0, 1, 2] = some ([3, 0x3002, 77], nzvc false false false false, 0x204) ∧
    after (start [0x3A, 0x2C, 5, 0x66] [(6, 0x3000)] [(0x3000, [0x41, 0x42, 0x43, 0x44, 0x45])]) [0, 1]
      = some ([0, 0x3005], nzvc false true false false, 0x204) := by decide +kernel

/-- MC7 (two matches, the lowest is reported) and MC2. -/
theorem test_matchc :
    after (start [0x39, 2, 0x66, 6, 0x67] [(6, 0x1000), (7, 0x2000)]
      [(0x1000, [0x41, 0x42]), (0x2000, [0x78, 0x41, 0x42, 0x41, 0x42, 0x79])]) [0, 1, 2, 3]
      = some ([0, 0x1002, 3, 0x2003], nzvc false true false false, 0x205) ∧
    after (start [0x39, 2, 0x66, 6, 0x67] [(6, 0x1000), (7, 0x2000)]
      [(0x1000, [0x58, 0x59]), (0x2000, [0x41, 0x42, 0x43, 0x44, 0x45, 0x46])]) [0, 1, 2, 3]
      = some ([2, 0x1000, 0, 0x2006], nzvc false false false false, 0x205) := by decide +kernel

/-- MC3, MC6, MC5: empty object, object longer than source, empty source. -/
theorem test_matchc_corners :
    after (start [0x39, 0, 0x66, 6, 0x67] [(6, 0x1000), (7, 0x2000)] []) [0, 1, 2, 3]
      = some ([0, 0x1000, 6, 0x2000], nzvc false true false false, 0x205) ∧
    after (start [0x39, 3, 0x66, 2, 0x67] [(6, 0x1000), (7, 0x2000)]
      [(0x1000, [0x41, 0x42, 0x43]), (0x2000, [0x41, 0x42])]) [0, 1, 2, 3]
      = some ([3, 0x1000, 0, 0x2002], nzvc false false false false, 0x205) ∧
    after (start [0x39, 2, 0x66, 0, 0x67] [(6, 0x1000), (7, 0x2000)] []) [0, 1, 2, 3]
      = some ([2, 0x1000, 0, 0x2000], nzvc false false false false, 0x205) := by decide +kernel

/-- MV1: overlap, the destination gets the source's original bytes. -/
theorem test_movc3 :
    after (start [0x28, 4, 0x66, 0x67] [(6, 0x1000), (7, 0x1002), (5, 9)]
      [(0x1000, [0x41, 0x42, 0x43, 0x44, 0x45, 0x46])]) [0, 1, 2, 3, 4, 5]
      = some ([0, 0x1004, 0, 0x1006, 0, 0], nzvc false true false false, 0x204) ∧
    bytesAfter (start [0x28, 4, 0x66, 0x67] [(6, 0x1000), (7, 0x1002)]
      [(0x1000, [0x41, 0x42, 0x43, 0x44, 0x45, 0x46])]) 0x1000 6
      = some [0x41, 0x42, 0x41, 0x42, 0x43, 0x44] := by decide +kernel

/-- MV4 and MV5. -/
theorem test_movc5 :
    bytesAfter (start [0x2C, 2, 0x66, 0x2A, 5, 0x67] [(6, 0x1000), (7, 0x2000)] [(0x1000, [0x41, 0x42])])
      0x2000 5 = some [0x41, 0x42, 0x2A, 0x2A, 0x2A] ∧
    after (start [0x2C, 2, 0x66, 0x2A, 5, 0x67] [(6, 0x1000), (7, 0x2000)] [(0x1000, [0x41, 0x42])])
      [0, 1, 2, 3, 4, 5] = some ([0, 0x1002, 0, 0x2005, 0, 0], nzvc true false false true, 0x206) ∧
    after (start [0x2C, 5, 0x66, 0x2A, 2, 0x67] [(6, 0x1000), (7, 0x2000)] [])
      [0, 1, 2, 3, 4, 5] = some ([3, 0x1002, 0, 0x2002, 0, 0], nzvc false false false false, 0x206) := by
  decide +kernel

/-- MV9's condition codes: 0x8000 is negative as a signed word (resolved operands). -/
theorem test_length_cc : lengthCC 0x8000 1 = nzvc true false false false := by decide

/-- MT1 with a table of the entries used; MT9's table bound. -/
theorem test_movtc :
    bytesAfter (start [0x2E, 2, 0x66, 0x20, 0x68, 3, 0x67] [(6, 0x1000), (7, 0x2000), (8, 0x4000)]
      [(0x1000, [0x61, 0x42]), (0x4042, [0x42]), (0x4061, [0x41])]) 0x2000 3 = some [0x41, 0x42, 0x20] ∧
    after (start [0x2E, 2, 0x66, 0x20, 0x68, 3, 0x67] [(6, 0x1000), (7, 0x2000), (8, 0x4000)]
      [(0x1000, [0x61, 0x42]), (0x4042, [0x42]), (0x4061, [0x41])]) [0, 1, 2, 3, 4, 5]
      = some ([0, 0x1002, 0, 0x4000, 0, 0x2003], nzvc true false false true, 0x207) := by decide +kernel

/-- MT8 and MT9: the destination 0x40FE overlaps the table at 0x4000, the destination 0x4100 does not. -/
theorem test_movtc_overlap :
    overlapsTable 0x4000 0x40FE 3 = true ∧ overlapsTable 0x4000 0x4100 3 = false ∧
    overlapsTable 0x4000 0x3FFE 3 = true ∧ overlapsTable 0x4000 0x3FFE 2 = false := by decide +kernel

/-- DE19: only the low word of R0 is the length. -/
theorem test_word_operand :
    after (start [0x28, 0x50, 0x61, 0x63] [(0, 0xAAAA0000), (1, 0x1000), (3, 0x2000)] []) [0, 1, 2, 3, 4, 5]
    = some ([0, 0x1000, 0, 0x2000, 0, 0], nzvc false true false false, 0x204) := by decide +kernel

/-- DE12, DE9, DE14, DE15 and R143 to R146: what `step` refuses; and R68: index mode over index mode. -/
theorem test_refusals :
    refusal? (step (start [0x3B, 0x2C, 5, 0x66] [] [])) = some (.noSemanticsInSource "SKPC") ∧
    refusal? (step (start [0x2A, 0x50, 0x61, 0x62, 0x3F] [] [])) = some (.noSemanticsInSource "SCANC") ∧
    refusal? (step (start [0x2B, 0x50, 0x61, 0x62, 0x3F] [] [])) = some (.noSemanticsInSource "SPANC") ∧
    refusal? (step (start [0x2F, 0x50, 0x61, 1, 0x62, 0x53, 0x64] [] []))
      = some (.noSemanticsInSource "MOVTUC") ∧
    refusal? (step (start [0x42, 0x5F, 0x52] [] [])) = some .operandForm ∧
    refusal? (step (start [0] [] [])) = some .unknownOpcode ∧
    refusal? (step (start [0xFD, 0] [] [])) = some .unknownOpcode ∧
    refusal? (step (start [0x42, 0x51, 0x43, 0x42, 0x62] [] [])) = some .operandForm := by decide +kernel

/-- 20_memory.md R54: code that an instruction has stored to is refused. -/
theorem test_modified_code :
    refusal? (step { start [0x53, 0x50] [] [] with written := [0x201] }) = some .modifiedCode := by
  decide +kernel

/-- 10_state.md R22: an instruction that straddles the top of the address space is refused. -/
theorem test_straddles :
    refusal? (step { (State.reset.setPc 0xFFFFFFFF) with mem := [(0, 0x50), (0xFFFFFFFF, 0x53)] })
      = some .straddlesTop := by decide +kernel

/-- 20_memory.md R42, R46: an inadmissible operand byte faults, and nothing has changed. -/
theorem test_access_fault :
    (let s := start [0x53, 0x81] [(1, 0x1000)] []
     let p := { s.platform with admission := [{ kind := .read, base := 0x1002, size := 1, admitted := false }] }
     (fault? (step { s with platform := p })).map fun f => (f.1, f.2.getReg 1, f.2.pc))
      = some ("accessFault", 0x1000, 0x200) := by decide +kernel

/-- 20_memory.md R46, 93_implementation_defined.md U6: an access fault on the length of LOCC, or on the bytes after its
opcode, leaves R0 to R5 as draws, and the other registers (30_encoding.md R75) and the PC as before. -/
theorem test_string_operand_fault :
    (let s := start [0x3A, 0x01, 0x86, 0x67] [(6, 0x1000), (7, 0x2000)] []
     let p := { s.platform with admission := [{ kind := .read, base := 0x1001, size := 1, admitted := false }] }
     let f := (fault? (step { s with platform := p })).map Prod.snd
     f.map (fun t => (t.getReg 6, t.pc)) = some (0x1000, 0x200) ∧
       f.map (fun t => (t.getReg 0, t.getReg 5, t.psl.n))
         = some (Config.freeWord 0, Config.freeWord 5, Config.freeBit 6)) ∧
    (let s := start [0x3A, 0x01, 0x66, 0x67] [] []
     let p := { s.platform with admission := [{ kind := .fetch, base := 0x202, size := 1, admitted := false }] }
     let f := (fault? (step { s with platform := p })).map Prod.snd
     f.map State.pc = some 0x200 ∧ f.map (fun t => t.getReg 0) = some (Config.freeWord 0)) :=
  ⟨⟨by decide +kernel, rfl⟩, by decide +kernel, rfl⟩

/-- 30_encoding.md R76 (3), specifiers one by one: a reserved first operand faults before index mode over index mode
is refused; the PC as first operand is refused before a second specifier that cannot be fetched faults. 60 R204 (1):
that fetch fault comes before the exception of a reserved first operand. -/
theorem test_operands_in_order :
    ((fault? (step (start [0x42, 0x51, 0x43, 0x42, 0x62] [(1, 0x8000)] []))).map fun f => f.1)
      = some "reservedOperand" ∧
    (let s := start [0x42, 0x5F] [] []
     let p := { s.platform with admission := [{ kind := .fetch, base := 0x202, size := 1, admitted := false }] }
     refusal? (step { s with platform := p })) = some .operandForm ∧
    (let s := start [0x42, 0x51] [(1, 0x8000)] []
     let p := { s.platform with admission := [{ kind := .fetch, base := 0x202, size := 1, admitted := false }] }
     (fault? (step { s with platform := p })).map fun f => f.1) = some "accessFault" := by decide +kernel

/-- 00_scope.md R6, 40_floating_sub_tst.md R104: a platform with another reading of "rounded" decides 1.0 - 0.1, and no
platform decides 3.0 - 1.0, which is exact. -/
theorem test_platform_subtraction :
    let p := { Platform.reset with subtraction :=
      [{ ty := .f, minuend := 0x4080, subtrahend := 0xCCCD3ECC, result := .value 0x66654066 },
       { ty := .f, minuend := 0x4140, subtrahend := 0x4080, result := .value 0x4080 }] }
    p.fsub .f 0x4080 0xCCCD3ECC = .value 0x66654066 ∧ p.fsub .f 0x4140 0x4080 = .value 0x4100 ∧
      p.fsub .d 0x4080 0xCCCDCCCCCCCC3ECC = .value 0x6666666666664066 := by decide +kernel

/-- 41_character_string.md R135 (c), D31: MATCHC checks an object longer than its source; R133: not with an empty
source. -/
theorem test_matchc_admission :
    (let s := start [0x39, 3, 0x66, 2, 0x67] [(6, 0x1000), (7, 0x2000)] []
     let p := { s.platform with admission := [{ kind := .read, base := 0x1002, size := 1, admitted := false }] }
     (fault? (step { s with platform := p })).map fun f => f.1) = some "accessFault" ∧
    (let s := start [0x39, 3, 0x66, 0, 0x67] [(6, 0x1000), (7, 0x2000)] []
     let p := { s.platform with admission := [{ kind := .read, base := 0x1002, size := 1, admitted := false }] }
     after { s with platform := p } [0, 1, 2, 3])
      = some ([3, 0x1000, 0, 0x2000], nzvc false false false false, 0x205) := by decide +kernel

/-! Witnesses: for every statement with hypotheses, states and operands that meet all of them together. -/

open Sys2Proof.Safety Sys2Proof.Claims

/-- Register, register deferred and literal specifiers. -/
def rn (n : Reg) : Specifier := .plain (.register n)
def atR (n : Reg) : Specifier := .plain (.deferred n)
def lit (v : BitVec 6) : Specifier := .plain (.literal v)

/-- `s` with one rule that does not admit `kind` at `a`. -/
def denying (s : State) (kind : AccessKind) (a : Nat) : State :=
  { s with platform := { s.platform with
      admission := [{ kind := kind, base := a, size := 1, admitted := false }] } }

theorem exists_next {r : Result} (h : (next? r).isSome = true) : ∃ u, r = .next u := by
  cases r <;> simp_all [next?]

/-- `TSTF R0; TSTF R0` with R0 = -1.0. -/
def twoTests : State := start [0x53, 0x50, 0x53, 0x50] [(0, 0xC080)] []

theorem twoTests_code : codeAt twoTests [0x53, 0x50] ∧ fetchable twoTests 2 :=
  ⟨by unfold codeAt; decide +kernel, by decide +kernel, fun _ _ => rfl, by decide +kernel⟩

theorem witness_DecodeOfEncodeIsTheInstruction :
    (Instr.tstf (rn 15)).encodable = true ∧
      (Instr.movc3 (lit 63) (atR 0) (.index 14 (.deferred 15))).encodable = true := by
  decide

theorem witness_DecodedBytesAreTheEncoding : decode [0x53, 0x5F, 7] = .ok (.tstf (rn 15), [7]) := by rfl

theorem witness_ExactlyTheUnlistedOpcodesAreUnknown :
    (∀ op : Opcode, op.bytes ≠ [0x00]) ∧ (∀ op : Opcode, op.bytes ≠ [0xFD, 0x00]) ∧
    (let s := start [0x00] [] []
     codeAt s [0x00] ∧ fetchable s 1 ∧ pslRefusal s.psl = none) ∧
    (let s := start [0xFD, 0x00] [] []
     codeAt s [0xFD, 0x00] ∧ fetchable s 2 ∧ pslRefusal s.psl = none) := by
  refine ⟨fun op => ?_, fun op => ?_, ?_⟩
  · cases op <;> decide
  · cases op <;> decide
  · unfold codeAt fetchable admitted
    decide +kernel

theorem witness_StepRunsTheDecodedInstruction :
    decode [0x53, 0x50] = .ok (.tstf (rn 0), []) ∧ codeAt twoTests [0x53, 0x50] ∧
      fetchable twoTests 2 ∧ pslRefusal twoTests.psl = none ∧ twoTests.platform.implements .tstf = true :=
  ⟨rfl, twoTests_code.1, twoTests_code.2, rfl, rfl⟩

theorem witness_NextStateComesFromUnmodifiedCode : ∃ u, step twoTests = .next u :=
  exists_next (by decide +kernel)

/-- The two operands of `SUBF2 R1, R2` and of `SUBF2 R15, R2`. -/
def subPrefix (r : Reg) : Instr := .subf2 (rn r) (rn 2)

/-- The last byte of an instruction stored, after no operand, after an illegal one, and after a reserved one. -/
theorem witness_ModifiedCodeIsRefused :
    (let s := { twoTests with written := [0x201] }
     codeAt s (encode (.tstf (rn 0))) ∧ fetchable s 1 ∧ s.admits .fetch (offset s.pc 1) = true ∧
      (offset s.pc 1).toNat ∈ s.written ∧ reachOperands .tstf (operandsBefore (.tstf (rn 0)) 1) s = .ok ()) ∧
    (let s := { start [0x42, 0x5F, 0x52] [] [] with written := [0x202] }
     codeAt s (encode (subPrefix 15)) ∧ fetchable s 2 ∧ (offset s.pc 2).toNat ∈ s.written ∧
      reachOperands .subf2 (operandsBefore (subPrefix 15) 2) s = .error (.refuse .operandForm)) ∧
    (let s := { start [0x42, 0x51, 0x52] [(1, 0x8000)] [] with written := [0x202] }
     codeAt s (encode (subPrefix 1)) ∧ fetchable s 2 ∧ (offset s.pc 2).toNat ∈ s.written ∧
      reachOperands .subf2 (operandsBefore (subPrefix 1) 2) s = .error (.raise .reservedOperand)) := by
  unfold codeAt fetchable admitted
  decide +kernel

/-- The last byte past the top, after no operand, after an illegal one, and after a reserved one. -/
theorem witness_StraddlingInstructionIsRefused :
    (let s := { (State.reset.setPc 0xFFFFFFFF) with mem := [(0, 0x50), (0xFFFFFFFF, 0x53)] }
     codeAt s (encode (.tstf (rn 0))) ∧ fetchable s 1 ∧ s.pc.toNat + 1 = 2 ^ 32 ∧
      reachOperands .tstf (operandsBefore (.tstf (rn 0)) 1) s = .ok ()) ∧
    (let s := { (State.reset.setPc 0xFFFFFFFE) with mem := [(0, 0x52), (0xFFFFFFFE, 0x42), (0xFFFFFFFF, 0x5F)] }
     codeAt s (encode (subPrefix 15)) ∧ fetchable s 2 ∧ s.pc.toNat + 2 = 2 ^ 32 ∧
      reachOperands .subf2 (operandsBefore (subPrefix 15) 2) s = .error (.refuse .operandForm)) ∧
    (let s := { ((State.reset.setPc 0xFFFFFFFE).setReg 1 0x8000) with
        mem := [(0, 0x52), (0xFFFFFFFE, 0x42), (0xFFFFFFFF, 0x51)] }
     codeAt s (encode (subPrefix 1)) ∧ fetchable s 2 ∧ s.pc.toNat + 2 = 2 ^ 32 ∧
      reachOperands .subf2 (operandsBefore (subPrefix 1) 2) s = .error (.raise .reservedOperand)) := by
  unfold codeAt fetchable admitted
  decide +kernel

/-- The first and the last byte of an instruction; the last one after an illegal operand. -/
theorem witness_FetchFaultLeavesTheState :
    (let s := denying twoTests .fetch 0x200
     codeAt s (encode (.tstf (rn 0))) ∧ fetchable s 0 ∧ s.admits .fetch (offset s.pc 0) = false ∧
      operandsBefore (.tstf (rn 0)) 0 = []) ∧
    (let s := denying (start [0x42, 0x51, 0x52] [(1, 0x8000)] []) .fetch 0x202
     codeAt s (encode (subPrefix 1)) ∧ fetchable s 2 ∧ s.pc.toNat + 2 < 2 ^ 32 ∧
      s.admits .fetch (offset s.pc 2) = false ∧
      ((operandsBefore (subPrefix 1) 2).all fun o => o.2.legal o.1.1 o.1.2) = true) ∧
    (let s := denying (start [0x42, 0x5F, 0x52] [] []) .fetch 0x202
     codeAt s (encode (subPrefix 15)) ∧ fetchable s 2 ∧ s.admits .fetch (offset s.pc 2) = false ∧
      reachOperands .subf2 (operandsBefore (subPrefix 15) 2) s = .error (.refuse .operandForm)) ∧
    (let i := Instr.locc (lit 1) (lit 3) (atR 7)
     let s := denying (start [0x3A, 0x01, 0x03, 0x67] [] []) .fetch 0x201
     codeAt s (encode i) ∧ fetchable s 1 ∧ s.admits .fetch (offset s.pc 1) = false ∧
      i.opcode.bytes.length ≤ 1 ∧ i.opcode.isString = true) ∧
    (let s := denying (start [0x3A] [] []) .fetch 0x200
     s.admits .fetch (offset s.pc 0) = false ∧ 0 < Opcode.locc.bytes.length ∧ Opcode.tstf.isString = false) := by
  unfold codeAt fetchable admitted
  decide +kernel

theorem witness_StepRefusesWhatTheLaunchExcludes :
    let p := Psl.reset
    { p with fpd := true }.fpd = true ∧ ({ p with t := true }.fpd = false ∧ { p with t := true }.t = true) ∧
      ({ p with tp := true }.fpd = false ∧ { p with tp := true }.tp = true) ∧
      ({ p with cm := true }.fpd = false ∧ { p with cm := true }.t = false ∧ { p with cm := true }.cm = true) ∧
      (let s := { twoTests with platform := { twoTests.platform with notImplemented := [.tstf] } }
       decodeOpcode (fetchByte s) = .ok (.tstf, 1) ∧ pslRefusal s.psl = none ∧
         s.platform.implements .tstf = false) ∧
      (let s := denying twoTests .fetch 0x201
       let s := { s with platform := { s.platform with notImplemented := [.tstf] } }
       decodeOpcode (fetchByte s) = .ok (.tstf, 1) ∧ pslRefusal s.psl = none ∧
         s.platform.implements .tstf = false ∧ fetchByte s 1 = .error (.raise (.access 0x201 .fetch))) :=
  ⟨rfl, ⟨rfl, rfl⟩, ⟨rfl, rfl⟩, ⟨rfl, rfl, rfl⟩, ⟨rfl, rfl, rfl⟩, rfl, rfl, rfl, rfl⟩

theorem witness_StepKeepsTheInvariant : Inv twoTests ∧ ∃ u, step twoTests = .next u :=
  ⟨by decide +kernel, exists_next (by decide +kernel)⟩

/-- A step that stores: MOVC3 of one byte, at an address not marked before. -/
theorem witness_StepMarksWhatItChanges :
    let s := start [0x28, 1, 0x66, 0x67] [(6, 0x200), (7, 0x1000)] []
    ∃ u, step s = .next u ∧ u.readByte 0x1000 ≠ s.readByte 0x1000 ∧
      (0x1000 : Word).toNat ∈ u.written ∧ (0x1000 : Word).toNat ∉ s.written := by
  intro s
  obtain ⟨u, h⟩ := exists_next (r := step s) (by decide +kernel)
  have h1 := (by decide +kernel : (next? (step s)).map (fun u => u.readByte 0x1000) ≠ some (s.readByte 0x1000))
  have h2 := (by decide +kernel : (next? (step s)).map State.written = some [0x1000])
  rw [h] at h1 h2
  refine ⟨u, h, fun he => h1 (congrArg some he), ?_, by decide +kernel⟩
  rw [Option.some.inj h2]
  exact List.mem_singleton.mpr rfl

theorem witness_RunExecutesOnlyLaunchedCode : ∃ u v, Reaches 1 twoTests u ∧ step u = .next v := by
  obtain ⟨u, h⟩ := exists_next (r := step twoTests) (by decide +kernel)
  have h2 : (next? (step ((next? (step twoTests)).getD twoTests))).isSome = true := by decide +kernel
  obtain ⟨v, hv⟩ := exists_next h2
  exact ⟨u, v, reaches_succ.2 ⟨u, h, reaches_zero.2 rfl⟩, by simpa [h, next?] using hv⟩

/-! Rules about all instructions. -/

/-- R1 and R2 hold 1.0 and 3.0, R6 to R8 point at "ABAB", at "ABXB" and at a page of zeros. -/
def work : State :=
  start [] [(1, 0x4080), (2, 0x4140), (6, 0x1000), (7, 0x2000), (8, 0x4000)]
    [(0x1000, [0x41, 0x42, 0x41, 0x42]), (0x2000, [0x41, 0x42, 0x58, 0x42])]

theorem work_admits (kind : AccessKind) (a : Word) (n : Nat) : admitted work kind a n := fun _ _ => rfl

/-- Each group of instructions answers a next state on `work`: SUB, TST, a string read and a string move. -/
theorem witness_next :
    (∃ u, exec (.subf3 (rn 1) (rn 2) (.plain (.autoincrement 8))) work = .next u) ∧
    (∃ u, exec (.tstf (rn 1)) work = .next u) ∧
    (∃ u, exec (.cmpc3 (lit 4) (atR 6) (atR 7)) work = .next u) ∧
    (∃ u, exec (.movc3 (lit 4) (atR 6) (atR 7)) work = .next u) :=
  ⟨exists_next (by decide +kernel), exists_next (by decide +kernel), exists_next (by decide +kernel),
    exists_next (by decide +kernel)⟩

theorem witness_NextPcFollowsTheInstruction : ∃ u, exec (.movc3 (lit 4) (atR 6) (atR 7)) work = .next u :=
  witness_next.2.2.2

theorem witness_InstructionsWriteOnlyConditionCodes :
    ∃ u, exec (.cmpc3 (lit 4) (atR 6) (atR 7)) work = .next u := witness_next.2.2.1

theorem witness_InstructionsReadOnlyFu :
    { Psl.reset with ipl := 31, n := true }.fu = work.psl.fu ∧
      ∃ u, exec (.subf3 (rn 1) (rn 2) (.plain (.autoincrement 8))) work = .next u := ⟨rfl, witness_next.1⟩

theorem witness_OnlySubtractionReadsFu :
    isSub (.tstf (rn 1)) = false ∧ ∃ u, exec (.tstf (rn 1)) work = .next u := ⟨rfl, witness_next.2.1⟩

/-- R9 of a subtraction whose destination steps R8, and R6 of a move. -/
theorem witness_OtherRegistersAreUnchanged :
    let i := Instr.subf3 (rn 1) (rn 2) (.plain (.autoincrement 8))
    (∃ u, exec i work = .next u) ∧ (9 : Reg) ∉ i.opcode.implied ∧ (9 : Reg) ∉ i.writtenRegs ∧
      (9 : Reg) ∉ i.steppedRegs ∧ (6 : Reg) ∉ Opcode.movc3.implied :=
  ⟨witness_next.1, by decide⟩

theorem witness_NonStoringInstructionsKeepMemory :
    let i := Instr.cmpc3 (lit 4) (atR 6) (atR 7)
    isSub i = false ∧ isMove i = false ∧ ∃ u, exec i work = .next u := ⟨rfl, rfl, witness_next.2.2.1⟩

/-- A reserved operand, and an access fault of a move. -/
theorem witness_FaultLeavesTheStateBefore :
    (∃ f, exec (.tstf (rn 1)) (work.setReg 1 0x8000) = .fault f) ∧
    (∃ f, exec (.movc3 (lit 4) (atR 6) (atR 7)) (denying work .write 0x2003) = .fault f) ∧
    isTst (.tstf (rn 1)) = true ∧ isMove (.tstf (rn 1)) = false :=
  ⟨⟨_, rfl⟩, ⟨_, rfl⟩, rfl, rfl⟩

theorem exists_overflow {r : Result} (h : (fault? r).map Prod.fst = some "floatingOverflow") :
    ∃ u, r = .fault (.floatingOverflow u) := by
  cases r with
  | fault f => cases f <;> simp_all [fault?]
  | next _ => simp [fault?] at h
  | refused _ => simp [fault?] at h

theorem witness_OnlyTheListedInstructionsRaise :
    (∃ u, exec (.subf2 (rn 1) (rn 2)) ((work.setReg 1 0xFFFFFFFF).setReg 2 0xFFFF7FFF)
      = .fault (.floatingOverflow u)) ∧
    (∃ u, exec (.subf2 (rn 1) (rn 2))
      { ((work.setReg 1 0x80).setReg 2 0xC0) with psl := { Psl.reset with fu := true } }
      = .fault (.floatingUnderflow u)) ∧
    (∃ u, exec (.tstf (rn 1)) (work.setReg 1 0x8000) = .fault (.reservedOperand u)) :=
  ⟨exists_overflow (by decide +kernel), ⟨_, rfl⟩, ⟨_, rfl⟩⟩

theorem witness_AdmittedWellFormedInstructionsRun :
    (Instr.movc3 (lit 4) (atR 6) (atR 7)).wellFormed = true ∧
      undescribedName (.movc3 (lit 4) (atR 6) (atR 7)) = none ∧ admitsAll work ∧
      work.platform.movtcOverlap = .draw :=
  ⟨rfl, rfl, fun _ _ => rfl, rfl⟩

/-- A form without a meaning as the first operand, and after an operand that is evaluated; an undescribed one. -/
theorem witness_IllegalOperandFormsNeverRun :
    (Instr.movc3 (lit 4) (lit 4) (atR 1)).formsLegal = false ∧ admitsAll work ∧
    ((Instr.tstf (rn 15)).operands = [] ++ ((.read, .floating .f), rn 15) :: [] ∧
      (rn 15).legal .read (.floating .f) = false ∧ ∃ k, evaluateOperands [] (Cursor.start work .tstf) = .ok k) ∧
    ((Instr.subf2 (rn 1) (lit 8)).operands
        = [((.read, .floating .f), rn 1)] ++ ((.modify, .floating .f), lit 8) :: [] ∧
      (lit 8).legal .modify (.floating .f) = false ∧
      ∃ k, evaluateOperands [((.read, .floating .f), rn 1)] (Cursor.start work .subf2) = .ok k) ∧
    ((Instr.skpc (rn 15) (lit 0) (atR 1)).operands.head? = some ((.read, .byte), rn 15) ∧
      (rn 15).legal .read .byte = false) ∧
    (let s := start [0x53, 0x4F, 0x42] [] []
     Opcode.tstf.signature = ([] : List ((Access × DataType) × Specifier)).map Prod.fst ++ (.read, .floating .f) :: [] ∧
      codeAt s (Opcode.tstf.bytes ++ [] ++ [0x4F, 0x42]) ∧ fetchable s 3 ∧ reachOperands .tstf [] s = .ok ()) ∧
    (let s := start [0x42, 0x5F, 0x41, 0x42] [] []
     let pre := [((Access.read, DataType.floating .f), rn 15)]
     Opcode.subf2.signature = pre.map Prod.fst ++ (.modify, .floating .f) :: [] ∧
      codeAt s (Opcode.subf2.bytes ++ [0x5F] ++ [0x41, 0x42]) ∧ fetchable s 4 ∧
      reachOperands .subf2 pre s = .error (.refuse .operandForm)) ∧
    (let s := start [0x42, 0x51, 0x41, 0x42] [(1, 0x8000)] []
     let pre := [((Access.read, DataType.floating .f), rn 1)]
     codeAt s (Opcode.subf2.bytes ++ (pre.flatMap fun p => p.2.encode p.1.2.size) ++ [0x41, 0x42]) ∧
      fetchable s 4 ∧ (∀ p ∈ pre, p.2.encodable p.1.2.size = true) ∧
      reachOperands .subf2 pre s = .error (.raise .reservedOperand)) := by
  refine ⟨rfl, fun _ _ => rfl, ⟨rfl, rfl, _, rfl⟩, ⟨rfl, rfl, _, rfl⟩, ⟨rfl, rfl⟩, ?_⟩
  unfold codeAt fetchable admitted
  decide +kernel

theorem witness_UndescribedInstructionsAreRefused :
    undescribedName (.skpc (lit 0) (lit 0) (atR 1)) = some "SKPC" ∧
      (Instr.skpc (lit 0) (lit 0) (atR 1)).formsLegal = true ∧
      (Instr.movtuc (lit 0) (atR 1) (lit 0) (atR 1) (lit 0) (atR 1)).formsLegal = true ∧
      (Instr.scanc (lit 0) (atR 1) (atR 1) (lit 0)).formsLegal = true ∧
      (Instr.spanc (lit 0) (atR 1) (atR 1) (lit 0)).formsLegal = true := by decide

/-! Operands. -/

/-- The longwords that the deferred modes read, through R6 and relative to R15. -/
theorem witness_AddressingModesGiveTheirAddress :
    work.memRead (work.getReg 6) 4 = .ok 0x42414241 ∧
    work.memRead (work.getReg 6 + (0xFF : BitVec 8).signExtend 32) 4 = .ok 0x41424100 ∧
    work.memRead ((0x1100 : Word) + (0xFF00 : BitVec 16).signExtend 32) 4 = .ok 0x42414241 ∧
    work.memRead ((0 : Word) + (0x1000 : BitVec 32)) 4 = .ok 0x42414241 ∧
    baseAddress work 4 (0x201 + BitVec.ofNat 32 ((BaseSpec.displacement 15 (.byte 0x10)).encode 4).length)
      (.displacement 15 (.byte 0x10)) = .ok (0x213, work) ∧
    baseAddress (denying work .read 0x1003) 4 0x202 (.autoincrementDeferred 6)
      = .error (.raise (.access 0x1003 .read)) := ⟨rfl, rfl, rfl, rfl, rfl, rfl⟩

/-- Index mode over an autoincrement base, the index at its highest value. -/
theorem witness_IndexModeScalesTheIndex :
    ∃ k', operandAddress 8 (.index 1 (.autoincrement 6)) (Cursor.start (work.setReg 1 0xFFFFFFFF) .tstd)
      = .ok (0xFF8, k') := ⟨_, rfl⟩

theorem witness_RegisterOperandsUseConsecutiveRegisters :
    (256 ^ 4 - 1 < 256 ^ FType.f.size) ∧ (256 ^ 16 - 1 < 256 ^ FType.h.size) ∧
      (4 : Reg) ∉ (DataType.floating .h).regsFrom 0 ∧ (15 : Reg) ∉ (DataType.floating .h).regsFrom 11 ∧
      (11 : Reg).val + (DataType.floating .h).registers ≤ 15 ∧ (14 : Reg).val + DataType.byte.registers ≤ 15 := by
  decide

/-- A value read; no byte admitted, and the last byte not admitted; a read, a modify and an address operand in memory, the
read both admitted and not; the widest and the narrowest immediate. -/
theorem witness_MemoryReadsAreLittleEndian :
    (work.memRead 0x1000 2 = .ok 0x4241 ∧ admitted work .read 0x1000 2 ∧
      (denying work .read 0x1000).admits .read (offset 0x1000 0) = false ∧
      admitted (denying work .read 0x1001) .read 0x1000 1 ∧
      (denying work .read 0x1001).admits .read (offset 0x1000 1) = false) ∧
    (∃ k, operandAddress 4 (.plain (.autoincrement 6)) ⟨work, 0x201⟩ = .ok (0x1000, k) ∧
      k.state.memRead 0x1000 4 = .ok 0x42414241) ∧
    (∃ k, operandAddress 4 (atR 6) ⟨denying work .read 0x1003, 0x201⟩ = .ok (0x1000, k) ∧
      k.state.memRead 0x1000 4 = .error (.raise (.access 0x1003 .read))) ∧
    (atR 6).legal .read (.floating .f) = true ∧ (∀ v, atR 6 ≠ .plain (.immediate v)) ∧
    (atR 6).legal .modify (.floating .f) = true ∧ (atR 6).legal .write (.floating .f) = true ∧
    (atR 6).legal .address .byte = true ∧ (∃ k, operandAddress 1 (atR 6) ⟨work, 0x201⟩ = .ok (0x1000, k)) ∧
    (2 ^ 128 - 1 : BitVec 128).toNat < 256 ^ (DataType.floating .h).size ∧
    (255 : BitVec 128).toNat < 256 ^ DataType.byte.size :=
  ⟨⟨rfl, work_admits _ _ _, rfl, by unfold admitted; decide +kernel, rfl⟩, ⟨_, rfl, rfl⟩, ⟨_, rfl, rfl⟩, rfl,
    fun v h => by simp [atR] at h, rfl, rfl, rfl, ⟨_, rfl⟩, by decide +kernel, by decide +kernel⟩

/-! Floating data. -/

/-- The highest fields of each type, and the highest datum pattern. -/
theorem witness_PackIsInverseOfTheLayout : ∀ t : FType,
    (1 ≤ 1 ∧ t.maxExponent ≤ t.maxExponent ∧ 2 ^ (t.precision - 1) - 1 < 2 ^ (t.precision - 1)) ∧
      256 ^ t.size - 1 < 256 ^ t.size := by
  intro t; cases t <;> decide

theorem isDatum_of (t : FType) {B : Nat} (h : (decide (B < 256 ^ t.size) && !t.isReserved B) = true) :
    isDatum t B := by
  simpa [isDatum] using h

/-- 3.0 - 1.0 = 2.0 (V1). -/
theorem witness_SubtractionIsExactWhenRepresentable :
    isDatum .f 0x4140 ∧ isDatum .f 0x4080 ∧ isDatum .f 0x4100 ∧
      value .f 0x4140 - value .f 0x4080 = value .f 0x4100 := by
  refine ⟨isDatum_of _ (by decide), isDatum_of _ (by decide), isDatum_of _ (by decide), ?_⟩
  have h1 : value .f 0x4140 = 3 := by
    norm_num [value, FType.exponent, FType.sign, FType.fraction, bitField, FType.bias, FType.precision]
  have h2 : value .f 0x4080 = 1 := by
    norm_num [value, FType.exponent, FType.sign, FType.fraction, bitField, FType.bias, FType.precision]
  have h3 : value .f 0x4100 = 2 := by
    norm_num [value, FType.exponent, FType.sign, FType.fraction, bitField, FType.bias, FType.precision]
  rw [h1, h2, h3]; norm_num

/-- A tie (V7), and 1.0 - 0.1 in H_floating (V35). -/
theorem witness_SubtractionRoundsToNearestTiesAway :
    (isDatum .f 0x14C80 ∧ isDatum .f 0x4080 ∧ FType.f.fsub 0x14C80 0x4080 = .value 0x14C80) ∧
    (isDatum .h 0x4001 ∧ isDatum .h 0x999A9999999999999999999999993FFD ∧
      FType.h.fsub 0x4001 0x999A9999999999999999999999993FFD = .value 0xCCCDCCCCCCCCCCCCCCCCCCCCCCCC4000) :=
  ⟨⟨isDatum_of _ (by decide), isDatum_of _ (by decide), by decide +kernel⟩,
    isDatum_of _ (by decide), isDatum_of _ (by decide), by decide +kernel⟩

/-- Underflow (V12) and overflow (V10). -/
theorem witness_SubtractionRangeIsTestedOnTheRoundedResult :
    (isDatum .f 0xC0 ∧ isDatum .f 0x80 ∧ FType.f.fsub 0xC0 0x80 = .underflow) ∧
    (isDatum .f 0xFFFF7FFF ∧ isDatum .f 0xFFFFFFFF ∧ FType.f.fsub 0xFFFF7FFF 0xFFFFFFFF = .overflow) :=
  ⟨⟨isDatum_of _ (by decide), isDatum_of _ (by decide), by decide +kernel⟩,
    isDatum_of _ (by decide), isDatum_of _ (by decide), by decide +kernel⟩

/-- A zero with a fraction bit, beside a value and beside a zero with other fraction bits. -/
theorem witness_SubtractionOfZeroAndOfItself :
    isDatum .f 0x4080 ∧ isDatum .f 0x10000 ∧ FType.f.isZero 0x10000 = true ∧ FType.f.isZero 0x4080 = false ∧
      isDatum .f 0x7F ∧ FType.f.isZero 0x7F = true :=
  ⟨isDatum_of _ (by decide), isDatum_of _ (by decide), rfl, rfl, isDatum_of _ (by decide), rfl⟩

/-! SUB and TST. -/

/-- `SUBF2 R1, R2` and `SUBF3 R1, R2, (R8)`: 3.0 - 1.0. -/
theorem witness_SubtractionStoresTheDifference :
    (∃ k, resolved2 .f (rn 1) (rn 2) work = .ok (0x4080, .register 2, 0x4140, k)) ∧
    (∃ k, resolved3 .f (rn 1) (rn 2) (atR 8) work = .ok (0x4080, 0x4140, .memory 0x4000, k)) ∧
    (∀ l : Location, ∀ x ∈ l.addrs (.floating .f), work.admits .write x = true) ∧
    work.platform.fsub .f 0x4140 0x4080 = .value 0x4100 ∧ Memory.wf work.mem = true :=
  ⟨⟨_, rfl⟩, ⟨_, rfl⟩, fun _ _ _ => rfl, by decide +kernel, by decide +kernel⟩

/-- FU clear and set, in both forms; a step that completes. -/
theorem witness_FuSelectsTheUnderflowBehaviour :
    (let s := (work.setReg 1 0x80).setReg 2 0xC0
     let s1 := { s with psl := { s.psl with fu := true } }
     (∃ k, resolved2 .f (rn 1) (rn 2) s = .ok (0x80, .register 2, 0xC0, k)) ∧
     (∃ k, resolved3 .f (rn 1) (rn 2) (atR 8) s1 = .ok (0x80, 0xC0, .memory 0x4000, k)) ∧
     (∀ l : Location, ∀ x ∈ l.addrs (.floating .f), s.admits .write x = true ∧ s1.admits .write x = true) ∧
     s.platform.fsub .f 0xC0 0x80 = .underflow ∧ s1.platform = s.platform ∧
     Memory.wf s.mem = true ∧ Memory.wf s1.mem = true ∧
     s.psl.fu = false ∧ s1.psl.fu = true ∧ 1 ∉ (Location.register 2).regs (.floating .f) ∧
     (∃ k, resolved3 .f (rn 1) (rn 2) (atR 8) s = .ok (0x80, 0xC0, .memory 0x4000, k)) ∧
     (0x4004 : Word) ∉ (Location.memory 0x4000).addrs (.floating .f)) ∧
    ∃ u, exec (.tstf (rn 1)) work = .next u :=
  ⟨⟨⟨_, rfl⟩, ⟨_, rfl⟩, fun _ _ _ => ⟨rfl, rfl⟩, by decide +kernel, rfl, by decide +kernel, by decide +kernel, rfl,
    rfl, by decide, ⟨_, rfl⟩, by decide⟩, witness_next.2.1⟩

/-- Overflow, and underflow with FU set. -/
theorem witness_OverflowAndUnderflowFault :
    let s := (work.setReg 1 0xFFFFFFFF).setReg 2 0xFFFF7FFF
    (∃ k, resolved2 .f (rn 1) (rn 2) s = .ok (0xFFFFFFFF, .register 2, 0xFFFF7FFF, k)) ∧
    (∃ k, resolved3 .f (rn 1) (rn 2) (atR 8) s = .ok (0xFFFFFFFF, 0xFFFF7FFF, .memory 0x4000, k)) ∧
    (∀ l : Location, ∀ x ∈ l.addrs (.floating .f), s.admits .write x = true) ∧
    s.platform.fsub .f 0xFFFF7FFF 0xFFFFFFFF = .overflow ∧
    (let s1 := { ((work.setReg 1 0x80).setReg 2 0xC0) with psl := { Psl.reset with fu := true } }
     (∃ k, resolved2 .f (rn 1) (rn 2) s1 = .ok (0x80, .register 2, 0xC0, k)) ∧
     (∀ l : Location, ∀ x ∈ l.addrs (.floating .f), s1.admits .write x = true) ∧
     s1.platform.fsub .f 0xC0 0x80 = .underflow ∧ s1.psl.fu = true) :=
  ⟨⟨_, rfl⟩, ⟨_, rfl⟩, fun _ _ _ => rfl, by decide +kernel, ⟨_, rfl⟩, fun _ _ _ => rfl, by decide +kernel, rfl⟩

/-- The first and the last byte of `dif`. -/
theorem witness_DestinationIsCheckedBeforeArithmetic :
    (let s := denying work .write 0x4000
     (∃ k, resolved3 .f (rn 1) (rn 2) (atR 8) s = .ok (0x4080, 0x4140, .memory 0x4000, k)) ∧
      admitted s .write 0x4000 0 ∧ s.admits .write (offset 0x4000 0) = false) ∧
    (let s := denying work .write 0x4003
     (∃ k, resolved2 .f (rn 1) (atR 8) s = .ok (0x4080, .memory 0x4000, 0, k)) ∧ 3 < FType.f.size ∧
      admitted s .write 0x4000 3 ∧ s.admits .write (offset 0x4000 3) = false) :=
  ⟨⟨⟨_, rfl⟩, by unfold admitted; decide +kernel, rfl⟩, ⟨_, rfl⟩, by decide,
    by unfold admitted; decide +kernel, rfl⟩

/-- TST, SUBx2 and SUBx3 of a register that holds a reserved operand. -/
theorem witness_ReservedOperandsFault :
    let s := work.setReg 1 0x8000
    (∃ k, readOperand (.floating .f) (rn 1) (Cursor.start s (tstInstr .f (rn 1)).opcode) = .ok (0x8000, k)) ∧
    (∃ k, readOperand (.floating .f) (rn 1) (Cursor.start s (subInstr2 .f (rn 1) (rn 2)).opcode)
      = .ok (0x8000, k)) ∧
    (∃ k, readOperand (.floating .f) (rn 1) (Cursor.start s (subInstr3 .f (rn 1) (rn 2) (rn 3)).opcode)
      = .ok (0x8000, k)) ∧
    FType.f.sign 0x8000 = 1 ∧ FType.f.exponent 0x8000 = 0 :=
  ⟨⟨_, rfl⟩, ⟨_, rfl⟩, ⟨_, rfl⟩, rfl, rfl⟩

theorem witness_ReservedMinuendFaults :
    let s := work.setReg 2 0x8000
    (∃ k k', readFloating .f (rn 1) (Cursor.start s (subInstr2 .f (rn 1) (rn 2)).opcode) = .ok (0x4080, k) ∧
      locate .modify (.floating .f) (rn 2) k = .ok (.register 2, k') ∧
      (Location.register 2).read (.floating .f) k'.state = .ok 0x8000) ∧
    (∃ k k', readFloating .f (rn 1) (Cursor.start s (subInstr3 .f (rn 1) (rn 2) (rn 3)).opcode)
        = .ok (0x4080, k) ∧ readOperand (.floating .f) (rn 2) k = .ok (0x8000, k')) ∧
    FType.f.sign 0x8000 = 1 ∧ FType.f.exponent 0x8000 = 0 :=
  ⟨⟨_, _, rfl, rfl, rfl⟩, ⟨_, _, rfl, rfl⟩, rfl, rfl⟩

/-- A negative value, and a zero with a fraction bit. -/
theorem witness_TestSetsConditionCodesFromTheOperand :
    (∃ k, readOperand (.floating .f) (lit 8) (Cursor.start work (tstInstr .f (lit 8)).opcode)
      = .ok (0x4080, k)) ∧ ¬(FType.f.sign 0x4080 = 1 ∧ FType.f.exponent 0x4080 = 0) ∧
    (∃ k, readOperand (.floating .f) (rn 1)
      (Cursor.start (work.setReg 1 0x10000) (tstInstr .f (rn 1)).opcode) = .ok (0x10000, k)) ∧
    ¬(FType.f.sign 0x10000 = 1 ∧ FType.f.exponent 0x10000 = 0) :=
  ⟨⟨_, rfl⟩, by decide, ⟨_, rfl⟩, by decide⟩

/-! Character strings: `work` holds "ABAB" at 0x1000 (R6), "ABXB" at 0x2000 (R7), zeros at 0x4000 (R8). -/

/-- Equal strings of lengths 2 and 0; a first difference at the last byte of 3, and at the first byte of 1. -/
theorem witness_CompareStopsAtTheFirstDifference :
    (∃ k, operands3 .cmpc3 (lit 3) (atR 6) (atR 7) work = .ok (3, 0x1000, 0x2000, k)) ∧
    (∀ i, i < 2 → byteOf work 0x1000 i = byteOf work 0x2000 i) ∧
    byteOf work 0x1000 2 ≠ byteOf work 0x2000 2 ∧
    (∃ k, operands3 .cmpc3 (lit 2) (atR 6) (atR 7) work = .ok (2, 0x1000, 0x2000, k)) ∧
    (∃ k, operands3 .cmpc3 (lit 0) (atR 6) (atR 7) work = .ok (0, 0x1000, 0x2000, k)) ∧
    (∃ k, operands3 .cmpc3 (lit 1) (atR 6) (atR 8) work = .ok (1, 0x1000, 0x4000, k)) ∧
    byteOf work 0x1000 0 ≠ byteOf work 0x4000 0 ∧ ∀ a n, admitted work .read a n :=
  ⟨⟨_, rfl⟩, by decide +kernel, by decide +kernel, ⟨_, rfl⟩, ⟨_, rfl⟩, ⟨_, rfl⟩, by decide +kernel,
    fun _ _ _ _ => rfl⟩

/-- Zeros against shorter zeros filled with 0; a first difference at the first byte past the shorter string, of
length 2 and of length 0. -/
theorem witness_FilledCompareStopsAtTheFirstDifference :
    (∃ k, operands5 .cmpc5 (lit 2) (atR 6) (lit 0) (lit 3) (atR 7) work = .ok (2, 0x1000, 0, 3, 0x2000, k)) ∧
    (∀ i, i < 2 → filledByte work 0 2 0x1000 i = filledByte work 0 3 0x2000 i) ∧
    filledByte work 0 2 0x1000 2 ≠ filledByte work 0 3 0x2000 2 ∧
    (∃ k, operands5 .cmpc5 (lit 4) (atR 8) (lit 0) (lit 2) (atR 8) work = .ok (4, 0x4000, 0, 2, 0x4000, k)) ∧
    (∀ i, i < max 4 2 → filledByte work 0 4 0x4000 i = filledByte work 0 2 0x4000 i) ∧
    (∃ k, operands5 .cmpc5 (lit 0) (atR 6) (lit 0) (lit 1) (atR 7) work = .ok (0, 0x1000, 0, 1, 0x2000, k)) ∧
    filledByte work 0 0 0x1000 0 ≠ filledByte work 0 1 0x2000 0 ∧ ∀ a n, admitted work .read a n :=
  ⟨⟨_, rfl⟩, by decide +kernel, by decide +kernel, ⟨_, rfl⟩, by decide +kernel, ⟨_, rfl⟩, by decide +kernel,
    fun _ _ _ _ => rfl⟩

/-- The character at the last byte, at the first byte, and nowhere. -/
theorem witness_LocateFindsTheLowestByte :
    (∃ k, loccOperands (.plain (.immediate 0x58)) (lit 3) (atR 7) work = .ok (0x58, 3, 0x2000, k)) ∧
    (∀ i, i < 2 → byteOf work 0x2000 i ≠ 0x58) ∧ byteOf work 0x2000 2 = 0x58 ∧
    (∃ k, loccOperands (.plain (.immediate 0x41)) (lit 3) (atR 7) work = .ok (0x41, 3, 0x2000, k)) ∧
    byteOf work 0x2000 0 = 0x41 ∧
    (∃ k, loccOperands (lit 1) (lit 3) (atR 7) work = .ok (1, 3, 0x2000, k)) ∧
    (∀ i, i < 3 → byteOf work 0x2000 i ≠ 1) ∧ admitted work .read 0x2000 3 :=
  ⟨⟨_, rfl⟩, by decide +kernel, by decide +kernel, ⟨_, rfl⟩, by decide +kernel, ⟨_, rfl⟩, by decide +kernel,
    fun _ _ => rfl⟩

/-- "AB" stands in "ABAB" at 0; the byte at 0x2002 stands in "ABX" at its end; "ABX" stands nowhere in "ABAB". -/
theorem witness_MatchFindsTheLowestSubstring :
    (∃ k, matchcOperands (lit 2) (atR 7) (lit 4) (atR 6) work = .ok (2, 0x2000, 4, 0x1000, k)) ∧
    standsAt work 2 0x2000 0x1000 0 ∧
    (∃ k, matchcOperands (lit 1) (.plain (.absolute 0x2002)) (lit 3) (atR 7) work
      = .ok (1, 0x2002, 3, 0x2000, k)) ∧
    standsAt work 1 0x2002 0x2000 2 ∧ (∀ q, q < 2 → ¬standsAt work 1 0x2002 0x2000 q) ∧
    (∃ k, matchcOperands (lit 3) (atR 7) (lit 4) (atR 6) work = .ok (3, 0x2000, 4, 0x1000, k)) ∧
    (∀ p, p + 3 ≤ 4 → ¬standsAt work 3 0x2000 0x1000 p) ∧ ∀ a n, admitted work .read a n := by
  refine ⟨⟨_, rfl⟩, ?_, ⟨_, rfl⟩, ?_, ?_, ⟨_, rfl⟩, ?_, fun _ _ _ _ => rfl⟩
  · unfold standsAt; decide +kernel
  · unfold standsAt; decide +kernel
  · unfold standsAt; decide +kernel
  · intro p hp
    have h : ∀ p, p < 2 → ¬∀ j, j < 3 → byteOf work 0x1000 (p + j) = byteOf work 0x2000 j := by decide +kernel
    exact h p (by omega)

/-- An overlapping move; an address inside and one outside the destination. -/
theorem witness_MoveCopiesTheOriginalSource :
    (∃ k, operands3 .movc3 (lit 4) (atR 6) (.plain (.absolute 0x1002)) work = .ok (4, 0x1000, 0x1002, k)) ∧
    admitted work .read 0x1000 4 ∧ admitted work .write 0x1002 4 ∧ Memory.wf work.mem = true ∧
    (∀ i, i < 4 → (0x1006 : Word) ≠ offset 0x1002 i) :=
  ⟨⟨_, rfl⟩, fun _ _ => rfl, fun _ _ => rfl, by decide +kernel, by decide +kernel⟩

/-- A filling, and a destination of length 0 whose source is not admitted. -/
theorem witness_MoveFillsTheRestOfTheDestination :
    (∃ k, operands5 .movc5 (lit 2) (atR 6) (lit 42) (lit 5) (atR 7) work = .ok (2, 0x1000, 42, 5, 0x2000, k)) ∧
    admitted work .read 0x1000 2 ∧ admitted work .write 0x2000 5 ∧ Memory.wf work.mem = true ∧
    (∀ i, i < 5 → (0x2005 : Word) ≠ offset 0x2000 i) ∧
    (∃ k, operands5 .movc5 (lit 2) (atR 6) (lit 42) (lit 0) (atR 7) (denying work .read 0x1000)
      = .ok (2, 0x1000, 42, 0, 0x2000, k)) ∧
    admitted (denying work .read 0x1000) .write 0x2000 0 :=
  ⟨⟨_, rfl⟩, fun _ _ => rfl, fun _ _ => rfl, by decide +kernel, by decide +kernel, ⟨_, rfl⟩,
    fun _ h => absurd h (by omega)⟩

theorem far_from_table (i j : Nat) (hi : i < 3) (hj : j < 256) : offset 0x2000 i ≠ offset 0x4000 j := by
  unfold offset
  intro h
  have h := congrArg BitVec.toNat h
  change (8192 + i % 2 ^ 32) % 2 ^ 32 = (16384 + j % 2 ^ 32) % 2 ^ 32 at h
  omega

theorem witness_TranslationStoresTheTableEntries :
    (∃ k, movtcOperands (lit 2) (atR 6) (lit 42) (atR 8) (lit 3) (atR 7) work
      = .ok (2, 0x1000, 42, 0x4000, 3, 0x2000, k)) ∧
    admitted work .read 0x1000 2 ∧ admitted work .write 0x2000 3 ∧ admitted work .read 0x4000 256 ∧
    (∀ i j, i < 3 → j < 256 → offset 0x2000 i ≠ offset 0x4000 j) ∧ Memory.wf work.mem = true :=
  ⟨⟨_, rfl⟩, fun _ _ => rfl, fun _ _ => rfl, fun _ _ => rfl, far_from_table, by decide +kernel⟩

/-- The destination's first byte is the table's last; both policies, and an empty source with no table byte readable. -/
theorem witness_TranslationOntoTheTableIsUnpredictable :
    let s1 := { work with platform := { work.platform with movtcOverlap := .refuse } }
    (∃ k, movtcOperands (lit 2) (atR 6) (lit 42) (atR 8) (lit 3) (.plain (.absolute 0x40FF)) work
      = .ok (2, 0x1000, 42, 0x4000, 3, 0x40FF, k)) ∧
    (∃ k, movtcOperands (lit 2) (atR 6) (lit 42) (atR 8) (lit 3) (.plain (.absolute 0x40FF)) s1
      = .ok (2, 0x1000, 42, 0x4000, 3, 0x40FF, k)) ∧
    (∀ kind a n, admitted work kind a n ∧ admitted s1 kind a n) ∧
    offset 0x40FF 0 = offset 0x4000 255 ∧ Memory.wf work.mem = true ∧
    work.platform.movtcOverlap = .draw ∧ s1.platform.movtcOverlap = .refuse ∧
    (let s2 := denying work .read 0x4000
     (∃ k, movtcOperands (lit 0) (atR 6) (lit 42) (atR 8) (lit 3) (.plain (.absolute 0x40FF)) s2
      = .ok (0, 0x1000, 42, 0x4000, 3, 0x40FF, k)) ∧ admitted s2 .read 0x1000 0 ∧ admitted s2 .write 0x40FF 3 ∧
      ¬admitted s2 .read 0x4000 256 ∧ s2.platform.movtcOverlap = .draw) :=
  ⟨⟨_, rfl⟩, ⟨_, rfl⟩, fun _ _ _ => ⟨fun _ _ => rfl, fun _ _ => rfl⟩, rfl, by decide +kernel, rfl, rfl,
    ⟨_, rfl⟩, fun _ h => absurd h (by omega), by unfold admitted; decide +kernel,
    fun h => absurd (h 0 (by omega)) (by decide +kernel), rfl⟩

/-- Strings that overlap in both directions, and a translation onto its own source. -/
theorem witness_OverlapDoesNotAffectTheMoves :
    (∃ k, operands3 .movc3 (lit 4) (atR 6) (.plain (.absolute 0x1002)) work = .ok (4, 0x1000, 0x1002, k)) ∧
    (∃ k, operands5 .movc5 (lit 4) (atR 6) (lit 1) (lit 5) (.plain (.absolute 0xFFE)) work
      = .ok (4, 0x1000, 1, 5, 0xFFE, k)) ∧
    (∃ k, movtcOperands (lit 3) (atR 7) (lit 1) (atR 8) (lit 3) (atR 7) work
      = .ok (3, 0x2000, 1, 0x4000, 3, 0x2000, k)) ∧
    (∀ kind a n, admitted work kind a n) ∧
    (∀ i j, i < 3 → j < 256 → offset 0x2000 i ≠ offset 0x4000 j) ∧ Memory.wf work.mem = true :=
  ⟨⟨_, rfl⟩, ⟨_, rfl⟩, ⟨_, rfl⟩, fun _ _ _ _ _ => rfl, far_from_table, by decide +kernel⟩

/-- One witness for each of the clauses, in their order. -/
theorem witness_ZeroLengthStringsMakeNoReference :
    (∃ k, operands3 .cmpc3 (lit 0) (atR 6) (atR 7) work = .ok (0, 0x1000, 0x2000, k)) ∧
    (∃ k, operands5 .cmpc5 (lit 0) (atR 6) (lit 1) (lit 0) (atR 7) work = .ok (0, 0x1000, 1, 0, 0x2000, k)) ∧
    (∃ k, operands5 .cmpc5 (lit 0) (atR 6) (lit 1) (lit 3) (atR 7) (denying work .read 0x1000)
      = .ok (0, 0x1000, 1, 3, 0x2000, k)) ∧ admitted (denying work .read 0x1000) .read 0x2000 3 ∧
    (∃ k, operands5 .cmpc5 (lit 3) (atR 7) (lit 1) (lit 0) (atR 6) (denying work .read 0x1000)
      = .ok (3, 0x2000, 1, 0, 0x1000, k)) ∧
    (∃ k, loccOperands (lit 1) (lit 0) (atR 6) work = .ok (1, 0, 0x1000, k)) ∧
    (∃ k, matchcOperands (lit 0) (atR 6) (lit 4) (atR 7) work = .ok (0, 0x1000, 4, 0x2000, k)) ∧
    (∃ k, matchcOperands (lit 4) (atR 6) (lit 0) (atR 7) work = .ok (4, 0x1000, 0, 0x2000, k)) ∧
    (∃ k, operands3 .movc3 (lit 0) (atR 6) (atR 7) work = .ok (0, 0x1000, 0x2000, k)) ∧
    (∃ k, operands5 .movc5 (lit 2) (atR 6) (lit 1) (lit 0) (atR 7) work = .ok (2, 0x1000, 1, 0, 0x2000, k)) ∧
    (∃ k, operands5 .movc5 (lit 0) (atR 6) (lit 1) (lit 3) (atR 7) work = .ok (0, 0x1000, 1, 3, 0x2000, k)) ∧
    (∃ k, movtcOperands (lit 2) (atR 6) (lit 1) (atR 8) (lit 0) (atR 7) work
      = .ok (2, 0x1000, 1, 0x4000, 0, 0x2000, k)) ∧
    (∃ k, movtcOperands (lit 0) (atR 6) (lit 1) (atR 8) (lit 3) (atR 7) work
      = .ok (0, 0x1000, 1, 0x4000, 3, 0x2000, k)) ∧
    admitted work .write 0x2000 3 ∧ (∀ i j, i < 3 → j < 256 → offset 0x2000 i ≠ offset 0x4000 j) ∧
    Memory.wf work.mem = true :=
  ⟨⟨_, rfl⟩, ⟨_, rfl⟩, ⟨_, rfl⟩, by unfold admitted; decide +kernel, ⟨_, rfl⟩, ⟨_, rfl⟩, ⟨_, rfl⟩, ⟨_, rfl⟩,
    ⟨_, rfl⟩, ⟨_, rfl⟩, ⟨_, rfl⟩, ⟨_, rfl⟩, ⟨_, rfl⟩, fun _ _ => rfl, far_from_table, by decide +kernel⟩

/-- A string check that stops at the first byte of its first string, and at the last byte of its last. -/
theorem stops_first (s : State) (kind : AccessKind) (a : Word) (n : Nat) (rest : List (AccessKind × Word × Nat))
    (hn : 0 < n) (h : s.admits kind a = false) : stopsAt s ((kind, a, n) :: rest) kind a :=
  .inl ⟨rfl, 0, hn, fun i hi => absurd hi (Nat.not_lt_zero i), by simpa [offset] using h, by simp [offset]⟩

theorem stops_second (s : State) (k1 k2 : AccessKind) (a1 a2 : Word) (n1 n2 : Nat)
    (rest : List (AccessKind × Word × Nat)) (h1 : admitted s k1 a1 n1) (h2 : admitted s k2 a2 n2)
    (h : s.admits k2 (offset a2 n2) = false) :
    stopsAt s ((k1, a1, n1) :: (k2, a2, n2 + 1) :: rest) k2 (offset a2 n2) :=
  .inr ⟨h1, .inl ⟨rfl, n2, Nat.lt_succ_self _, h2, h, rfl⟩⟩

/-- For each instruction a first string whose first byte, or a last string whose last byte, is not admitted. -/
theorem witness_StringAccessIsCheckedBeforeTheStart :
    (let s := denying work .read 0x1000
     (∃ k, operands3 .cmpc3 (lit 4) (atR 6) (atR 7) s = .ok (4, 0x1000, 0x2000, k)) ∧
     (∃ k, operands5 .cmpc5 (lit 4) (atR 6) (lit 1) (lit 0) (atR 7) s = .ok (4, 0x1000, 1, 0, 0x2000, k)) ∧
     (∃ k, loccOperands (lit 1) (lit 4) (atR 6) s = .ok (1, 4, 0x1000, k)) ∧
     (∃ k, matchcOperands (lit 4) (atR 6) (lit 1) (atR 7) s = .ok (4, 0x1000, 1, 0x2000, k)) ∧
     (∃ k, operands3 .movc3 (lit 4) (atR 6) (atR 7) s = .ok (4, 0x1000, 0x2000, k)) ∧
     (∃ k, operands5 .movc5 (lit 4) (atR 6) (lit 1) (lit 1) (atR 7) s = .ok (4, 0x1000, 1, 1, 0x2000, k)) ∧
     (∃ k, movtcOperands (lit 4) (atR 6) (lit 1) (atR 8) (lit 1) (atR 7) s
      = .ok (4, 0x1000, 1, 0x4000, 1, 0x2000, k)) ∧
     ∀ n rest, stopsAt s ((.read, 0x1000, n + 1) :: rest) .read 0x1000) ∧
    (let s := denying work .read 0x2003
     (∃ k, operands3 .cmpc3 (lit 4) (atR 6) (atR 7) s = .ok (4, 0x1000, 0x2000, k)) ∧
     (∃ k, matchcOperands (lit 4) (atR 6) (lit 4) (atR 7) s = .ok (4, 0x1000, 4, 0x2000, k)) ∧
     stopsAt s [(.read, 0x1000, 4), (.read, 0x2000, 4)] .read 0x2003) ∧
    (let s := denying work .write 0x2003
     (∃ k, operands3 .movc3 (lit 4) (atR 6) (atR 7) s = .ok (4, 0x1000, 0x2000, k)) ∧
     (∃ k, operands5 .movc5 (lit 4) (atR 6) (lit 1) (lit 4) (atR 7) s = .ok (4, 0x1000, 1, 4, 0x2000, k)) ∧
     ∀ rest, stopsAt s ((.read, 0x1000, 4) :: (.write, 0x2000, 4) :: rest) .write 0x2003) ∧
    (let s := denying work .read 0x40FF
     (∃ k, movtcOperands (lit 4) (atR 6) (lit 1) (atR 8) (lit 1) (atR 7) s
      = .ok (4, 0x1000, 1, 0x4000, 1, 0x2000, k)) ∧
     stopsAt s [(.read, 0x1000, 4), (.write, 0x2000, 1), (.read, 0x4000, if 4 = 0 then 0 else 256)]
       .read 0x40FF) :=
  ⟨⟨⟨_, rfl⟩, ⟨_, rfl⟩, ⟨_, rfl⟩, ⟨_, rfl⟩, ⟨_, rfl⟩, ⟨_, rfl⟩, ⟨_, rfl⟩,
      fun _ _ => stops_first _ _ _ _ _ (Nat.succ_pos _) rfl⟩,
    ⟨⟨_, rfl⟩, ⟨_, rfl⟩, stops_second _ _ _ _ _ 4 3 _ (by unfold admitted; decide +kernel)
      (by unfold admitted; decide +kernel) rfl⟩,
    ⟨⟨_, rfl⟩, ⟨_, rfl⟩, fun _ => stops_second _ _ _ _ _ 4 3 _ (by unfold admitted; decide +kernel)
      (by unfold admitted; decide +kernel) rfl⟩,
    ⟨⟨_, rfl⟩, .inr ⟨by unfold admitted; decide +kernel, stops_second _ _ _ _ _ 1 255 _
      (by unfold admitted; decide +kernel) (by unfold admitted; decide +kernel) rfl⟩⟩⟩

/-- A length register whose high half is not zero, at its highest low half. -/
theorem witness_OperandsAreReadBeforeTheControlBlock :
    let s := work.setReg 0 0xAAAAFFFF
    ((s.getReg 0).setWidth 16).toNat = 65535 ∧ (∀ kind a n, admitted s kind a n) ∧ Memory.wf s.mem = true :=
  ⟨rfl, fun _ _ _ _ _ => rfl, by decide +kernel⟩

/-! Access faults and the platform. -/

/-- A read operand in memory (last byte), after an operand that steps R6; a modify operand (first byte); the pointer of
displacement deferred (first byte) and, under index mode, of autoincrement deferred (last byte). -/
theorem witness_OperandReadsFaultBeforeTheInstruction :
    (let s := denying work .read 0x2003
     ∃ k k', evaluateOperands [((.read, .floating .f), .plain (.autoincrement 6))] (Cursor.start s .subf3) = .ok k ∧
      operandAddress 4 (atR 7) k = .ok (0x2000, k') ∧ (atR 7).legal .read (.floating .f) = true ∧
      admitted s .read 0x2000 3 ∧ s.admits .read (offset 0x2000 3) = false) ∧
    (let s := denying work .read 0x1000
     ∃ k k', evaluateOperands [((.read, .floating .f), rn 1)] (Cursor.start s .subf2) = .ok k ∧
      operandAddress 4 (atR 6) k = .ok (0x1000, k') ∧ (atR 6).legal .modify (.floating .f) = true ∧
      s.admits .read (offset 0x1000 0) = false) ∧
    (let s := denying work .read 0x1000
     pointerAddress 4 (.plain (.displacementDeferred 6 (.byte 0))) (Cursor.start s .tstf) = some 0x1000 ∧
      s.admits .read (offset 0x1000 0) = false) ∧
    (let s := denying work .read 0x1003
     pointerAddress 4 (.index 1 (.autoincrementDeferred 6)) (Cursor.start s .tstf) = some 0x1000 ∧
      Specifier.legal .read (.floating .f) (.index 1 (.autoincrementDeferred 6)) = true ∧
      admitted s .read 0x1000 3 ∧ s.admits .read (offset 0x1000 3) = false) ∧
    (let s := denying work .read 0x1001
     ∃ k k', evaluateOperands [((.read, .byte), lit 1)] (Cursor.start s .locc) = .ok k ∧
      operandAddress 2 (.plain (.autoincrement 6)) k = .ok (0x1000, k') ∧
      Specifier.legal .read .word (.plain (.autoincrement 6)) = true ∧ admitted s .read 0x1000 1 ∧
      s.admits .read (offset 0x1000 1) = false ∧
      (isSub (.locc (lit 1) (.plain (.autoincrement 6)) (atR 7))
        || isTst (.locc (lit 1) (.plain (.autoincrement 6)) (atR 7))) = false) := by
  unfold admitted
  exact ⟨⟨_, _, rfl, rfl, rfl, by decide +kernel, rfl⟩, ⟨_, _, rfl, rfl, rfl, rfl⟩, ⟨rfl, rfl⟩,
    ⟨rfl, rfl, by decide +kernel, rfl⟩, _, _, rfl, rfl, rfl, by decide +kernel, rfl, rfl⟩

/-- The longest and the empty destination, the first and the last register of each group, an address outside. -/
theorem witness_StringFaultLeavesFreeValues :
    (65535 < 2 ^ 16 ∧ 0 < 2 ^ 16) ∧ Memory.wf work.mem = true ∧ (5 : Reg).val < 6 ∧ 6 ≤ (6 : Reg).val ∧
      6 ≤ (15 : Reg).val ∧ ∀ i, i < 4 → (0x2004 : Word) ≠ offset 0x2000 i := by decide +kernel

/-- The default subtraction function. -/
theorem witness_PlatformParametersAreArbitrary :
    (∀ (t : FType) a b r, t.fsub a b = .value r → isDatum t r ∧ (t.isZero r = true → r = 0)) ∧
    ∀ (t : FType) a b d, isDatum t a → isDatum t b → isDatum t d → value t a - value t b = value t d →
      t.fsub a b = t.fsub a b := by
  refine ⟨fun t a b r h => ?_, fun _ _ _ _ _ _ _ _ => rfl⟩
  have hr := fsub_isResult t a b
  rw [h] at hr
  simp only [FType.isResult, zeroDatum, Bool.and_eq_true, decide_eq_true_eq, Bool.not_eq_true', Bool.or_eq_true,
    beq_iff_eq] at hr
  exact ⟨⟨hr.1.1, hr.1.2⟩, fun hz => hr.2.resolve_right (by simp [hz])⟩

end Sys2Proof.Tests
end

section
/-! What an answer of a subtraction function is in terms of the values of data, and the platform that has a given
admission, set of implemented opcodes and subtraction function (00_scope.md R6; 40_floating_sub_tst.md R104). -/

open Sys2Proof Sys2Proof.Machine Sys2Proof.Claims

namespace Sys2Proof.Proofs

section Values

/-- The model's integer for a datum is its value times 2^(bias + p) (R102). -/
theorem scaled_eq_value_mul (t : FType) (B : Nat) :
    (t.scaled B : ℚ) = value t B * 2 ^ (t.bias + t.precision) := by
  unfold value FType.scaled
  by_cases he : t.exponent B = 0
  · simp [he]
  · have hexp : (2 : ℚ) ^ ((t.exponent B : ℤ) - (t.bias : ℤ)) = 2 ^ t.exponent B / 2 ^ t.bias := by
      rw [zpow_sub₀ two_ne_zero, zpow_natCast, zpow_natCast]
    rw [if_neg he, if_neg he, hexp, pow_add]
    push_cast
    field_simp

/-- A difference of values is a difference of the model's integers. -/
theorem value_sub_eq_iff_scaled {t : FType} {a b d : Nat} :
    value t a - value t b = value t d ↔ t.scaled d = t.scaled a - t.scaled b := by
  have hpos : (2 : ℚ) ^ (t.bias + t.precision) ≠ 0 := by positivity
  rw [← @Int.cast_inj ℚ, Int.cast_sub, scaled_eq_value_mul, scaled_eq_value_mul, scaled_eq_value_mul, ← sub_mul,
    mul_left_inj' hpos, eq_comm]

/-- The values a subtraction function can answer are the data whose only zero is that of all bits 0 (R103, R104). -/
theorem isResult_value_iff {t : FType} {r : Nat} :
    t.isResult (.value r) = true ↔ isDatum t r ∧ (t.isZero r = true → r = 0) := by
  simp [FType.isResult, isDatum, zeroDatum, or_iff_not_imp_right]

/-- Where the default is exact, its answer is a datum whose value is the difference (R104). -/
theorem exists_value_of_isExact {t : FType} {a b : Nat} (h : t.isExact a b = true) :
    ∃ d, t.fsub a b = .value d ∧ isDatum t d ∧ value t a - value t b = value t d := by
  have hres := fsub_isResult t a b
  unfold FType.isExact at h
  cases hd : t.fsub a b with
  | value d =>
    rw [hd] at h hres
    exact ⟨d, rfl, (isResult_value_iff.mp hres).1, value_sub_eq_iff_scaled.mpr (beq_iff_eq.mp h)⟩
  | overflow => simp [hd] at h
  | underflow => simp [hd] at h

end Values

section Admission

theorem admitRule_covers {r : AdmitRule} {kind : AccessKind} {a : Word} :
    r.covers kind a = true ↔ r.kind = kind ∧ r.base ≤ a.toNat ∧ a.toNat < r.base + r.size := by
  simp [AdmitRule.covers, and_assoc]

variable (admission : AccessKind → Word → Bool)

/-- The rule about one byte only that answers as the predicate does there. -/
def admitRuleAt (x : AccessKind × Word) : AdmitRule :=
  { kind := x.1, base := x.2.toNat, size := 1, admitted := admission x.1 x.2 }

theorem admitRuleAt_covers {x : AccessKind × Word} {kind : AccessKind} {a : Word} :
    (admitRuleAt admission x).covers kind a = true ↔ x = (kind, a) := by
  rw [admitRule_covers, Prod.ext_iff]
  dsimp only [admitRuleAt]
  exact and_congr_right fun _ => ⟨fun h => BitVec.eq_of_toNat_eq (by omega), fun h => by rw [h]; omega⟩

/-- A list of such rules is the predicate on the accesses it lists. -/
theorem admitsBy_admitRuleAt {kind : AccessKind} {a : Word} {accesses : List (AccessKind × Word)}
    (h : (kind, a) ∈ accesses) : admitsBy (accesses.map (admitRuleAt admission)) kind a = admission kind a := by
  induction accesses with
  | nil => simp at h
  | cons x xs ih =>
    rw [List.map_cons, admitsBy]
    split
    · next hc => obtain rfl := (admitRuleAt_covers admission).mp hc; rfl
    · next hc =>
      exact ih ((List.mem_cons.mp h).resolve_left fun hx => hc ((admitRuleAt_covers admission).mpr hx.symm))

/-- Every access to one byte. -/
def allAccesses : List (AccessKind × Word) :=
  [.read, .write, .fetch] ×ˢ (List.range (2 ^ 32)).map (BitVec.ofNat 32)

theorem mem_allAccesses (kind : AccessKind) (a : Word) : (kind, a) ∈ allAccesses := by
  refine List.mem_product.mpr ⟨by cases kind <;> decide, List.mem_map.mpr ⟨a.toNat, ?_, ?_⟩⟩
  · exact List.mem_range.mpr a.isLt
  · simp

end Admission

section Subtraction

variable (fsub : FType → Nat → Nat → FSubResult)

/-- The row about these operands that answers as the function does. -/
def subtractionRuleAt (x : FType × Nat × Nat) : SubtractionRule :=
  { ty := x.1, minuend := x.2.1, subtrahend := x.2.2, result := fsub x.1 x.2.1 x.2.2 }

theorem subtractionRuleAt_covers {x : FType × Nat × Nat} {t : FType} {a b : Nat}
    (hres : t.isResult (fsub t a b) = true) :
    (subtractionRuleAt fsub x).covers t a b = true ↔ x = (t, a, b) := by
  obtain ⟨t', a', b'⟩ := x
  simp only [subtractionRuleAt, SubtractionRule.covers, Bool.and_eq_true, beq_iff_eq, Prod.mk.injEq]
  constructor
  · rintro ⟨⟨⟨ht, ha⟩, hb⟩, -⟩; exact ⟨ht, ha, hb⟩
  · rintro ⟨rfl, rfl, rfl⟩; exact ⟨⟨⟨rfl, rfl⟩, rfl⟩, hres⟩

/-- A list of such rows is the function on the operands it lists. -/
theorem subtractBy_subtractionRuleAt {t : FType} {a b : Nat} {operands : List (FType × Nat × Nat)}
    (hres : t.isResult (fsub t a b) = true) (h : (t, a, b) ∈ operands) :
    subtractBy (operands.map (subtractionRuleAt fsub)) t a b = fsub t a b := by
  induction operands with
  | nil => simp at h
  | cons x xs ih =>
    rw [List.map_cons, subtractBy]
    split
    · next hc => obtain rfl := (subtractionRuleAt_covers fsub hres).mp hc; rfl
    · next hc =>
      exact ih ((List.mem_cons.mp h).resolve_left fun hx => hc ((subtractionRuleAt_covers fsub hres).mpr hx.symm))

/-- The numbers that fit a type. -/
def allOfSize (t : FType) : List Nat := List.range (256 ^ t.size)

/-- Every pair of numbers that fit a type, for each type. -/
def allOperands : List (FType × Nat × Nat) :=
  [.f, .d, .g, .h].flatMap fun t => (allOfSize t ×ˢ allOfSize t).map (Prod.mk t)

theorem mem_allOperands {t : FType} {a b : Nat} (ha : isDatum t a) (hb : isDatum t b) :
    (t, a, b) ∈ allOperands := by
  refine List.mem_flatMap.mpr ⟨t, by cases t <;> decide, List.mem_map.mpr ⟨(a, b), ?_, rfl⟩⟩
  exact List.mem_product.mpr ⟨List.mem_range.mpr ha.1, List.mem_range.mpr hb.1⟩

end Subtraction

/-- The platform with these parameters (00_scope.md R6). -/
def platformOf (admission : AccessKind → Word → Bool) (implemented : Opcode → Bool) (overlap : OverlapPolicy)
    (fsub : FType → Nat → Nat → FSubResult) : Platform :=
  { admission := allAccesses.map (admitRuleAt admission)
    notImplemented := Opcode.all.filter fun op => !implemented op
    movtcOverlap := overlap
    subtraction := allOperands.map (subtractionRuleAt fsub) }

section PlatformOf

variable {admission : AccessKind → Word → Bool} {implemented : Opcode → Bool} {overlap : OverlapPolicy}
  {fsub : FType → Nat → Nat → FSubResult}

theorem admits_platformOf {s : State} (hs : s.platform = platformOf admission implemented overlap fsub) :
    s.admits = admission := by
  funext kind a
  simp only [State.admits, hs, platformOf, admitsBy_admitRuleAt admission (mem_allAccesses kind a)]

theorem implements_platformOf : (platformOf admission implemented overlap fsub).implements = implemented := by
  funext op
  simp [Platform.implements, platformOf, List.mem_filter, opcode_mem_all]

/-- An exact difference is the default's answer, which the function then gives too; any other is looked up in the
rows (R104). -/
theorem fsub_platformOf (hres : ∀ t a b r, fsub t a b = .value r → isDatum t r ∧ (t.isZero r = true → r = 0))
    (hexact : ∀ t a b d, isDatum t a → isDatum t b → isDatum t d → value t a - value t b = value t d →
      fsub t a b = t.fsub a b) {t : FType} {a b : Nat} (ha : isDatum t a) (hb : isDatum t b) :
    (platformOf admission implemented overlap fsub).fsub t a b = fsub t a b := by
  unfold Platform.fsub
  split
  · next h =>
    obtain ⟨d, -, hd, hval⟩ := exists_value_of_isExact h
    exact (hexact t a b d ha hb hd hval).symm
  · have hresult : t.isResult (fsub t a b) = true := by
      cases h : fsub t a b with
      | value r => exact isResult_value_iff.mpr (hres t a b r h)
      | overflow => rfl
      | underflow => rfl
    simp only [platformOf, subtractBy_subtractionRuleAt fsub hresult (mem_allOperands ha hb)]

end PlatformOf

/-- Settles O60: the platform that lists every access, opcode and pair of operands has the parameters. -/
theorem platformParametersAreArbitrary : Obligations.PlatformParametersAreArbitrary := by
  intro admission implemented overlap fsub hres hexact
  exact ⟨platformOf admission implemented overlap fsub, fun _ => admits_platformOf, implements_platformOf, rfl,
    fun _ _ _ => fsub_platformOf hres hexact⟩

end Sys2Proof.Proofs
end

section
/-! What a completed instruction leaves as it was, whatever the instruction, and what a step refuses (10_state.md R20
to R26). -/

open Sys2Proof Sys2Proof.Machine Sys2Proof.Safety Sys2Proof.Claims

namespace Sys2Proof.Proofs

section Frames

/-- `u` is `s` but for memory, the marks, and the count of draws, whose canonical forms are kept. -/
structure OnlyStores (s u : State) : Prop where
  psl : u.psl = s.psl
  platform : u.platform = s.platform
  regs : ∀ n, u.getReg n = s.getReg n
  mem : s.mem.wf = true → u.mem.wf = true
  written : Written.wf s.written = true → Written.wf u.written = true

theorem onlyStores_refl (s : State) : OnlyStores s s := ⟨rfl, rfl, fun _ => rfl, id, id⟩

theorem onlyStores_storeBytes (s : State) (a : Word) (bs : List Byte) : OnlyStores s (s.storeBytes a bs) :=
  ⟨rfl, rfl, fun _ => rfl, Memory.writeBytes_wf bs a, Written.markRange_wf _ a⟩

theorem onlyStores_drawBytes (s : State) (as : List Word) : OnlyStores s (s.drawBytes as) :=
  ⟨State.drawBytes_psl as s, State.drawBytes_platform as s, State.getReg_drawBytes as s, drawBytes_mem_wf as,
    drawBytes_written_wf as⟩

/-- What every instruction that completes from `s`, with the PC `pc` after it, does to the state: it writes the
condition codes, and of the registers only the PC, the implied ones and its written operands. -/
structure Frame (i : Instr) (s : State) (pc : Word) (u : State) : Prop where
  pc : u.pc = pc
  psl : u.psl = s.psl.setCC u.cc
  ordered : u.cc.Ordered
  platform : u.platform = s.platform
  regs : ∀ n, n ≠ 15 → n ∉ i.opcode.implied → n ∉ i.writtenRegs → u.getReg n = s.getReg n
  mem : s.mem.wf = true → u.mem.wf = true
  written : Written.wf s.written = true → Written.wf u.written = true

variable {i : Instr} {k : Cursor} {s u v : State} {cc : CC}

theorem frame_difference {t : FType} {l : Location} {r : Nat} (hl : ∀ n ∈ l.regs (.floating t), n ∈ i.writtenRegs) :
    Frame i k.state k.addr (storeDifference t l r k) := by
  obtain ⟨hpsl, hplatform, -, hregs, -, -⟩ := location_write_frame l (.floating t) r k.state
  refine ⟨by simp [storeDifference], by simp [storeDifference, hpsl], ?_, hplatform, fun n h15 _ hn => ?_,
    location_write_mem_wf l _ r, location_write_written_wf l _ r⟩
  · simpa [storeDifference] using floatingCC_ordered t r
  · simp [storeDifference, Ne.symm h15, hregs n fun h => hn (hl n h)]

theorem frame_test {t : FType} {x : Nat} :
    Frame i k.state k.addr ((k.state.setCC (floatingCC t x)).setPc k.addr) := by
  refine ⟨by simp, by simp, by simpa using floatingCC_ordered t x, rfl, fun n h15 _ _ => ?_, id, id⟩
  simp [Ne.symm h15]

theorem frame_string {ws : List (Reg × Word)} (hws : ws.map Prod.fst = i.opcode.implied) (hcc : cc.Ordered)
    (hv : OnlyStores k.state v) : Frame i k.state k.addr (v.complete ws cc k.addr) := by
  refine ⟨by simp, by simp [hv.psl], by simpa using hcc, by simp [hv.platform], fun n h15 hn _ => ?_,
    by simpa using hv.mem, by simpa using hv.written⟩
  have hn' : ∀ w ∈ ws, w.1 ≠ n := fun w hw he => hn (hws ▸ List.mem_map.mpr ⟨w, hw, he⟩)
  rw [State.getReg_complete, if_neg (Ne.symm h15), State.getReg_setRegs ws v n hn', hv.regs]

/-- However an instruction finishes, it is framed by its operands' cursor. -/
theorem frame_of_finished (h : Finished i k u) : Frame i k.state k.addr u := by
  cases h with
  | difference t l r _ hregs _ hu => exact hu ▸ frame_difference fun n hn => (hregs n hn).1
  | test t x _ hu => exact hu ▸ frame_test
  | string v ws cc _ hws hcc hstored hu =>
    have hv : OnlyStores k.state v := by
      obtain rfl | ⟨-, ⟨d, bs, rfl, -⟩ | ⟨as, rfl, -⟩⟩ := hstored
      · exact onlyStores_refl _
      · exact onlyStores_storeBytes _ _ _
      · exact onlyStores_drawBytes _ _
    exact hu ▸ frame_string hws hcc hv

/-- What a completed instruction did to the state `t` that its operands left: `t` is `s` but for stepped registers. -/
theorem exec_frame (h : exec i s = .next u) :
    ∃ t, OnlyRegs i.steppedRegs s t ∧ Frame i t (s.pc + BitVec.ofNat 32 i.length) u := by
  obtain ⟨k, ⟨hregs, haddr⟩, hfin, -⟩ := exec_next h
  exact ⟨k.state, hregs, haddr ▸ frame_of_finished hfin⟩

theorem exec_psl (h : exec i s = .next u) : u.psl = s.psl.setCC u.cc := by
  obtain ⟨t, ht, hu⟩ := exec_frame h
  rw [hu.psl, ht.psl]

theorem pslRefusal_setCC (p : Psl) (cc : CC) : pslRefusal (p.setCC cc) = pslRefusal p := rfl

theorem exec_keeps_inv (hs : Inv s) (h : exec i s = .next u) : Inv u := by
  obtain ⟨hmem, hwritten, hpsl⟩ := hs
  obtain ⟨t, ht, hu⟩ := exec_frame h
  refine ⟨hu.mem (ht.mem ▸ hmem), hu.written (ht.written ▸ hwritten), ?_⟩
  rw [exec_psl h, pslRefusal_setCC, hpsl]

end Frames

/-- Settles O12: the step ran an instruction, which keeps the invariant. -/
theorem stepKeepsTheInvariant : Obligations.StepKeepsTheInvariant := by
  intro s u hs h
  obtain ⟨i, -, -, -, hi⟩ := step_next h
  exact exec_keeps_inv hs hi

/-- Settles O15: every instruction's frame ends at its length, which is that of its bytes. -/
theorem nextPcFollowsTheInstruction : Obligations.NextPcFollowsTheInstruction := by
  intro i s u h
  obtain ⟨t, -, hu⟩ := exec_frame h
  rw [hu.pc, encode_length]

/-- Settles O16: the frame of every instruction, and the order of the condition codes in it. -/
theorem instructionsWriteOnlyConditionCodes : Obligations.InstructionsWriteOnlyConditionCodes := by
  intro i s u h
  obtain ⟨t, ht, hu⟩ := exec_frame h
  exact ⟨exec_psl h, hu.platform.trans ht.platform, hu.ordered⟩

/-- Settles O19: registers are written by the frame and stepped by the operands only. -/
theorem otherRegistersAreUnchanged : Obligations.OtherRegistersAreUnchanged := by
  intro i s u h n h15 himplied hwritten hstepped
  obtain ⟨t, ht, hu⟩ := exec_frame h
  rw [hu.regs n h15 himplied hwritten, ht.regs n hstepped]

section Refusals

variable {s : State} {i : Instr} {j : Nat} {r : Refusal}

/-- An instruction whose byte `j` is refused, and whose bytes before it can be fetched, is refused for that reason
once the operands before that byte are evaluated; one of them that stops ends it instead (30_encoding.md R76). -/
theorem step_unread_refused (he : i.encodable = true) (hc : codeAt s (encode i)) (hp : pslRefusal s.psl = none)
    (hi : s.platform.implements i.opcode = true) (hj : j < (encode i).length) (hf : fetchable s j)
    (hb : fetchByte s j = .error (.refuse r)) :
    let before := reachOperands i.opcode (operandsBefore i j) s
    (before = .ok () → step s = .refused r) ∧
    (∀ r', before = .error (.refuse r') → step s = .refused r') ∧
    ∀ x, before = .error (.raise x) → step s = raise s x := by
  obtain ⟨htop, hadmitted, hwritten⟩ := hf
  have hbytes : ∀ m, (hm : m < j) → fetchByte s m = .ok (encode i)[m] := fun m hm =>
    fetchByte_ok.mpr ⟨by omega, hadmitted m hm, hwritten m hm, hc m (hm.trans hj)⟩
  have hstep : step s = conclude s (.error (unreadStop i.opcode (operandsBefore i j) (.refuse r) s)) := by
    simp only [step, hp, fetch_cut he hi hj hbytes hb, Stop.during_refuse, ite_self]
  obtain ⟨hok, herror⟩ := unreadStop_refuse (op := i.opcode) (os := operandsBefore i j) (r := r) (s := s)
  exact ⟨fun h => by rw [hstep, hok h]; rfl, fun r' h => by rw [hstep, herror _ h]; rfl,
    fun x h => by rw [hstep, herror _ h]; rfl⟩

theorem fetchByte_straddlesTop (h : 2 ^ 32 ≤ s.pc.toNat + j) : fetchByte s j = .error (.refuse .straddlesTop) :=
  if_pos h

end Refusals

/-- Settles O8: byte `j` is past the top. -/
theorem straddlingInstructionIsRefused : Obligations.StraddlingInstructionIsRefused := by
  intro s i j he hc hp hi hj hf htop
  exact step_unread_refused he hc hp hi hj hf (fetchByte_straddlesTop htop.ge)

/-- Settles O10: the first three by the tests of `pslRefusal` in their order, the last by `step_notImplemented`. -/
theorem stepRefusesWhatTheLaunchExcludes : Obligations.StepRefusesWhatTheLaunchExcludes := by
  refine ⟨fun s hfpd => ?_, fun s hfpd ht => ?_, fun s hfpd ht htp hcm => ?_, fun s op n => step_notImplemented⟩
  · simp [step, pslRefusal, hfpd]
  · simp [step, pslRefusal, hfpd, ht]
  · simp [step, pslRefusal, hfpd, ht, htp, hcm]

/-- Settles O11: reset holds no memory cell and no mark. -/
theorem resetIsALaunchState : Obligations.ResetIsALaunchState :=
  ⟨⟨reset_mem_wf, rfl, rfl⟩, rfl⟩

end Sys2Proof.Proofs
end

section
/-! The PSL as a longword, what an instruction reads of the PSL, and FU on underflow (10_state.md R23, R24, R26). -/

open Sys2Proof Sys2Proof.Machine Sys2Proof.Safety Sys2Proof.Claims

namespace Sys2Proof.Proofs

section PslLongword

/-- The upper part of a longword counts by the weight of its lowest bit. -/
theorem toNat_append_eq_mul_add {m n : ℕ} (x : BitVec m) (y : BitVec n) :
    (x ++ y).toNat = 2 ^ n * x.toNat + y.toNat := by
  rw [BitVec.toNat_append, ← Nat.shiftLeft_add_eq_or_of_lt y.isLt, Nat.shiftLeft_eq, Nat.mul_comm]

theorem ofBool_getLsbD (w : Word) (i : ℕ) : BitVec.ofBool (w.getLsbD i) = w.extractLsb' i 1 := by
  refine BitVec.eq_of_getLsbD_eq fun j hj => ?_
  obtain rfl : j = 0 := by omega
  simp

theorem toWord_toNat (p : Psl) : p.toWord.toNat = p.c.toNat + 2 * p.v.toNat + 2 ^ 2 * p.z.toNat + 2 ^ 3 * p.n.toNat
    + 2 ^ 4 * p.t.toNat + 2 ^ 5 * p.iv.toNat + 2 ^ 6 * p.fu.toNat + 2 ^ 7 * p.dv.toNat
    + 2 ^ 8 * p.mbz15to8.toNat + 2 ^ 16 * p.ipl.toNat + 2 ^ 21 * p.mbz21.toNat + 2 ^ 22 * p.prvMod.toNat
    + 2 ^ 24 * p.curMod.toNat + 2 ^ 26 * p.interruptStack.toNat + 2 ^ 27 * p.fpd.toNat
    + 2 ^ 28 * p.mbz29to28.toNat + 2 ^ 30 * p.tp.toNat + 2 ^ 31 * p.cm.toNat := by
  simp only [Psl.toWord, toNat_append_eq_mul_add, BitVec.toNat_ofBool]
  ring

theorem append_eq_append_iff {m n : ℕ} {x x' : BitVec m} {y y' : BitVec n} :
    x ++ y = x' ++ y' ↔ x = x' ∧ y = y' := by
  refine ⟨fun h => ⟨?_, ?_⟩, fun ⟨hx, hy⟩ => hx ▸ hy ▸ rfl⟩
  · simpa only [BitVec.extractLsb'_append_eq_left] using congrArg (BitVec.extractLsb' n m) h
  · simpa only [BitVec.extractLsb'_append_eq_right] using congrArg (BitVec.extractLsb' 0 n) h

/-- The fields are the pieces of the longword, so it determines them. -/
theorem toWord_injective : Function.Injective Psl.toWord := by
  intro p q h
  cases p
  cases q
  unfold Psl.toWord at h
  have hpieces := append_eq_append_iff.mp h
  simp only [append_eq_append_iff, BitVec.ofBool_eq_iff_eq] at hpieces
  simp only [hpieces]

/-- The fields of a longword are its adjacent pieces, from bit 31 down. -/
theorem toWord_ofWord (w : Word) : (Psl.ofWord w).toWord = w := by
  simp only [Psl.toWord, Psl.ofWord, ofBool_getLsbD]
  iterate 17 rw [BitVec.extractLsb'_append_extractLsb'_eq_extractLsb' (by rfl)]
  exact BitVec.extractLsb'_eq_self

theorem ofWord_toWord (p : Psl) : Psl.ofWord p.toWord = p :=
  toWord_injective (toWord_ofWord p.toWord)

end PslLongword

/-- Settles O57: the longword is its fields' pieces appended. -/
theorem pslHoldsItsFieldsAtTheirBits : Obligations.PslHoldsItsFieldsAtTheirBits :=
  ⟨toWord_toNat, ofWord_toWord, toWord_ofWord⟩

section OtherPsl

variable {s u : State} {k : Cursor} {p : Psl}

theorem finishComparison_withPsl (t : Comparison) (k : Cursor) :
    finishComparison t (k.withPsl p) = (finishComparison t k).withPsl (p.setCC t.cc) :=
  complete_withPsl _ _ _ _

theorem compare3_withPsl {l : BitVec 16} {a1 a2 : Word} (h : compare3 l a1 a2 k = .ok u) :
    compare3 l a1 a2 (k.withPsl p) = .ok (u.withPsl (p.setCC u.cc)) := by
  obtain ⟨ha, rfl⟩ := compare3_ok.mp h
  refine compare3_ok.mpr ⟨ha, ?_⟩
  simp only [Cursor.withPsl_state, compareEqualLength_withPsl, finishComparison_withPsl]
  simp [finishComparison]

theorem compare5_withPsl {l1 l2 : BitVec 16} {a1 a2 : Word} {f : Byte} (h : compare5 l1 a1 f l2 a2 k = .ok u) :
    compare5 l1 a1 f l2 a2 (k.withPsl p) = .ok (u.withPsl (p.setCC u.cc)) := by
  obtain ⟨ha, rfl⟩ := compare5_ok.mp h
  refine compare5_ok.mpr ⟨ha, ?_⟩
  simp only [Cursor.withPsl_state, compareFilled_withPsl, finishComparison_withPsl]
  simp [finishComparison]

theorem locateCharacter_withPsl {c : Byte} {l : BitVec 16} {a : Word} (h : locateCharacter c l a k = .ok u) :
    locateCharacter c l a (k.withPsl p) = .ok (u.withPsl (p.setCC u.cc)) := by
  obtain ⟨ha, rfl⟩ := locateCharacter_ok.mp h
  refine locateCharacter_ok.mpr ⟨ha, ?_⟩
  simp only [Cursor.withPsl_state, Cursor.withPsl_addr, locateByte_withPsl, complete_withPsl, State.complete_cc]

theorem matchResult_withPsl (ol : Nat) (oa : Word) (sl : Nat) (sa : Word) (m : Option Nat) :
    matchResult ol oa sl sa (k.withPsl p) m =
      (matchResult ol oa sl sa k m).withPsl (p.setCC (matchResult ol oa sl sa k m).cc) := by
  cases m with
  | none | some _ =>
    simp only [matchResult, Cursor.withPsl_state, Cursor.withPsl_addr, complete_withPsl, State.complete_cc]

theorem matchCharacters_withPsl {ol sl : BitVec 16} {oa sa : Word} (h : matchCharacters ol oa sl sa k = .ok u) :
    matchCharacters ol oa sl sa (k.withPsl p) = .ok (u.withPsl (p.setCC u.cc)) := by
  obtain ⟨ha, rfl⟩ := matchCharacters_ok.mp h
  exact matchCharacters_ok.mpr ⟨ha, (matchResult_withPsl _ _ _ _ _).symm⟩

theorem moveCharacter3_withPsl {l : BitVec 16} {a d : Word} (h : moveCharacter3 l a d k = .ok u) :
    moveCharacter3 l a d (k.withPsl p) = .ok (u.withPsl (p.setCC u.cc)) := by
  obtain ⟨ha, rfl⟩ := moveCharacter3_ok.mp h
  refine moveCharacter3_ok.mpr ⟨ha, ?_⟩
  rw [State.complete_cc, ← complete_withPsl]
  rfl

theorem moveCharacter5_withPsl {sl dl : BitVec 16} {a d : Word} {f : Byte}
    (h : moveCharacter5 sl a f dl d k = .ok u) :
    moveCharacter5 sl a f dl d (k.withPsl p) = .ok (u.withPsl (p.setCC u.cc)) := by
  obtain ⟨ha, rfl⟩ := moveCharacter5_ok.mp h
  refine moveCharacter5_ok.mpr ⟨ha, ?_⟩
  rw [State.complete_cc, ← complete_withPsl]
  rfl

theorem storeTranslated_withPsl {ta d : Word} {dl : Nat} {bs : List Byte}
    (h : storeTranslated s ta d dl bs = .ok u) : storeTranslated (s.withPsl p) ta d dl bs = .ok (u.withPsl p) := by
  refine storeTranslated_ok.mpr ((storeTranslated_ok.mp h).imp ?_ ?_)
  · rintro ⟨hclear, rfl⟩
    exact ⟨hclear, rfl⟩
  · rintro ⟨hoverlap, hdraw, rfl⟩
    exact ⟨hoverlap, hdraw, (drawBytes_withPsl _ s).symm⟩

theorem moveTranslated_withPsl {sl dl : BitVec 16} {a ta d : Word} {f : Byte}
    (h : moveTranslated sl a f ta dl d k = .ok u) :
    moveTranslated sl a f ta dl d (k.withPsl p) = .ok (u.withPsl (p.setCC u.cc)) := by
  obtain ⟨ha, v, hv, rfl⟩ := moveTranslated_ok.mp h
  refine moveTranslated_ok.mpr ⟨ha, v.withPsl p, storeTranslated_withPsl hv, ?_⟩
  rw [State.complete_cc, ← complete_withPsl]
  rfl

/-- The subtraction reads FU of the PSL, and nothing else. -/
theorem subtract_withPsl {t : FType} {a b : Nat} {l : Location} (hfu : p.fu = k.state.psl.fu)
    (h : subtract t a b l k = .ok u) : subtract t a b l (k.withPsl p) = .ok (u.withPsl (p.setCC u.cc)) := by
  obtain ⟨ha, r, hr, rfl⟩ := subtract_ok.mp h
  refine subtract_ok.mpr ⟨ha, r, hr.imp_right fun ⟨hunder, hclear, hzero⟩ => ⟨hunder, hfu.trans hclear, hzero⟩, ?_⟩
  simp only [storeDifference, Cursor.withPsl_state, location_write_withPsl]
  rfl

theorem sub2_withPsl {t : FType} {op : Opcode} {o1 o2 : Specifier} (hfu : p.fu = s.psl.fu)
    (h : sub2 t op o1 o2 s = .next u) : sub2 t op o1 o2 (s.withPsl p) = .next (u.withPsl (p.setCC u.cc)) := by
  obtain ⟨⟨b, l, a, k⟩, hops, h⟩ := except_bind_ok.mp (conclude_eq_next.mp h)
  have hk := (sub2Operands_ok hops).1.psl
  exact conclude_eq_next.mpr
    (except_bind_ok.mpr ⟨_, sub2Operands_withPsl hops, subtract_withPsl (by rw [hfu, hk]) h⟩)

theorem sub3_withPsl {t : FType} {op : Opcode} {o1 o2 o3 : Specifier} (hfu : p.fu = s.psl.fu)
    (h : sub3 t op o1 o2 o3 s = .next u) : sub3 t op o1 o2 o3 (s.withPsl p) = .next (u.withPsl (p.setCC u.cc)) := by
  obtain ⟨⟨b, a, l, k⟩, hops, h⟩ := except_bind_ok.mp (conclude_eq_next.mp h)
  have hk := (sub3Operands_ok hops).1.psl
  exact conclude_eq_next.mpr
    (except_bind_ok.mpr ⟨_, sub3Operands_withPsl hops, subtract_withPsl (by rw [hfu, hk]) h⟩)

theorem tst_withPsl {t : FType} {op : Opcode} {o : Specifier} (h : tst t op o s = .next u) :
    tst t op o (s.withPsl p) = .next (u.withPsl (p.setCC u.cc)) := by
  obtain ⟨⟨x, k⟩, hop, h⟩ := except_bind_ok.mp (conclude_eq_next.mp h)
  obtain rfl := Except.ok.inj h
  exact conclude_eq_next.mpr (except_bind_ok.mpr ⟨_, readFloating_withPsl hop, rfl⟩)

/-- A string instruction of which neither the operands nor the operation look at the PSL. -/
theorem concludeString_withPsl {α : Type} {x y : Except Stop α} {f : α → Except Stop State} {g : α → α}
    (hops : ∀ a, x = .ok a → y = .ok (g a)) (hop : ∀ a, f a = .ok u → f (g a) = .ok (u.withPsl (p.setCC u.cc)))
    (h : concludeString s (x >>= f) = .next u) :
    concludeString (s.withPsl p) (y >>= f) = .next (u.withPsl (p.setCC u.cc)) := by
  obtain ⟨a, ha, h⟩ := except_bind_ok.mp (concludeString_eq_next.mp h)
  exact concludeString_eq_next.mpr (except_bind_ok.mpr ⟨g a, hops a ha, hop a h⟩)

/-- With another PSL a completing instruction completes in the same way, if its FU is the same or the instruction
is no subtraction (10_state.md R26). -/
theorem exec_withPsl {i : Instr} (hfu : isSub i = true → p.fu = s.psl.fu) (h : exec i s = .next u) :
    exec i (s.withPsl p) = .next (u.withPsl (p.setCC u.cc)) := by
  cases i with
  | movc3 _ _ _ =>
    exact concludeString_withPsl (g := fun (l, a, d, k) => (l, a, d, k.withPsl p)) (fun _ => operands3_withPsl)
      (fun _ => moveCharacter3_withPsl) h
  | cmpc3 _ _ _ =>
    exact concludeString_withPsl (g := fun (l, a, d, k) => (l, a, d, k.withPsl p)) (fun _ => operands3_withPsl)
      (fun _ => compare3_withPsl) h
  | movc5 _ _ _ _ _ =>
    exact concludeString_withPsl (g := fun (l, a, f, m, d, k) => (l, a, f, m, d, k.withPsl p))
      (fun _ => operands5_withPsl) (fun _ => moveCharacter5_withPsl) h
  | cmpc5 _ _ _ _ _ =>
    exact concludeString_withPsl (g := fun (l, a, f, m, d, k) => (l, a, f, m, d, k.withPsl p))
      (fun _ => operands5_withPsl) (fun _ => compare5_withPsl) h
  | movtc _ _ _ _ _ _ =>
    exact concludeString_withPsl (g := fun (l, a, f, t, m, d, k) => (l, a, f, t, m, d, k.withPsl p))
      (fun _ => movtcOperands_withPsl) (fun _ => moveTranslated_withPsl) h
  | matchc _ _ _ _ =>
    exact concludeString_withPsl (g := fun (l, a, m, d, k) => (l, a, m, d, k.withPsl p))
      (fun _ => matchcOperands_withPsl) (fun _ => matchCharacters_withPsl) h
  | locc _ _ _ =>
    exact concludeString_withPsl (g := fun (c, l, a, k) => (c, l, a, k.withPsl p)) (fun _ => loccOperands_withPsl)
      (fun _ => locateCharacter_withPsl) h
  | scanc _ _ _ _ | spanc _ _ _ _ | movtuc _ _ _ _ _ _ | skpc _ _ _ => exact absurd h undescribed_ne_next
  | subf2 _ _ | subd2 _ _ | subg2 _ _ | subh2 _ _ => exact sub2_withPsl (hfu rfl) h
  | subf3 _ _ _ | subd3 _ _ _ | subg3 _ _ _ | subh3 _ _ _ => exact sub3_withPsl (hfu rfl) h
  | tstf _ | tstd _ | tstg _ | tsth _ => exact tst_withPsl h

end OtherPsl

/-- Settles O17: `exec_withPsl` at an equal FU. -/
theorem instructionsReadOnlyFu : Obligations.InstructionsReadOnlyFu :=
  fun _ _ _ _ hfu h => exec_withPsl (fun _ => hfu) h

section Underflow

variable {s u : State} {k : Cursor} {t : FType} {l : Location}

theorem readRegs_congr {t : State} : ∀ (n : Nat) (r : Reg),
    (∀ m < n, t.getReg (Fin.ofNat 16 (r.val + m)) = s.getReg (Fin.ofNat 16 (r.val + m))) →
    t.readRegs r n = s.readRegs r n
  | 0, _, _ => rfl
  | n + 1, r, h => by
    have hr : Fin.ofNat 16 (r.val + 0) = r := by ext; simp [Fin.ofNat]
    have hnext : ∀ m, Fin.ofNat 16 ((r + 1 : Reg).val + m) = Fin.ofNat 16 (r.val + (m + 1)) := fun m => by
      ext; simp [Fin.ofNat, Fin.val_add]; omega
    have h0 := h 0 n.succ_pos
    rw [hr] at h0
    rw [State.readRegs, State.readRegs, h0, readRegs_congr n (r + 1) fun m hm => by
      rw [hnext]; exact h (m + 1) (Nat.succ_lt_succ hm)]

/-- The value at a location depends on its registers and on memory only. -/
theorem location_value_congr {ty : DataType} {t : State} (hregs : ∀ n ∈ l.regs ty, t.getReg n = s.getReg n)
    (hmem : t.mem = s.mem) : l.value ty t = l.value ty s := by
  cases l with
  | register r =>
    have h := readRegs_congr ty.registers r fun m hm => hregs _ (mem_regsFrom.mpr ⟨m, hm, rfl⟩)
    rw [Location.value, Location.value, readRegister, readRegister, h]
  | memory a => rw [Location.value, Location.value, hmem]

/-- `i` is a subtraction of type `t` whose operands resolve in `s` to the subtrahend `b`, the minuend `a` and the
location `l` of the difference, the cursor being `k` after them. -/
def SubResolves (t : FType) (sub min dif : Specifier) (s : State) (b a : Nat) (l : Location) (k : Cursor)
    (i : Instr) : Prop :=
  (i = subInstr2 t sub dif ∧ resolved2 t sub dif s = .ok (b, l, a, k)) ∨
    (i = subInstr3 t sub min dif ∧ resolved3 t sub min dif s = .ok (b, a, l, k))

variable {sub min dif : Specifier} {a b r : Nat} {i : Instr}

theorem exec_subInstr2 (t : FType) (sub dif : Specifier) (s : State) :
    exec (subInstr2 t sub dif) s = sub2 t (subInstr2 t sub dif).opcode sub dif s := by
  cases t <;> rfl

theorem exec_subInstr3 (t : FType) (sub min dif : Specifier) (s : State) :
    exec (subInstr3 t sub min dif) s = sub3 t (subInstr3 t sub min dif).opcode sub min dif s := by
  cases t <;> rfl

/-- A subtraction whose operands resolve is `subtract` of them, in both formats. -/
theorem exec_sub (h : SubResolves t sub min dif s b a l k i) : exec i s = conclude s (subtract t a b l k) := by
  obtain ⟨rfl, hops⟩ | ⟨rfl, hops⟩ := h
  · rw [exec_subInstr2, sub2, show sub2Operands t _ sub dif s = _ from hops]; rfl
  · rw [exec_subInstr3, sub3, show sub3Operands t _ sub min dif s = _ from hops]; rfl

/-- Resolving the operands of a subtraction steps registers only, and the difference is not located in the PC. -/
theorem subResolves_frame (h : SubResolves t sub min dif s b a l k i) :
    (∃ rs, OnlyRegs rs s k.state) ∧ ∀ n ∈ l.regs (.floating t), n ≠ 15 := by
  obtain ⟨rfl, hops⟩ | ⟨rfl, hops⟩ := h
  · obtain ⟨hk, -, hl, -⟩ := sub2Operands_ok hops
    exact ⟨⟨_, hk⟩, fun n hn => (hl n hn).2⟩
  · obtain ⟨hk, -, hl, -⟩ := sub3Operands_ok hops
    exact ⟨⟨_, hk⟩, fun n hn => (hl n hn).2⟩

theorem storeDifference_value (hl : ∀ n ∈ l.regs (.floating t), n ≠ 15) (hm : k.state.mem.wf = true)
    (hr : r < 256 ^ t.size) : l.value (.floating t) (storeDifference t l r k) = r := by
  calc l.value (.floating t) (storeDifference t l r k)
      = l.value (.floating t) (l.write (.floating t) r k.state) :=
        location_value_congr (fun n hn => by simp [storeDifference, Ne.symm (hl n hn)]) rfl
    _ = r := location_value_write l (.floating t) hm hr

/-- What the platform answers for a subtraction as a value fits the type (R103, R104). -/
theorem platform_fsub_lt {p : Platform} (h : p.fsub t a b = .value r) : r < 256 ^ t.size := by
  have hr := platform_fsub_isResult p t a b
  rw [h] at hr
  exact (isResult_value_iff.mp hr).1.1

/-- A subtraction that stores `r`, its value or zero on underflow with FU clear, writes nothing but `dif`, the
condition codes and the PC (40_floating_sub_tst.md R105). -/
theorem exec_sub_stores (h : SubResolves t sub min dif s b a l k i)
    (ha : ∀ x ∈ l.addrs (.floating t), s.admits .write x = true)
    (hr : s.platform.fsub t a b = .value r ∨ (s.platform.fsub t a b = .underflow ∧ s.psl.fu = false ∧ r = zeroDatum))
    (hm : s.mem.wf = true) :
    ∃ u, exec i s = .next u ∧ l.value (.floating t) u = r ∧ u.psl = s.psl.setCC (floatingCC t r) ∧ u.pc = k.addr ∧
      (∀ n, n ≠ 15 → n ∉ l.regs (.floating t) → u.getReg n = k.state.getReg n) ∧
      (∀ x, x ∉ l.addrs (.floating t) → u.readByte x = s.readByte x) ∧
      u.platform = s.platform ∧ u.draws = s.draws := by
  obtain ⟨⟨rs, hk⟩, hl⟩ := subResolves_frame h
  have hlt : r < 256 ^ t.size := by
    obtain hr | ⟨-, -, rfl⟩ := hr
    · exact platform_fsub_lt hr
    · exact Nat.pow_pos (by decide)
  obtain ⟨hpsl, hplatform, hdraws, hregs, hbytes, -⟩ := location_write_frame l (.floating t) r k.state
  have hsub : subtract t a b l k = .ok (storeDifference t l r k) :=
    subtract_ok.mpr ⟨by rwa [hk.admits], r, by rwa [hk.platform, hk.psl], rfl⟩
  refine ⟨storeDifference t l r k, by rw [exec_sub h, hsub]; rfl, storeDifference_value hl (hk.mem ▸ hm) hlt, ?_,
    State.pc_setPc _ _, fun n h15 hn => ?_, fun x hx => ?_, hplatform.trans hk.platform, hdraws.trans hk.draws⟩
  · simp [storeDifference, hpsl, hk.psl]
  · simp [storeDifference, Ne.symm h15, hregs n hn]
  · rw [← hk.readByte]; exact hbytes x hx

/-- Floating underflow with FU set faults, and leaves all but the condition codes as before. -/
theorem exec_sub_underflow (h : SubResolves t sub min dif s b a l k i)
    (ha : ∀ x ∈ l.addrs (.floating t), s.admits .write x = true) (hunder : s.platform.fsub t a b = .underflow)
    (hfu : s.psl.fu = true) : exec i s = .fault (.floatingUnderflow s.drawCC) := by
  obtain ⟨⟨rs, hk⟩, -⟩ := subResolves_frame h
  have hcheck : l.checkWrite (.floating t) k.state = .ok () := checkWrite_ok.mpr (by rwa [hk.admits])
  have hsub : subtract t a b l k = .error (.raise .floatingUnderflow) := by
    simp [subtract, hcheck, hk.platform, hunder, hk.psl, hfu, bind, Except.bind]
  rw [exec_sub h, hsub]
  rfl

theorem floatingCC_zeroDatum (t : FType) :
    floatingCC t zeroDatum = { n := false, z := true, v := false, c := false } := by
  cases t <;> rfl

end Underflow

/-- Settles O37: underflow faults or stores zero, as FU says, and completing writes the condition codes only. -/
theorem fuSelectsTheUnderflowBehaviour : Obligations.FuSelectsTheUnderflowBehaviour := by
  refine ⟨fun t sub min dif s b a l k i h ha hunder hm => ⟨fun hfu => ?_, fun hfu => ?_⟩, fun i s u h => ?_⟩
  · exact ⟨s.drawCC, exec_sub_underflow h ha hunder hfu, location_value_congr (fun _ _ => rfl) rfl⟩
  · rw [← floatingCC_zeroDatum t]
    exact exec_sub_stores h ha (.inr ⟨hunder, hfu, rfl⟩) hm
  · rw [exec_psl h, Psl.setCC_fu]

end Sys2Proof.Proofs
end

section
/-! Instruction bytes that an instruction has stored or that are not admitted, what a step marks as written, and what
follows for the code of a run (20_memory.md R46, R54; 30_encoding.md R76; 60_exceptions.md R204). -/

open Sys2Proof Sys2Proof.Machine Sys2Proof.Safety Sys2Proof.Claims

namespace Sys2Proof.Proofs

section UnreadBytes

variable {s : State} {i : Instr} {j : Nat}

theorem fetchByte_modifiedCode (htop : s.pc.toNat + j < 2 ^ 32) (ha : s.admits .fetch (offset s.pc j) = true)
    (hw : (offset s.pc j).toNat ∈ s.written) : fetchByte s j = .error (.refuse .modifiedCode) := by
  obtain ⟨haddr, hnat⟩ := pc_offset s j htop
  rw [hnat] at hw
  simpa [fetchByte, haddr, ha, hw] using htop

theorem fetchByte_denied (htop : s.pc.toNat + j < 2 ^ 32) (ha : s.admits .fetch (offset s.pc j) = false) :
    fetchByte s j = .error (.raise (.access (offset s.pc j) .fetch)) := by
  obtain ⟨haddr, -⟩ := pc_offset s j htop
  simpa [fetchByte, haddr, ha] using htop

/-- A step whose instruction has byte `j` as the first that cannot be fetched ends as `unreadStop` says, the stop being
one of the instruction once its opcode is read (R76 (3); 20_memory.md R46). -/
theorem step_of_unread {e : Stop} (he : i.encodable = true) (hc : codeAt s (encode i))
    (hp : pslRefusal s.psl = none) (hi : s.platform.implements i.opcode = true) (hj : j < (encode i).length)
    (hf : fetchable s j) (hb : fetchByte s j = .error e) :
    step s = conclude s (.error (unreadStop i.opcode (operandsBefore i j)
      (if j < i.opcode.bytes.length then e else e.during i.opcode) s)) := by
  obtain ⟨htop, hadmitted, hwritten⟩ := hf
  have hbytes : ∀ m, (hm : m < j) → fetchByte s m = .ok (encode i)[m] := fun m hm =>
    fetchByte_ok.mpr ⟨by omega, hadmitted m hm, hwritten m hm, hc m (hm.trans hj)⟩
  simp only [step, hp, fetch_cut he hi hj hbytes hb]

/-- A refused operand ends the instruction, whatever stops the reading after it. -/
theorem unreadStop_of_refused {op : Opcode} {os : List ((Access × DataType) × Specifier)} {stop : Stop}
    {r : Refusal} (h : reachOperands op os s = .error (.refuse r)) : unreadStop op os stop s = .refuse r := by
  simp only [unreadStop, h]

end UnreadBytes

/-- Settles O7: byte `j` is refused as modified code. -/
theorem modifiedCodeIsRefused : Obligations.ModifiedCodeIsRefused := by
  intro s i j he hc hp hi hj hf htop ha hw
  exact step_unread_refused he hc hp hi hj hf (fetchByte_modifiedCode htop ha hw)

/-- Settles O9: `unreadStop` keeps the access fault unless an operand before it is refused, and the fault is one of
a string instruction from the byte after its opcode on. -/
theorem fetchFaultLeavesTheState : Obligations.FetchFaultLeavesTheState := by
  intro s i j he hc hp hi hj hf htop ha
  have hstep := step_of_unread he hc hp hi hj hf (fetchByte_denied htop ha)
  refine ⟨fun hl => ⟨fun hplain => ?_, fun hop hstr => ?_⟩, fun r hr => ?_⟩
  · have hstop : (if j < i.opcode.bytes.length then .raise (.access (offset s.pc j) .fetch)
        else (Stop.raise (.access (offset s.pc j) .fetch)).during i.opcode)
        = .raise (.access (offset s.pc j) .fetch) := by
      obtain hop | hstr := hplain
      · rw [if_pos hop]
      · simp [Stop.during, hstr]
    rw [hstep, hstop, unreadStop_raise hl]
    rfl
  · rw [hstep, if_neg (Nat.not_lt.mpr hop), Stop.during_access, if_pos hstr, unreadStop_raise hl]
    rfl
  · rw [hstep, unreadStop_of_refused hr]
    rfl

section Marks

/-- `u` is `s` with stores at the addresses `as`, all of them admitted: no other byte is changed, and they are what is
newly marked as written (20_memory.md R42, R54). -/
structure StoresAt (as : List Word) (s u : State) : Prop where
  admitted : ∀ x ∈ as, s.admits .write x = true
  bytes : ∀ x, x ∉ as → u.readByte x = s.readByte x
  written : ∀ n, n ∈ u.written ↔ n ∈ s.written ∨ ∃ y ∈ as, y.toNat = n

variable {as : List Word} {i : Instr} {k : Cursor} {s t u : State}

theorem storesAt_nil_of_eq (hm : u.mem = s.mem) (hw : u.written = s.written) : StoresAt [] s u where
  admitted := by simp
  bytes x _ := by rw [State.readByte, State.readByte, hm]
  written := by simp [hw]

theorem storesAt_storeBytes {d : Word} {bs : List Byte}
    (ha : ∀ x ∈ stringAddrs d bs.length, s.admits .write x = true) :
    StoresAt (stringAddrs d bs.length) s (s.storeBytes d bs) where
  admitted := ha
  bytes x hx := Memory.read_writeBytes_of_not_mem bs s.mem d hx
  written n := by rw [State.storeBytes_written, Written.mem_markRange]

theorem storesAt_drawBytes (ha : ∀ x ∈ as, s.admits .write x = true) : StoresAt as s (s.drawBytes as) where
  admitted := ha
  bytes _ hx := drawBytes_readByte as s hx
  written := mem_drawBytes_written as s

/-- What completing an instruction does to registers and condition codes stores nothing. -/
theorem StoresAt.congr {v : State} (h : StoresAt as s v) (hm : u.mem = v.mem) (hw : u.written = v.written) :
    StoresAt as s u where
  admitted := h.admitted
  bytes x hx := by rw [← h.bytes x hx, State.readByte, State.readByte, hm]
  written n := by rw [hw, h.written]

/-- Operands evaluated before the stores change neither memory, nor marks, nor what is admitted. -/
theorem StoresAt.of_onlyRegs {rs : List Reg} (hk : OnlyRegs rs s t) (h : StoresAt as t u) : StoresAt as s u where
  admitted x hx := by rw [← hk.admits]; exact h.admitted x hx
  bytes x hx := by rw [← hk.readByte]; exact h.bytes x hx
  written n := by rw [← hk.written]; exact h.written n

theorem storesAt_of_finished (h : Finished i k u) : ∃ as, StoresAt as k.state u := by
  cases h with
  | difference t l r _ _ ha hu =>
    obtain ⟨-, -, -, -, hbytes, hwritten⟩ := location_write_frame l (.floating t) r k.state
    exact ⟨l.addrs (.floating t), ⟨ha, hu ▸ hbytes, hu ▸ hwritten⟩⟩
  | test t x _ hu => exact ⟨[], storesAt_nil_of_eq (by simp [hu]) (by simp [hu])⟩
  | string v ws cc _ _ _ hstored hu =>
    have hv : ∃ as, StoresAt as k.state v := by
      obtain rfl | ⟨-, ⟨d, bs, rfl, ha⟩ | ⟨as, rfl, ha⟩⟩ := hstored
      · exact ⟨[], storesAt_nil_of_eq rfl rfl⟩
      · exact ⟨_, storesAt_storeBytes ha⟩
      · exact ⟨as, storesAt_drawBytes ha⟩
    obtain ⟨as, hv⟩ := hv
    exact ⟨as, hv.congr (by simp [hu]) (by simp [hu])⟩

/-- Every instruction that completes stores at some admitted addresses, and nowhere else. -/
theorem exec_storesAt (h : exec i s = .next u) : ∃ as, StoresAt as s u := by
  obtain ⟨k, ⟨hk, -⟩, hfin, -⟩ := exec_next h
  obtain ⟨as, has⟩ := storesAt_of_finished hfin
  exact ⟨as, has.of_onlyRegs hk⟩

end Marks

/-- Settles O13: the step ran an instruction, which stores at admitted addresses and marks just these. -/
theorem stepMarksWhatItChanges : Obligations.StepMarksWhatItChanges := by
  intro s u h
  obtain ⟨i, -, -, -, hi⟩ := step_next h
  obtain ⟨as, ha, hbytes, hwritten⟩ := exec_storesAt hi
  refine ⟨fun a hne => ?_, fun a hu hs => ?_, fun a hs => (hwritten a).mpr (.inl hs)⟩
  · have hmem : a ∈ as := by_contra fun hn => hne (hbytes a hn)
    exact ⟨(hwritten _).mpr (.inr ⟨a, hmem, rfl⟩), ha a hmem⟩
  · obtain ⟨y, hy, hya⟩ := ((hwritten _).mp hu).resolve_left hs
    exact BitVec.eq_of_toNat_eq hya ▸ ha y hy

section Runs

/-- Over a run no mark is lost, and a byte without a mark at its end is as it was at its start (20_memory.md R54). -/
theorem reaches_marks : ∀ {n : Nat} {s u : State}, Reaches n s u →
    (∀ a ∈ s.written, a ∈ u.written) ∧ ∀ a : Word, a.toNat ∉ u.written → u.readByte a = s.readByte a
  | 0, s, u, h => by
    obtain rfl := reaches_zero.mp h
    exact ⟨fun _ ha => ha, fun _ _ => rfl⟩
  | n + 1, s, u, h => by
    obtain ⟨t, hstep, hrun⟩ := reaches_succ.mp h
    obtain ⟨hchanged, -, hkept⟩ := stepMarksWhatItChanges s t hstep
    obtain ⟨hmarks, hbytes⟩ := reaches_marks hrun
    refine ⟨fun a ha => hmarks a (hkept a ha), fun a ha => (hbytes a ha).trans ?_⟩
    exact by_contra fun hne => ha (hmarks _ (hchanged a hne).1)

end Runs

/-- Settles O14: the bytes of an instruction that is fetched carry no mark, so they are those of the start. -/
theorem runExecutesOnlyLaunchedCode : Obligations.RunExecutesOnlyLaunchedCode := by
  intro n s u v hrun hstep
  obtain ⟨i, -, hfetch, -, hexec⟩ := step_next hstep
  obtain ⟨he, hserves⟩ := fetch_ok.mp hfetch
  refine ⟨i, he, fun j hj => ?_, hexec⟩
  have hbyte := hserves j hj
  rw [Nat.zero_add] at hbyte
  obtain ⟨-, -, hunmarked, hread⟩ := fetchByte_ok.mp hbyte
  rw [← (reaches_marks hrun).2 _ hunmarked, hread]

end Sys2Proof.Proofs
end

section
/-! Operands in memory: their values, and how a read of an operand or of a deferred pointer that is not admitted ends
the instruction (20_memory.md R41, R42, R46; 30_encoding.md R64, R66, R75). -/

open Sys2Proof Sys2Proof.Machine Sys2Proof.Safety Sys2Proof.Claims

namespace Sys2Proof.Proofs

section Addressed

/-- The operand of this specifier is in memory, at the address of the specifier: it is no short literal, register or
immediate operand (30_encoding.md R64). -/
def addressed : Specifier → Bool
  | .plain b => b.indexable
  | .index _ _ => true

variable {ty : DataType} {sp : Specifier} {k k' : Cursor} {a p : Word} {acc : Access} {e : Stop}

theorem addressed_of_operandAddress {size : Nat} (h : operandAddress size sp k = .ok (a, k'))
    (himm : ∀ v, sp ≠ .plain (.immediate v)) : addressed sp = true := by
  cases sp with
  | index rx b => rfl
  | plain b =>
    cases b with
    | immediate v => exact absurd rfl (himm v)
    | literal _ | register _ => simp [operandAddress, baseAddress, bind, Except.bind] at h
    | _ => rfl

theorem addressed_of_pointerAddress {size : Nat} (h : pointerAddress size sp k = some p) : addressed sp = true := by
  cases sp with
  | index rx b => rfl
  | plain b =>
    cases b with
    | literal _ | register _ | immediate _ => cases h
    | _ => rfl

/-- A deferred mode whose pointer cannot be read has no address (R64). -/
theorem operandAddress_pointer_stop {size : Nat} (h : pointerAddress size sp k = some p)
    (he : k.state.memRead p 4 = .error e) : operandAddress size sp k = .error e := by
  cases sp with
  | plain b | index rx b =>
    cases b with
    | autoincrementDeferred n | displacementDeferred n d =>
      obtain rfl := Option.some.inj h
      simp only [operandAddress, baseAddress, displacementBase, he, bind, Except.bind]
    | _ => cases h

/-- A read operand in memory is the read of its size at its address (R64, R75). -/
theorem readOperand_addressed (hl : sp.legal .read ty = true) (ha : addressed sp = true) :
    readOperand ty sp k = operandAddress ty.size sp k >>= fun x =>
      x.2.state.memRead x.1 ty.size >>= fun v => .ok (v, x.2) := by
  unfold readOperand
  rw [if_pos hl]
  cases sp with
  | index rx b => rfl
  | plain b =>
    cases b with
    | literal _ | register _ | immediate _ => cases ha
    | _ => rfl

theorem locate_addressed (hl : sp.legal acc ty = true) (ha : addressed sp = true) :
    locate acc ty sp k = operandAddress ty.size sp k >>= fun x => .ok (.memory x.1, x.2) := by
  unfold locate
  rw [if_pos hl]
  cases sp with
  | index rx b => rfl
  | plain b =>
    cases b with
    | literal _ | register _ | immediate _ => cases ha
    | _ => rfl

/-- Immediate operands are read operands, or stand for their own address (R66, R68). -/
theorem ne_immediate_of_legal (hl : sp.legal acc ty = true) (hacc : acc = .modify ∨ acc = .write) (v : BitVec 128) :
    sp ≠ .plain (.immediate v) := by
  rintro rfl
  obtain rfl | rfl := hacc <;> cases hl

theorem readOperand_immediate {v : BitVec 128} (hv : v.toNat < 256 ^ ty.size) :
    readOperand ty (.plain (.immediate v)) k =
      .ok (v.toNat, { k with addr := k.addr + BitVec.ofNat 32 (1 + ty.size) }) := by
  rw [← Nat.mod_eq_of_lt hv]
  rfl

end Addressed

/-- Settles O30: a read is the bytes of its string, an operand in memory is the read at its address, and immediate
data are laid out as `leBytes` does. -/
theorem memoryReadsAreLittleEndian : Obligations.MemoryReadsAreLittleEndian := by
  intro s a n
  refine ⟨fun v hv => ?_, fun ha => ⟨_, memRead_ok.mpr ⟨forall_mem_stringAddrs.mpr ha, rfl⟩⟩,
    fun i hi => memRead_denied hi,
    fun ty sp addr a k hop => ⟨fun hl himm => ?_, fun acc hacc hl => ⟨?_, rfl⟩, ?_⟩,
    fun ty v addr hv => ⟨readOperand_immediate hv, leBytes ty.size v.toNat, rfl, leBytes_length _ _,
      leBytes_getElem _ _⟩⟩
  · obtain ⟨ha, rfl⟩ := memRead_ok.mp hv
    refine ⟨forall_mem_stringAddrs.mp ha, ?_, fun i hi => ?_⟩
    · simpa using leValue_lt (s.mem.readString a n)
    · rw [leValue_digit _ i (by simpa using hi), readString_getElem_offset]
      rfl
  · rw [readOperand_addressed hl (addressed_of_operandAddress hop himm)]
    exact ⟨fun v hv => except_bind_ok.mpr ⟨_, hop, except_bind_ok.mpr ⟨v, hv, rfl⟩⟩,
      fun e he => except_bind_error.mpr (.inr ⟨_, hop, except_bind_error.mpr (.inl he)⟩)⟩
  · rw [locate_addressed hl (addressed_of_operandAddress hop (ne_immediate_of_legal hl hacc)), hop]
    rfl
  · rintro rfl hl
    rw [addressOperand, if_pos hl, hop]

section OperandStops

variable {i : Instr} {pre post : List ((Access × DataType) × Specifier)} {ty : DataType} {sp : Specifier} {s : State}
  {k k' : Cursor} {a x : Word} {acc : Access} {e : Stop}

/-- Modify operands are floating, and address operands are those of strings (30_encoding.md R62). -/
theorem signature_types (op : Opcode) : ∀ o ∈ op.signature,
    (o.1 = .modify → ∃ t, o.2 = .floating t) ∧ (o.1 = .address → o.2 = .byte) := by
  cases op <;> simp [Opcode.signature]

theorem operand_types (h : ((acc, ty), sp) ∈ i.operands) :
    (acc = .modify → ∃ t, ty = .floating t) ∧ (acc = .address → ty = .byte) :=
  signature_types i.opcode (acc, ty) (List.of_mem_zip h).1

theorem evaluateOperand_read_stop (h : readOperand ty sp k = .error e) : evaluateOperand .read ty sp k = .error e := by
  cases ty with
  | floating t => rw [evaluateOperand_floating, readFloating, h]; rfl
  | byte | word | long => exact except_bind_error.mpr (.inl h)

/-- An operand whose address cannot be computed is not evaluated (R75). -/
theorem evaluateOperand_address_stop
    (hty : (acc = .modify → ∃ t, ty = .floating t) ∧ (acc = .address → ty = .byte)) (hl : sp.legal acc ty = true)
    (ha : addressed sp = true) (h : operandAddress ty.size sp k = .error e) :
    evaluateOperand acc ty sp k = .error e := by
  have hlocate : locate acc ty sp k = .error e := by rw [locate_addressed hl ha, h]; rfl
  cases acc with
  | read => exact evaluateOperand_read_stop (by rw [readOperand_addressed hl ha, h]; rfl)
  | modify =>
    obtain ⟨t, rfl⟩ := hty.1 rfl
    rw [evaluateOperand_modify, modifyFloating, hlocate]; rfl
  | write =>
    cases ty with
    | byte | word | long | floating _ => exact except_bind_error.mpr (.inl hlocate)
  | address =>
    obtain rfl := hty.2 rfl
    rw [evaluateOperand_address, addressOperand, if_pos hl, h]; rfl

/-- A read or modify operand in memory that cannot be read is not evaluated (R75). -/
theorem evaluateOperand_memory_stop (hty : acc = .modify → ∃ t, ty = .floating t)
    (hacc : acc = .read ∨ acc = .modify) (hl : sp.legal acc ty = true) (ha : addressed sp = true)
    (hop : operandAddress ty.size sp k = .ok (a, k')) (h : k'.state.memRead a ty.size = .error e) :
    evaluateOperand acc ty sp k = .error e := by
  obtain rfl | rfl := hacc
  · refine evaluateOperand_read_stop ?_
    rw [readOperand_addressed hl ha]
    exact except_bind_error.mpr (.inr ⟨_, hop, except_bind_error.mpr (.inl h)⟩)
  · obtain ⟨t, rfl⟩ := hty rfl
    have hread : (Location.memory a).read (.floating t) k'.state = .error e := h
    rw [evaluateOperand_modify, modifyFloating, locate_addressed hl ha, hop]
    simp only [bind, Except.bind, hread, Except.map]

theorem described_of_undescribedName (h : undescribedName i = none) : i.opcode.described = true := by
  cases i with
  | movtuc _ _ _ _ _ _ | scanc _ _ _ _ | skpc _ _ _ | spanc _ _ _ _ => cases h
  | _ => rfl

/-- The described instructions are the string instructions, SUB and TST. -/
theorem isString_eq (i : Instr) : i.opcode.isString = !(isSub i || isTst i) := by
  cases i <;> rfl

/-- An operand that cannot be read ends its instruction with an access fault, once those before it are evaluated; the
state is as before, but in a string instruction that of 20_memory.md R46. -/
theorem exec_operand_fault (hd : undescribedName i = none) (hi : i.operands = pre ++ ((acc, ty), sp) :: post)
    (hp : evaluateOperands pre (Cursor.start s i.opcode) = .ok k)
    (he : evaluateOperand acc ty sp k = .error (.raise (.access x .read))) :
    exec i s = .fault (.accessFault x .read (if isSub i || isTst i then s else s.stringFaulted 0 0)) := by
  have hstop : evaluateOperands i.operands (Cursor.start s i.opcode) = .error (.raise (.access x .read)) := by
    rw [hi, evaluateOperands_append]
    exact except_bind_error.mpr (.inr ⟨k, hp, except_bind_error.mpr (.inl he)⟩)
  rw [exec_of_operand_stop (described_of_undescribedName hd) hstop, Stop.during_access, isString_eq]
  cases isSub i || isTst i <;> rfl

end OperandStops

/-- Settles O58: the operand at which evaluation stops is the one whose value or pointer cannot be read. -/
theorem operandReadsFaultBeforeTheInstruction : Obligations.OperandReadsFaultBeforeTheInstruction := by
  intro s i pre post acc ty sp k j hd hi hp hl
  have hk : k.state.admits = s.admits := (evaluateOperands_ok hp).admits
  have hty := operand_types (i := i) (sp := sp) (acc := acc) (ty := ty) (by simp [hi])
  refine ⟨fun a k' hacc himm hop hj hadmitted hdenied => ?_, fun p hptr hj hadmitted hdenied => ?_⟩
  · have hread := memRead_denied (s := k'.state) hj
      (by rwa [(operandAddress_ok hop).1.admits, hk]) (by rwa [(operandAddress_ok hop).1.admits, hk])
    exact exec_operand_fault hd hi hp
      (evaluateOperand_memory_stop hty.1 hacc hl (addressed_of_operandAddress hop himm) hop hread)
  · have hread := memRead_denied (s := k.state) hj (by rwa [hk]) (by rwa [hk])
    exact exec_operand_fault hd hi hp (evaluateOperand_address_stop hty hl (addressed_of_pointerAddress hptr)
      (operandAddress_pointer_stop hptr hread))

end Sys2Proof.Proofs
end

section
/-! String operands: the admission check, the free values at its faults, the moves, and strings of length 0
(20_memory.md R45, R46, R48; 41_character_string.md R133, R135 to R142). -/

open Sys2Proof Sys2Proof.Machine Sys2Proof.Safety Sys2Proof.Claims

namespace Sys2Proof.Proofs

section FreeValues

theorem drawRegs_draws (ns : List Reg) (s : State) : (s.drawRegs ns).draws = s.draws + ns.length := by
  induction ns generalizing s with
  | nil => rfl
  | cons n ns ih => rw [State.drawRegs, ih, List.length_cons]; simp only; omega

variable (s : State) (d : Word) (n : Nat)

theorem stringFaulted_getReg (r : Reg) : (s.stringFaulted d n).getReg r = (s.drawRegs controlBlock).getReg r := by
  rw [State.stringFaulted, State.getReg_drawBytes, State.getReg_drawCC]

/-- Register `r` stands at place `r` of the control block. -/
theorem controlBlock_getElem : ∀ (r : Reg) (h : r.val < controlBlock.length), controlBlock[r.val] = r := by
  decide

theorem stringFaulted_cc : (s.stringFaulted d n).cc =
    { n := Config.freeBit (s.draws + 6), z := Config.freeBit (s.draws + 7),
      v := Config.freeBit (s.draws + 8), c := Config.freeBit (s.draws + 9) } := by
  rw [State.cc, State.stringFaulted, State.drawBytes_psl]
  rfl

/-- The destination bytes are drawn after six registers and four condition codes. -/
theorem stringFaulted_byteOf (hn : n ≤ 2 ^ 32) (hm : s.mem.wf = true) {i : Nat} (hi : i < n) :
    byteOf (s.stringFaulted d n) d i = Config.freeByte (s.draws + 10 + i) := by
  obtain ⟨-, hmem, -⟩ := drawRegs_ok controlBlock s
  have h := readByte_drawBytes n (s := (s.drawRegs controlBlock).drawCC) d (by rwa [State.drawCC_mem, hmem]) hn i hi
  rwa [State.drawCC_draws, drawRegs_draws] at h

theorem stringFaulted_readByte {x : Word} (hx : ∀ i, i < n → x ≠ offset d i) :
    (s.stringFaulted d n).readByte x = s.readByte x := by
  obtain ⟨-, hmem, -⟩ := drawRegs_ok controlBlock s
  have hout : x ∉ stringAddrs d n := fun h => by
    obtain ⟨i, hi, he⟩ := mem_stringAddrs.mp h
    exact hx i hi he.symm
  rw [State.stringFaulted, drawBytes_readByte _ _ hout, State.readByte, State.drawCC_mem, hmem, State.readByte]

end FreeValues

/-- Settles O59: the draws in their order, register by register and byte by byte. -/
theorem stringFaultLeavesFreeValues : Obligations.StringFaultLeavesFreeValues := by
  intro s d n hn hm
  refine ⟨fun r hr => ?_, fun r hr => ?_, stringFaulted_cc s d n,
    fun i hi => stringFaulted_byteOf s d n (by omega) hm hi, fun x hx => stringFaulted_readByte s d n hx⟩
  · have h := drawRegs_getReg controlBlock s (by decide) r.val hr
    rwa [controlBlock_getElem r hr, ← stringFaulted_getReg s d n] at h
  · have hout : r ∉ controlBlock := by
      revert r; decide
    rw [stringFaulted_getReg, (drawRegs_ok controlBlock s).2.2.2.2 r hout]

section Checks

variable {α : Type} {s t : State} {d x : Word} {dl : Nat} {kind : AccessKind} {ops : Except Stop α}
  {op : α → Except Stop State} {r : α}

/-- The check of strings that stops at an address raises the access fault there (41_character_string.md R135 (c)). -/
theorem admitStrings_stopsAt (ht : t.admits = s.admits) : ∀ {ss : List (AccessKind × Word × Nat)},
    stopsAt s ss kind x → admitStrings t d dl ss = .error (.raise (.stringAccess x kind d dl))
  | [], h => h.elim
  | (kind', a, n) :: ss, h => by
    unfold admitStrings
    obtain ⟨rfl, j, hj, hadmitted, hdenied, rfl⟩ | ⟨hadmitted, hrest⟩ := h
    · rw [firstDenied_some hj (by rwa [ht]) (by rwa [ht])]
    · rw [firstDenied_none.mpr (forall_mem_stringAddrs.mpr (by rwa [ht]))]
      exact admitStrings_stopsAt ht hrest

/-- A string instruction whose operands resolve and whose operation then stops at an address ends with the fault of
R46 there. -/
theorem string_fault (hops : ops = .ok r) (hop : op r = .error (.raise (.stringAccess x kind d dl))) :
    concludeString s (ops >>= op) = .fault (.accessFault x kind (s.stringFaulted d dl)) := by
  rw [except_bind_error.mpr (.inr ⟨r, hops, hop⟩)]
  rfl

theorem matchCharacters_checked {ol sl : BitVec 16} {oa sa : Word} {k : Cursor} {e : Stop} (ho : 0 < ol.toNat)
    (hs : 0 < sl.toNat) (h : admitStrings k.state 0 0 [(.read, oa, ol.toNat), (.read, sa, sl.toNat)] = .error e) :
    matchCharacters ol oa sl sa k = .error e := by
  unfold matchCharacters
  simp only [if_pos (show ol.toNat ≠ 0 ∧ sl.toNat ≠ 0 by omega)]
  exact except_bind_error.mpr (.inl h)

theorem readLength_of_pos {sl dl : Nat} (h : 0 < dl) : readLength sl dl = sl := if_neg (by omega)

theorem moveCharacter5_checked {sl dl : BitVec 16} {a d : Word} {f : Byte} {k : Cursor} {e : Stop} (hd : 0 < dl.toNat)
    (h : admitStrings k.state d dl.toNat [(.read, a, sl.toNat), (.write, d, dl.toNat)] = .error e) :
    moveCharacter5 sl a f dl d k = .error e :=
  except_bind_error.mpr (.inl (by simpa only [readLength_of_pos hd] using h))

theorem moveTranslated_checked {sl dl : BitVec 16} {a ta d : Word} {f : Byte} {k : Cursor} {e : Stop}
    (hd : 0 < dl.toNat)
    (h : admitStrings k.state d dl.toNat [(.read, a, sl.toNat), (.write, d, dl.toNat),
      (.read, ta, if sl.toNat = 0 then 0 else 256)] = .error e) : moveTranslated sl a f ta dl d k = .error e := by
  have htable : min sl.toNat dl.toNat = 0 ↔ sl.toNat = 0 := by omega
  exact except_bind_error.mpr (.inl (by simpa only [readLength_of_pos hd, htable] using h))

end Checks

/-- Settles O55: each operation begins with the check of its strings. -/
theorem stringAccessIsCheckedBeforeTheStart : Obligations.StringAccessIsCheckedBeforeTheStart := by
  refine ⟨?_, ?_, ?_, ?_, ?_, ?_, ?_⟩
  · intro o1 o2 o3 s l a1 a2 k hops kind x hx
    exact string_fault hops
      (except_bind_error.mpr (.inl (admitStrings_stopsAt (operands3_ok hops).1.admits hx)))
  · intro o1 o2 o3 o4 o5 s l1 l2 a1 a2 f k hops kind x hx
    exact string_fault hops
      (except_bind_error.mpr (.inl (admitStrings_stopsAt (operands5_ok hops).1.admits hx)))
  · intro o1 o2 o3 s c l a k hops kind x hx
    exact string_fault hops
      (except_bind_error.mpr (.inl (admitStrings_stopsAt (loccOperands_ok hops).1.admits hx)))
  · intro o1 o2 o3 o4 s ol sl oa sa k hops ho hs kind x hx
    exact string_fault hops
      (matchCharacters_checked ho hs (admitStrings_stopsAt (matchcOperands_ok hops).1.admits hx))
  · intro o1 o2 o3 s l a d k hops kind x hx
    exact string_fault hops
      (except_bind_error.mpr (.inl (admitStrings_stopsAt (operands3_ok hops).1.admits hx)))
  · intro o1 o2 o3 o4 o5 s sl dl a d f k hops hdl kind x hx
    exact string_fault hops
      (moveCharacter5_checked hdl (admitStrings_stopsAt (operands5_ok hops).1.admits hx))
  · intro o1 o2 o3 o4 o5 o6 s sl dl a ta d f k hops hdl kind x hx
    exact string_fault hops
      (moveTranslated_checked hdl (admitStrings_stopsAt (movtcOperands_ok hops).1.admits hx))

end Sys2Proof.Proofs
end

section
/-! What the moves store, however their strings overlap, and strings of length 0 (20_memory.md R45, R48;
41_character_string.md R133, R136 to R142). -/

open Sys2Proof Sys2Proof.Machine Sys2Proof.Safety Sys2Proof.Claims

namespace Sys2Proof.Proofs

section Completing

variable {s u v : State} {k : Cursor} {ws : List (Reg × Word)} {cc : CC}

theorem implied_nodup (code : Opcode) : code.implied.Nodup ∧ 15 ∉ code.implied := by
  cases code <;> decide

/-- Writing the control block over a state that differs from the operands' in stores only completes the instruction. -/
theorem completes_of_onlyStores (code : Opcode) (hws : ws.map Prod.fst = code.implied) (hv : OnlyStores k.state v) :
    Completes k ws cc (v.complete ws cc k.addr) where
  values w hw := by
    have h15 : 15 ≠ w.1 := fun h =>
      (implied_nodup code).2 (hws ▸ List.mem_map.mpr ⟨w, hw, h.symm⟩)
    rw [State.getReg_complete, if_neg h15, State.getReg_setRegs_mem ws v (hws ▸ (implied_nodup code).1) w hw]
  others n h15 hn := by
    have hn' : ∀ w ∈ ws, w.1 ≠ n := fun w hw he => hn (he ▸ List.mem_map.mpr ⟨w, hw, rfl⟩)
    rw [State.getReg_complete, if_neg (Ne.symm h15), State.getReg_setRegs ws v n hn', hv.regs]
  pc := State.complete_pc _ _ _ _
  psl := by rw [State.complete_psl, hv.psl]
  platform := by rw [State.complete_platform, hv.platform]

theorem readByte_complete {pc x : Word} : (v.complete ws cc pc).readByte x = v.readByte x := by
  rw [State.readByte, State.readByte, State.complete_mem]

/-- A string instruction whose operands resolve and whose operation then answers completes. -/
theorem string_next {α : Type} {ops : Except Stop α} {op : α → Except Stop State} {r : α} (hops : ops = .ok r)
    (hop : op r = .ok u) : concludeString s (ops >>= op) = .next u :=
  concludeString_eq_next.mpr (except_bind_ok.mpr ⟨r, hops, hop⟩)

/-- A string instruction whose operation writes its control block, and stores nothing. -/
theorem string_completes {α : Type} {ops : Except Stop α} {op : α → Except Stop State} {r : α} {rs : List Reg}
    (code : Opcode) (hws : ws.map Prod.fst = code.implied) (hops : ops = .ok r) (hk : OnlyRegs rs s k.state)
    (hop : op r = .ok (k.state.complete ws cc k.addr)) :
    ∃ u, concludeString s (ops >>= op) = .next u ∧ u.mem = s.mem ∧ Completes k ws cc u :=
  ⟨_, string_next hops hop, (State.complete_mem _ _ _ _).trans hk.mem,
    completes_of_onlyStores code hws (onlyStores_refl _)⟩

end Completing

section Moves

variable {s : State} {k : Cursor} {sl dl : BitVec 16} {a ta d : Word} {f : Byte}

/-- The bytes that MOVC5 stores: what fits of the source, then the fill (41_character_string.md R141). -/
def movedBytes (s : State) (sl dl : Nat) (a : Word) (f : Byte) : List Byte :=
  s.mem.readString a (min sl dl) ++ List.replicate (dl - min sl dl) f

theorem movedBytes_length (s : State) (sl dl : Nat) (a : Word) (f : Byte) : (movedBytes s sl dl a f).length = dl := by
  simp [movedBytes]

theorem translatedBytes_length (s : State) (sl dl : Nat) (a ta : Word) (f : Byte) :
    (translatedBytes s sl dl a ta f).length = dl := by
  simp [translatedBytes, translateBytes]

theorem movedBytes_getElem {sl dl i : Nat} (hi : i < (movedBytes s sl dl a f).length) :
    (movedBytes s sl dl a f)[i] = if i < sl then byteOf s a i else f := by
  have hdl : i < dl := movedBytes_length s sl dl a f ▸ hi
  simp only [movedBytes, List.getElem_append, Memory.readString_length, List.getElem_replicate, lt_min_iff,
    hdl, and_true]
  split
  · rw [readString_getElem_offset]; rfl
  · rfl

theorem translatedBytes_getElem {sl dl i : Nat} (hi : i < (translatedBytes s sl dl a ta f).length) :
    (translatedBytes s sl dl a ta f)[i] = if i < sl then byteOf s ta (byteOf s a i).toNat else f := by
  have hdl : i < dl := translatedBytes_length s sl dl a ta f ▸ hi
  simp only [translatedBytes, translateBytes, List.getElem_append, List.length_map, Memory.readString_length,
    List.getElem_map, List.getElem_replicate, lt_min_iff, hdl, and_true]
  split
  · rw [readString_getElem_offset]; rfl
  · rfl

variable {rs : List Reg}

theorem byteOf_of_onlyRegs (hk : OnlyRegs rs s k.state) : byteOf k.state = byteOf s := by
  funext x i
  rw [byteOf, byteOf, hk.readByte]

theorem admits_of_admitted {kind : AccessKind} {n : Nat} (hk : OnlyRegs rs s k.state) (h : admitted s kind a n) :
    ∀ x ∈ stringAddrs a n, k.state.admits kind x = true := by
  rw [hk.admits]
  exact forall_mem_stringAddrs.mpr h

theorem admitted_zero {kind : AccessKind} : admitted s kind a 0 := fun _ hi => absurd hi (Nat.not_lt_zero _)

theorem admitted_readLength {kind : AccessKind} {sl dl : Nat} (h : 0 < dl → admitted s kind a sl) :
    admitted s kind a (readLength sl dl) := by
  unfold readLength
  split
  · exact admitted_zero
  · next hd => exact h (Nat.pos_of_ne_zero hd)

/-- A string instruction whose operation stores `n` bytes `g` at `d` and completes. -/
theorem string_stores {α : Type} {ops : Except Stop α} {op : α → Except Stop State} {r : α} {bs : List Byte}
    {n : Nat} {g : Nat → Byte} {ws : List (Reg × Word)} {cc : CC} (code : Opcode)
    (hws : ws.map Prod.fst = code.implied) (hops : ops = .ok r) (hk : OnlyRegs rs s k.state) (hlen : bs.length = n)
    (hop : op r = .ok ((k.state.storeBytes d bs).complete ws cc k.addr)) (hm : s.mem.wf = true) (hn : n < 2 ^ 16)
    (hbs : ∀ i, (h : i < bs.length) → bs[i] = g i) :
    ∃ u, concludeString s (ops >>= op) = .next u ∧ u.draws = s.draws ∧ (∀ i, i < n → byteOf u d i = g i) ∧
      (∀ x, (∀ i, i < n → x ≠ offset d i) → u.readByte x = s.readByte x) ∧ Completes k ws cc u := by
  subst hlen
  refine ⟨_, string_next hops hop, ?_, fun i hi => ?_, fun x hx => ?_,
    completes_of_onlyStores code hws (onlyStores_storeBytes _ _ _)⟩
  · rw [State.complete_draws, State.storeBytes_draws, hk.draws]
  · rw [byteOf, readByte_complete, readByte_storeBytes (hk.mem ▸ hm) (by omega) hi, hbs i hi]
  · rw [readByte_complete, readByte_storeBytes_of_ne hx, hk.readByte]

/-- MOVC3 moves the bytes that the source held before (41_character_string.md R140; 20_memory.md R48). -/
theorem movc3_moves {o1 o2 o3 : Specifier} {l : BitVec 16} (hops : operands3 .movc3 o1 o2 o3 s = .ok (l, a, d, k))
    (hr : admitted s .read a l.toNat) (hw : admitted s .write d l.toNat) (hm : s.mem.wf = true) :
    ∃ u, exec (.movc3 o1 o2 o3) s = .next u ∧ u.draws = s.draws ∧
      (∀ i, i < l.toNat → byteOf u d i = byteOf s a i) ∧
      (∀ x, (∀ i, i < l.toNat → x ≠ offset d i) → u.readByte x = s.readByte x) ∧
      Completes k [(0, 0), (1, offset a l.toNat), (2, 0), (3, offset d l.toNat), (4, 0), (5, 0)] equalCC u := by
  have hk := (operands3_ok hops).1
  refine string_stores .movc3 rfl hops hk (Memory.readString_length k.state.mem a l.toNat)
    (moveCharacter3_ok.mpr ⟨⟨admits_of_admitted hk hr, admits_of_admitted hk hw⟩, rfl⟩) hm l.isLt fun i hi => ?_
  rw [readString_getElem_offset, hk.readByte, byteOf]

/-- MOVC5 moves the bytes that the source held before, and the fill after them (R141; 20_memory.md R48). -/
theorem movc5_moves {o1 o2 o3 o4 o5 : Specifier} (hops : operands5 .movc5 o1 o2 o3 o4 o5 s = .ok (sl, a, f, dl, d, k))
    (hr : 0 < dl.toNat → admitted s .read a sl.toNat) (hw : admitted s .write d dl.toNat) (hm : s.mem.wf = true) :
    ∃ u, exec (.movc5 o1 o2 o3 o4 o5) s = .next u ∧ u.draws = s.draws ∧
      (∀ i, i < dl.toNat → byteOf u d i = if i < sl.toNat then byteOf s a i else f) ∧
      (∀ x, (∀ i, i < dl.toNat → x ≠ offset d i) → u.readByte x = s.readByte x) ∧
      Completes k [(0, BitVec.ofNat 32 (sl.toNat - dl.toNat)), (1, offset a (min sl.toNat dl.toNat)), (2, 0),
        (3, offset d dl.toNat), (4, 0), (5, 0)] (lengthCC sl dl) u := by
  have hk := (operands5_ok hops).1
  have hmove := (moveCharacter5_ok (f := f)).mpr
    ⟨⟨admits_of_admitted hk (admitted_readLength hr), admits_of_admitted hk hw⟩, rfl⟩
  rw [tsub_min] at hmove
  exact string_stores .movc5 rfl hops hk (movedBytes_length k.state sl.toNat dl.toNat a f) hmove hm dl.isLt
    fun i hi => byteOf_of_onlyRegs hk ▸ movedBytes_getElem hi

/-- MOVTC, its destination clear of the table, stores the entries of the bytes that the source held before, and the
fill after them (R142; 20_memory.md R48). -/
theorem movtc_moves {o1 o2 o3 o4 o5 o6 : Specifier}
    (hops : movtcOperands o1 o2 o3 o4 o5 o6 s = .ok (sl, a, f, ta, dl, d, k))
    (hr : 0 < dl.toNat → admitted s .read a sl.toNat) (hw : admitted s .write d dl.toNat)
    (ht : 0 < sl.toNat → 0 < dl.toNat → admitted s .read ta 256)
    (hclear : ∀ i j, i < dl.toNat → j < 256 → offset d i ≠ offset ta j) (hm : s.mem.wf = true) :
    ∃ u, exec (.movtc o1 o2 o3 o4 o5 o6) s = .next u ∧ u.draws = s.draws ∧
      (∀ i, i < dl.toNat → byteOf u d i = if i < sl.toNat then byteOf s ta (byteOf s a i).toNat else f) ∧
      (∀ x, (∀ i, i < dl.toNat → x ≠ offset d i) → u.readByte x = s.readByte x) ∧
      Completes k [(0, BitVec.ofNat 32 (sl.toNat - dl.toNat)), (1, offset a (min sl.toNat dl.toNat)), (2, 0),
        (3, ta), (4, 0), (5, offset d dl.toNat)] (lengthCC sl dl) u := by
  have hk := (movtcOperands_ok hops).1
  have htable : admitted s .read ta (if min sl.toNat dl.toNat = 0 then 0 else 256) := by
    split
    · exact admitted_zero
    · exact ht (by omega) (by omega)
  have hmove := (moveTranslated_ok (f := f)).mpr ⟨⟨admits_of_admitted hk (admitted_readLength hr),
    admits_of_admitted hk hw, admits_of_admitted hk htable⟩, _,
    storeTranslated_ok.mpr (.inl ⟨overlapsTable_eq_false.mpr hclear, rfl⟩), rfl⟩
  rw [tsub_min] at hmove
  exact string_stores .movtc rfl hops hk (translatedBytes_length k.state sl.toNat dl.toNat a ta f) hmove hm dl.isLt
    fun i hi => byteOf_of_onlyRegs hk ▸ translatedBytes_getElem hi

end Moves

/-- Settles O53: what the moves store is read from the source before they store it. -/
theorem overlapDoesNotAffectTheMoves : Obligations.OverlapDoesNotAffectTheMoves := by
  refine ⟨?_, ?_, ?_⟩
  · intro o1 o2 o3 s l a d k hops hr hw hm
    obtain ⟨u, hu, -, hbytes, -⟩ := movc3_moves hops hr hw hm
    exact ⟨u, hu, hbytes⟩
  · intro o1 o2 o3 o4 o5 s sl dl a d f k hops hr hw hm
    obtain ⟨u, hu, -, hbytes, -⟩ := movc5_moves hops (fun _ => hr) hw hm
    exact ⟨u, hu, hbytes⟩
  · intro o1 o2 o3 o4 o5 o6 s sl dl a ta d f k hops hr hw ht hclear hm
    obtain ⟨u, hu, -, hbytes, -⟩ := movtc_moves hops (fun _ => hr) hw (fun _ _ => ht) hclear hm
    exact ⟨u, hu, hbytes⟩

section EmptyStrings

variable {s : State} {k : Cursor} {sl ol : BitVec 16} {a a1 a2 ta oa sa d : Word} {f c : Byte}

theorem compare3_zero :
    compare3 0 a1 a2 k = .ok (k.state.complete [(0, 0), (1, a1), (2, 0), (3, a2)] equalCC k.addr) :=
  compare3_ok.mpr ⟨by simp [stringAddrs], rfl⟩

theorem compare5_zero :
    compare5 0 a1 f 0 a2 k = .ok (k.state.complete [(0, 0), (1, a1), (2, 0), (3, a2)] equalCC k.addr) :=
  compare5_ok.mpr ⟨by simp [stringAddrs], rfl⟩

theorem locateCharacter_zero :
    locateCharacter c 0 a k = .ok (k.state.complete [(0, 0), (1, a)] (zeroCC 0) k.addr) :=
  locateCharacter_ok.mpr ⟨by simp [stringAddrs], rfl⟩

theorem matchCharacters_emptyObject : matchCharacters 0 oa sl sa k =
    .ok (k.state.complete [(0, 0), (1, oa), (2, sl.setWidth 32), (3, sa)] (zeroCC 0) k.addr) :=
  matchCharacters_ok.mpr ⟨fun h => absurd rfl h, by simp [findMatch, matchResult]⟩

theorem matchCharacters_emptySource (h : ol ≠ 0) : matchCharacters ol oa 0 sa k = .ok (k.state.complete
    [(0, ol.setWidth 32), (1, oa), (2, 0), (3, sa)] { n := false, z := false, v := false, c := false } k.addr) := by
  have hol : ol.toNat ≠ 0 := fun h0 => h (BitVec.eq_of_toNat_eq h0)
  have hnone : findMatch k.state ol.toNat oa 0 sa = none :=
    findMatch_none (Nat.pos_of_ne_zero hol) fun p hp => absurd hp (by omega)
  have hz : (ol.setWidth 32 == 0#32) = false := by
    rw [beq_eq_false_iff_ne]
    intro h0
    have hzero := congrArg BitVec.toNat h0
    simp at hzero
    omega
  refine matchCharacters_ok.mpr ⟨fun _ h0 => absurd rfl h0, ?_⟩
  simp [hnone, matchResult, zeroCC, hz]

/-- Nothing is stored by a move without bytes. -/
theorem storeBytes_nil (t : State) (d : Word) : t.storeBytes d [] = t := rfl

theorem moveCharacter3_zero : moveCharacter3 0 a d k =
    .ok (k.state.complete [(0, 0), (1, a), (2, 0), (3, d), (4, 0), (5, 0)] equalCC k.addr) :=
  moveCharacter3_ok.mpr ⟨by simp [stringAddrs], by simp [Memory.readString, stringAddrs, storeBytes_nil]⟩

theorem lengthCC_zero (sl : BitVec 16) :
    lengthCC sl 0#16 = { n := sl.slt 0, z := sl == 0, v := false, c := false } := by
  simp [lengthCC, BitVec.ult]

theorem moveCharacter5_emptyDestination : moveCharacter5 sl a f 0 d k = .ok (k.state.complete
    [(0, sl.setWidth 32), (1, a), (2, 0), (3, d), (4, 0), (5, 0)]
    { n := sl.slt 0, z := sl == 0, v := false, c := false } k.addr) :=
  moveCharacter5_ok.mpr ⟨by simp [stringAddrs, readLength],
    by simp [Memory.readString, stringAddrs, storeBytes_nil, lengthCC_zero]⟩

theorem moveTranslated_emptyDestination : moveTranslated sl a f ta 0 d k = .ok (k.state.complete
    [(0, sl.setWidth 32), (1, a), (2, 0), (3, ta), (4, 0), (5, d)]
    { n := sl.slt 0, z := sl == 0, v := false, c := false } k.addr) := by
  have hstore : storeTranslated k.state ta d 0 (translatedBytes k.state sl.toNat 0 a ta f) = .ok k.state :=
    storeTranslated_ok.mpr (.inl ⟨by simp [overlapsTable, stringAddrs],
      by simp [translatedBytes, translateBytes, Memory.readString, stringAddrs, storeBytes_nil]⟩)
  exact moveTranslated_ok.mpr ⟨by simp [stringAddrs, readLength], k.state, hstore, by simp [lengthCC_zero]⟩

/-- CMPC5 leaves an empty string where it is: nothing of it is counted down (41_character_string.md R137). -/
theorem compareFilled_empty (s : State) (f : Byte) : ∀ (n : Nat) (t : Comparison),
    (t.l1 = 0 → (compareFilled s f n t).l1 = 0 ∧ (compareFilled s f n t).a1 = t.a1) ∧
      (t.l2 = 0 → (compareFilled s f n t).l2 = 0 ∧ (compareFilled s f n t).a2 = t.a2)
  | 0, t => ⟨fun h => ⟨h, rfl⟩, fun h => ⟨h, rfl⟩⟩
  | n + 1, t => by
    unfold compareFilled
    extract_lets b1 b2
    split
    · obtain ⟨h1, h2⟩ := compareFilled_empty s f n
        { l1 := t.l1 - 1, a1 := if t.l1 = 0 then t.a1 else t.a1 + 1,
          l2 := t.l2 - 1, a2 := if t.l2 = 0 then t.a2 else t.a2 + 1, cc := byteCC b1 b2 }
      refine ⟨fun h => ?_, fun h => ?_⟩
      · simpa only [if_pos h] using h1 (by simp [h])
      · simpa only [if_pos h] using h2 (by simp [h])
    · exact ⟨fun h => ⟨h, rfl⟩, fun h => ⟨h, rfl⟩⟩

/-- CMPC5 with an empty string completes with the empty string's address in its register. -/
theorem cmpc5_empty {o1 o2 o3 o4 o5 : Specifier} {s : State} {l1 l2 : BitVec 16}
    (hops : operands5 .cmpc5 o1 o2 o3 o4 o5 s = .ok (l1, a1, f, l2, a2, k)) (h1 : admitted s .read a1 l1.toNat)
    (h2 : admitted s .read a2 l2.toNat) :
    ∃ u, exec (.cmpc5 o1 o2 o3 o4 o5) s = .next u ∧ u.mem = s.mem ∧
      (l1 = 0 → u.getReg 0 = 0 ∧ u.getReg 1 = a1) ∧ (l2 = 0 → u.getReg 2 = 0 ∧ u.getReg 3 = a2) := by
  have hk := (operands5_ok hops).1
  obtain ⟨hfirst, hsecond⟩ :=
    compareFilled_empty k.state f (max l1.toNat l2.toNat) ⟨l1.toNat, a1, l2.toNat, a2, equalCC⟩
  refine ⟨_, string_next hops
    ((compare5_ok (f := f)).mpr ⟨⟨admits_of_admitted hk h1, admits_of_admitted hk h2⟩, rfl⟩), ?_, ?_, ?_⟩
  · exact (State.complete_mem _ _ _ _).trans hk.mem
  · intro h
    obtain ⟨hl, ha⟩ := hfirst (by simp [h])
    simp [finishComparison, hl, ha]
  · intro h
    obtain ⟨hl, ha⟩ := hsecond (by simp [h])
    simp [finishComparison, hl, ha]

end EmptyStrings

/-- Settles O54: each operation on strings of length 0 is one that stores nothing, or a move of fill bytes. -/
theorem zeroLengthStringsMakeNoReference : Obligations.ZeroLengthStringsMakeNoReference := by
  refine ⟨?_, ?_, ?_, ?_, ?_, ?_, ?_, ?_, ?_, ?_⟩
  · intro o1 o2 o3 s a1 a2 k hops
    exact string_completes .cmpc3 rfl hops (operands3_ok hops).1 compare3_zero
  · intro o1 o2 o3 o4 o5 s a1 a2 f k hops
    exact string_completes .cmpc5 rfl hops (operands5_ok hops).1 compare5_zero
  · intro o1 o2 o3 o4 o5 s l a1 a2 f k
    refine ⟨fun hops h2 => ?_, fun hops h1 => ?_⟩
    · obtain ⟨u, hu, hmem, hfirst, -⟩ := cmpc5_empty hops admitted_zero h2
      exact ⟨u, hu, hmem, hfirst rfl⟩
    · obtain ⟨u, hu, hmem, -, hsecond⟩ := cmpc5_empty hops h1 admitted_zero
      exact ⟨u, hu, hmem, hsecond rfl⟩
  · intro o1 o2 o3 s c a k hops
    exact string_completes .locc rfl hops (loccOperands_ok hops).1 locateCharacter_zero
  · intro o1 o2 o3 o4 s ol sl oa sa k hops
    refine ⟨?_, ?_⟩
    · rintro rfl
      exact string_completes .matchc rfl hops (matchcOperands_ok hops).1 matchCharacters_emptyObject
    · rintro hol rfl
      exact string_completes .matchc rfl hops (matchcOperands_ok hops).1 (matchCharacters_emptySource hol)
  · intro o1 o2 o3 s a d k hops
    exact string_completes .movc3 rfl hops (operands3_ok hops).1 moveCharacter3_zero
  · intro o1 o2 o3 o4 o5 s sl a d f k hops
    exact string_completes .movc5 rfl hops (operands5_ok hops).1 moveCharacter5_emptyDestination
  · intro o1 o2 o3 o4 o5 s dl a d f k hops hw hm
    obtain ⟨u, hu, -, hbytes, -, hc⟩ := movc5_moves hops (fun _ => admitted_zero) hw hm
    refine ⟨u, hu, ?_, ?_, fun i hi => by simpa using hbytes i hi⟩
    · simpa using hc.values (0, _) (by simp)
    · simpa using hc.values (1, _) (by simp)
  · intro o1 o2 o3 o4 o5 o6 s sl a ta d f k hops
    exact string_completes .movtc rfl hops (movtcOperands_ok hops).1 moveTranslated_emptyDestination
  · intro o1 o2 o3 o4 o5 o6 s dl a ta d f k hops hw hclear hm
    obtain ⟨u, hu, -, hbytes, -, hc⟩ :=
      movtc_moves hops (fun _ => admitted_zero) hw (fun h => absurd h (lt_irrefl 0)) hclear hm
    refine ⟨u, hu, ?_, ?_, fun i hi => by simpa using hbytes i hi⟩
    · simpa using hc.values (0, _) (by simp)
    · simpa using hc.values (1, _) (by simp)

end Sys2Proof.Proofs
end

section
/-! Bytes and instructions: the decoder and the encoder agree, the opcodes the decoder refuses, and what a step runs and
refuses in terms of the bytes at the PC (30_encoding.md R60 to R68, R71, R76). -/

open Sys2Proof Sys2Proof.Machine Sys2Proof.Safety Sys2Proof.Claims

namespace Sys2Proof.Proofs

section Decoder

variable {bs rest : List Byte} {i : Instr}

/-- The decoder answers an instruction exactly on its bytes, whatever follows them (R60 to R67). -/
theorem decode_eq_ok_iff : decode bs = .ok (i, rest) ↔ i.encodable = true ∧ bs = encode i ++ rest := by
  constructor
  · intro h
    unfold decode at h
    split at h
    · next j k hd =>
      cases h
      obtain ⟨he, hserves, hk⟩ := encode_of_decodeFrom hd
      refine ⟨he, ?_⟩
      rw [hk, ← encode_length]
      exact serves_listSupply_prefix hserves
    · cases h
  · rintro ⟨he, rfl⟩
    simp only [decode, decodeFrom_of_encode he (listSupply_serves _ rest), ← encode_length, List.drop_left]

end Decoder

/-- Settles O1: the bytes of an instruction, served by the list, decode to it and are what is dropped. -/
theorem decodeOfEncodeIsTheInstruction : Obligations.DecodeOfEncodeIsTheInstruction :=
  fun _ _ he => decode_eq_ok_iff.mpr ⟨he, rfl⟩

/-- Settles O2: what decodes are the bytes of the instruction, which the list serves from its first byte on. -/
theorem decodedBytesAreTheEncoding : Obligations.DecodedBytesAreTheEncoding :=
  fun _ _ _ h => decode_eq_ok_iff.mp h

/-- Settles O3: the decoder computes. -/
theorem writtenOutWordsDecode : Obligations.WrittenOutWordsDecode :=
  ⟨rfl, rfl, rfl, rfl, rfl, rfl⟩

section UnknownOpcodes

variable {ε : Type} {src : Supply ε} {size k : Nat} {bs : List Byte}

theorem bind_ne_unknownOpcode {α β : Type} {x : Except (DecodeError ε) α} {f : α → Except (DecodeError ε) β}
    (hx : x ≠ .error .unknownOpcode) (hf : ∀ a, f a ≠ .error .unknownOpcode) : x >>= f ≠ .error .unknownOpcode := by
  intro h
  obtain h | ⟨a, -, h⟩ := except_bind_error.mp h
  · exact hx h
  · exact hf a h

theorem byteAt_ne_unknownOpcode : byteAt src k ≠ .error .unknownOpcode := by
  unfold byteAt
  split <;> simp

theorem fieldAt_ne_unknownOpcode : ∀ {n k : Nat}, fieldAt src k n ≠ .error .unknownOpcode
  | 0, _ => by simp [fieldAt]
  | _ + 1, _ => bind_ne_unknownOpcode byteAt_ne_unknownOpcode fun _ =>
      bind_ne_unknownOpcode fieldAt_ne_unknownOpcode fun _ => by simp

theorem decodeMode_ne_unknownOpcode {s : Byte} {n : Reg} {m : Nat} :
    decodeMode src size k s n m ≠ .error .unknownOpcode := by
  have hfield : ∀ {w k : Nat} {f : Nat → BaseSpec × Nat},
      (fieldAt src k w >>= fun v => .ok (f v)) ≠ .error .unknownOpcode :=
    bind_ne_unknownOpcode fieldAt_ne_unknownOpcode fun _ => by simp
  unfold decodeMode
  split
  case h_9 | h_10 =>
    split
    · exact hfield
    · simp
  case h_11 | h_12 | h_13 | h_14 | h_15 | h_16 => exact hfield
  all_goals simp

theorem decodeBase_ne_unknownOpcode : decodeBase src size k ≠ .error .unknownOpcode :=
  bind_ne_unknownOpcode byteAt_ne_unknownOpcode fun _ => decodeMode_ne_unknownOpcode

theorem decodeSpecifier_ne_unknownOpcode : decodeSpecifier src size k ≠ .error .unknownOpcode := by
  refine bind_ne_unknownOpcode byteAt_ne_unknownOpcode fun s => ?_
  split <;> exact bind_ne_unknownOpcode decodeBase_ne_unknownOpcode fun _ => by simp

theorem decodeSpecifiers_ne_unknownOpcode : ∀ {os : List (Access × DataType)} {k : Nat},
    decodeSpecifiers src os k ≠ .error .unknownOpcode
  | [], _ => by simp [decodeSpecifiers]
  | _ :: _, _ => bind_ne_unknownOpcode decodeSpecifier_ne_unknownOpcode fun _ =>
      bind_ne_unknownOpcode decodeSpecifiers_ne_unknownOpcode fun _ => by simp

/-- An opcode with as many specifiers as it has operands is an instruction (R60). -/
theorem ofParts_isSome {op : Opcode} {sps : List Specifier} (h : sps.length = op.signature.length) :
    (Instr.ofParts op sps).isSome = true := by
  cases op with
  | tstf | tstd | tstg | tsth => match sps, h with | [_], _ => rfl
  | subf2 | subd2 | subg2 | subh2 => match sps, h with | [_, _], _ => rfl
  | subf3 | subd3 | subg3 | subh3 | movc3 | cmpc3 | locc | skpc => match sps, h with | [_, _, _], _ => rfl
  | scanc | spanc | matchc => match sps, h with | [_, _, _, _], _ => rfl
  | movc5 | cmpc5 => match sps, h with | [_, _, _, _, _], _ => rfl
  | movtc | movtuc => match sps, h with | [_, _, _, _, _, _], _ => rfl

/-- Past a listed opcode nothing is refused as an unknown opcode (R71). -/
theorem decodeFrom_ne_unknownOpcode {op : Opcode} (h : Serves src 0 op.bytes) :
    decodeFrom src ≠ .error .unknownOpcode := by
  intro hd
  rw [decodeFrom, decodeOpcode_of_bytes h] at hd
  obtain hd | ⟨_, ⟨⟩, hd⟩ := except_bind_error.mp hd
  · cases hd
  obtain hd | ⟨⟨sps, k⟩, hsps, hd⟩ := except_bind_error.mp hd
  · exact decodeSpecifiers_ne_unknownOpcode hd
  · obtain ⟨i, hi⟩ := Option.isSome_iff_exists.mp (ofParts_isSome (encode_of_decodeSpecifiers _ _ _ _ hsps).1)
    simp [hi] at hd

/-- Exactly the bytes that are no opcode's are refused as an unknown opcode, one that is not FD or FD and another (R61,
R71). -/
theorem decodeFrom_unknownOpcode_iff (hb : (∃ b, b ≠ 0xFD ∧ bs = [b]) ∨ ∃ b, bs = [0xFD, b])
    (h : Serves src 0 bs) : decodeFrom src = .error .unknownOpcode ↔ ∀ op : Opcode, op.bytes ≠ bs := by
  constructor
  · rintro hd op rfl
    exact decodeFrom_ne_unknownOpcode h hd
  · intro hn
    rw [decodeFrom, decodeOpcode_unlisted hb hn h]
    rfl

theorem decode_eq_error_iff {e : DecodeError Unit} : decode bs = .error e ↔ decodeFrom (listSupply bs) = .error e := by
  unfold decode
  split <;> simp_all

end UnknownOpcodes

section Steps

variable {s u : State} {i : Instr} {bs : List Byte}

/-- The fetch supplies these bytes exactly when they stand at the PC and can be fetched (R76). -/
theorem serves_fetchByte_iff : Serves (fetchByte s) 0 bs ↔ codeAt s bs ∧ fetchable s bs.length := by
  constructor
  · intro h
    have hbyte : ∀ j, (hj : j < bs.length) → s.pc.toNat + j < 2 ^ 32 ∧ s.admits .fetch (offset s.pc j) = true ∧
        (offset s.pc j).toNat ∉ s.written ∧ s.readByte (offset s.pc j) = bs[j] := fun j hj =>
      fetchByte_ok.mp (by simpa using h j hj)
    choose hbelow hadmitted hunmarked hread using hbyte
    refine ⟨hread, ?_, hadmitted, hunmarked⟩
    obtain hnil | hpos := Nat.eq_zero_or_pos bs.length
    · have := s.pc.isLt
      omega
    · have := hbelow (bs.length - 1) (by omega)
      omega
  · rintro ⟨hcode, htop, hadmitted, hunmarked⟩
    exact serves_fetchByte hcode htop hadmitted hunmarked

/-- What a step fetches is an instruction that has bytes, and they stand at the PC and can be fetched (R76). -/
theorem fetch_eq_ok_iff :
    fetch s = .ok i ↔ i.encodable = true ∧ codeAt s (encode i) ∧ fetchable s (encode i).length := by
  rw [fetch_ok, serves_fetchByte_iff]

theorem step_of_fetch (hp : pslRefusal s.psl = none) (hf : fetch s = .ok i)
    (hi : s.platform.implements i.opcode = true) : step s = exec i s := by
  simp only [step, hp, hf, hi, if_true]

/-- A step whose opcode bytes no opcode has is refused (R71). -/
theorem step_unlisted (hp : pslRefusal s.psl = none) (hb : (∃ b, b ≠ 0xFD ∧ bs = [b]) ∨ ∃ b, bs = [0xFD, b])
    (hn : ∀ op : Opcode, op.bytes ≠ bs) (hc : codeAt s bs) (hf : fetchable s bs.length) :
    step s = .refused .unknownOpcode :=
  step_unknownOpcode hp (decodeOpcode_unlisted hb hn (serves_fetchByte_iff.mpr ⟨hc, hf⟩))

end Steps

/-- Settles O4: a listed opcode is read as itself, and nothing after it is refused as an opcode. -/
theorem exactlyTheUnlistedOpcodesAreUnknown : Obligations.ExactlyTheUnlistedOpcodesAreUnknown := by
  refine ⟨fun b0 b1 rest => ⟨fun hb => ?_, ?_⟩, fun s hp => ⟨fun b0 hb hn => ?_, fun b1 hn => ?_⟩⟩
  · exact decode_eq_error_iff.trans (decodeFrom_unknownOpcode_iff (.inl ⟨b0, hb, rfl⟩) (listSupply_serves [b0] rest))
  · exact decode_eq_error_iff.trans (decodeFrom_unknownOpcode_iff (.inr ⟨b1, rfl⟩) (listSupply_serves [0xFD, b1] rest))
  · exact step_unlisted hp (.inl ⟨b0, hb, rfl⟩) hn
  · exact step_unlisted hp (.inr ⟨b1, rfl⟩) hn

/-- Settles O5: bytes that decode with nothing left over are the instruction's, and are fetched as it. -/
theorem stepRunsTheDecodedInstruction : Obligations.StepRunsTheDecodedInstruction := by
  intro s bs i hd hc hf hp hi
  obtain ⟨he, rfl⟩ := decode_eq_ok_iff.mp hd
  rw [List.append_nil] at hc hf
  exact step_of_fetch hp (fetch_eq_ok_iff.mpr ⟨he, hc, hf⟩) hi

/-- Settles O6: the step ran the instruction that it fetched. -/
theorem nextStateComesFromUnmodifiedCode : Obligations.NextStateComesFromUnmodifiedCode := by
  intro s u h
  obtain ⟨i, hp, hf, hi, hexec⟩ := step_next h
  obtain ⟨he, hc, hfetchable⟩ := fetch_eq_ok_iff.mp hf
  exact ⟨i, he, hc, hfetchable, hp, hi, hexec⟩

section IllegalForms

variable {i : Instr} {s u : State}

/-- An instruction that completes has operand forms with a meaning (R68). -/
theorem exec_ne_next_of_illegal (hl : i.formsLegal = false) : exec i s ≠ .next u := by
  intro h
  obtain ⟨-, -, -, hlegal⟩ := exec_next h
  simp [hl] at hlegal

/-- Where everything is admitted, an instruction with an operand form without a meaning stops at that form or at a
reserved operand (R68; 60_exceptions.md R204). -/
theorem exec_illegal_admitted (hl : i.formsLegal = false) (ha : admitsAll s) :
    exec i s = .refused .operandForm ∨ ∃ v, exec i s = .fault (.reservedOperand v) := by
  obtain ⟨u, hu⟩ | ⟨e, hstop, he⟩ := exec_outcome i s
  · exact absurd hu (exec_ne_next_of_illegal hl)
  · rw [he]
    cases hstop with
    | operand h =>
      obtain ⟨-, rfl⟩ | ⟨x, hx, -⟩ := h
      · rw [Stop.during_refuse]
        exact .inl rfl
      · cases (ha _ x).symm.trans hx
    | reserved _ => exact .inr ⟨_, rfl⟩
    | store x _ hx | string x _ _ _ _ hx _ => cases (ha _ x).symm.trans hx
    | overflow _ h | underflow _ _ h | overlap _ h | undescribed _ _ h => simp [hl] at h

end IllegalForms

/-- Settles O24: a completed instruction has legal forms, evaluation stops at the first illegal one, and the decoder
stops at index mode over index mode. -/
theorem illegalOperandFormsNeverRun : Obligations.IllegalOperandFormsNeverRun := by
  refine ⟨fun i s hl => ⟨fun u => exec_ne_next_of_illegal hl, exec_illegal_admitted hl,
    fun pre post acc ty sp k hi hsp hp => exec_illegal hi hsp hp⟩, ?_⟩
  intro s op pre o rest x y hp hi hsig he hx hy code hc hf
  have hstep := step_indexOverIndex hp hi hsig he hx hy (serves_fetchByte_iff.mpr ⟨hc, hf⟩)
  obtain ⟨hok, herror⟩ := unreadStop_refuse (op := op) (os := pre) (r := .operandForm) (s := s)
  exact ⟨fun h => by rw [hstep, hok h]; rfl, fun r h => by rw [hstep, herror _ h]; rfl,
    fun e h => by rw [hstep, herror _ h]; rfl⟩

end Sys2Proof.Proofs
end

section
/-! What an operand specifier gives: the address of each addressing mode, the index, the registers of a register operand
and the value of a short literal (30_encoding.md R64, R65, R67, R69, R75). -/

open Sys2Proof Sys2Proof.Machine Sys2Proof.Claims

namespace Sys2Proof.Proofs

section Addresses

variable {s : State} {size p : Nat} {pcnext a addr : Word} {n rx : Reg} {d : Disp} {b : BaseSpec} {k k' : Cursor}

theorem baseAddress_autoincrementDeferred (h : s.memRead (s.getReg n) 4 = .ok p) :
    baseAddress s size pcnext (.autoincrementDeferred n)
      = .ok (BitVec.ofNat 32 p, s.setReg n (s.getReg n + 4)) := by
  rw [baseAddress, h]
  rfl

theorem baseAddress_displacementDeferred (h : s.memRead (displacementBase s n pcnext + Disp.toWord d) 4 = .ok p) :
    baseAddress s size pcnext (.displacementDeferred n d) = .ok (BitVec.ofNat 32 p, s) := by
  rw [baseAddress, h]
  rfl

/-- A specifier outside index mode gives the address of its base, and the next operand starts after it (R64). -/
theorem operandAddress_plain : operandAddress size (.plain b) ⟨s, addr⟩
    = (baseAddress s size (addr + BitVec.ofNat 32 (b.length size)) b).map
        fun x => (x.1, ⟨x.2, addr + BitVec.ofNat 32 (b.length size)⟩) := by
  simp only [operandAddress, Specifier.length]
  cases baseAddress s size (addr + BitVec.ofNat 32 (b.length size)) b <;> rfl

/-- Index mode evaluates its base, then adds the scaled index to it (R67). -/
theorem operandAddress_index_ok (h : operandAddress size (.index rx b) k = .ok (a, k')) :
    ∃ base, baseAddress k.state size (k.addr + BitVec.ofNat 32 (1 + b.length size)) b = .ok (base, k'.state) ∧
      a = base + BitVec.ofNat 32 size * k'.state.getReg rx ∧
      k'.addr = k.addr + BitVec.ofNat 32 (1 + b.length size) := by
  obtain ⟨⟨base, t⟩, hbase, h⟩ := except_bind_ok.mp h
  cases h
  exact ⟨base, hbase, rfl, rfl⟩

end Addresses

/-- Settles O26: each mode computes its address; a deferred one when its pointer is read. -/
theorem addressingModesGiveTheirAddress : Obligations.AddressingModesGiveTheirAddress := by
  refine ⟨fun s size pcnext a n d8 d16 d32 v p => ?_, fun size b s addr => ?_⟩
  · exact ⟨rfl, rfl, rfl, rfl, rfl, rfl, rfl, rfl, baseAddress_autoincrementDeferred,
      baseAddress_displacementDeferred (d := .byte d8), baseAddress_displacementDeferred (d := .word d16),
      baseAddress_displacementDeferred (d := .long d32)⟩
  · rw [operandAddress_plain, base_encode_length]
    exact ⟨fun a s' h => by rw [h]; rfl, fun e h => by rw [h]; rfl⟩

/-- Settles O27: the sum and the product of words are those of numbers modulo 2^32. -/
theorem indexModeScalesTheIndex : Obligations.IndexModeScalesTheIndex := by
  intro size rx b k k' a hsize h
  obtain ⟨base, hbase, rfl, haddr⟩ := operandAddress_index_ok h
  refine ⟨base, hbase, ?_, haddr⟩
  rw [BitVec.toNat_add, BitVec.toNat_mul, BitVec.toNat_ofNat, Nat.mod_eq_of_lt hsize, Nat.add_mod_mod]

section RegisterOperands

variable {s : State} {r : Reg} {ty : DataType} {acc : Access} {addr : Word}

theorem readRegs_one : s.readRegs r 1 = (s.getReg r).toNat := by
  simp [State.readRegs]

theorem readRegs_two : s.readRegs r 2 = (s.getReg r).toNat + 2 ^ 32 * (s.getReg (r + 1)).toNat := by
  simp [State.readRegs]

theorem readRegs_four : s.readRegs r 4 = (s.getReg r).toNat + 2 ^ 32 * (s.getReg (r + 1)).toNat
    + 2 ^ 64 * (s.getReg (r + 2)).toNat + 2 ^ 96 * (s.getReg (r + 3)).toNat := by
  have h2 : r + 1 + 1 = r + 2 := by rw [add_assoc]; rfl
  have h3 : r + 2 + 1 = r + 3 := by rw [add_assoc]; rfl
  simp only [State.readRegs, h2, h3]
  ring

theorem readRegs_lt : ∀ (n : Nat) (r : Reg), s.readRegs r n < 2 ^ (32 * n)
  | 0, _ => Nat.zero_lt_one
  | n + 1, r => by
    have hlow := (s.getReg r).isLt
    have hhigh := readRegs_lt n (r + 1)
    rw [State.readRegs, Nat.mul_succ, Nat.pow_add]
    omega

/-- A floating operand fills its registers, so that no bit of them is dropped (R69). -/
theorem readRegister_floating {t : FType} :
    readRegister s (.floating t) r = s.readRegs r (DataType.floating t).registers := by
  have hsize : 256 ^ (DataType.floating t).size = 2 ^ (32 * (DataType.floating t).registers) := by
    cases t <;> rfl
  rw [readRegister, hsize, Nat.mod_eq_of_lt (readRegs_lt _ _)]

theorem readOperand_register (h : r.val + ty.registers ≤ 15) :
    readOperand ty (.plain (.register r)) ⟨s, addr⟩ = .ok (readRegister s ty r, ⟨s, addr + 1⟩) :=
  if_pos (show Specifier.legal .read ty (.plain (.register r)) = true by
    simpa [Specifier.legal, BaseSpec.legal] using h)

theorem locate_register (hacc : acc = .modify ∨ acc = .write) (h : r.val + ty.registers ≤ 15) :
    locate acc ty (.plain (.register r)) ⟨s, addr⟩ = .ok (.register r, ⟨s, addr + 1⟩) := by
  refine if_pos (?_ : Specifier.legal acc ty (.plain (.register r)) = true)
  obtain rfl | rfl := hacc <;> simpa [Specifier.legal, BaseSpec.legal] using h

end RegisterOperands

/-- Settles O28: a register operand is the low bytes of its registers, which a floating operand fills. -/
theorem registerOperandsUseConsecutiveRegisters : Obligations.RegisterOperandsUseConsecutiveRegisters := by
  intro s r v
  have hkept : ∀ t n, n ∉ (DataType.floating t).regsFrom r →
      (Location.write (.register r) (.floating t) v s).getReg n = s.getReg n := fun t =>
    (writeRegs_ok _ s r v).regs
  refine ⟨congrArg (· % 256) readRegs_one, congrArg (· % 65536) readRegs_one,
    readRegister_floating.trans readRegs_one, readRegister_floating.trans readRegs_two,
    readRegister_floating.trans readRegs_two, readRegister_floating.trans readRegs_four, fun t hv => ⟨?_, hkept t⟩,
    fun ty acc addr h => ⟨readOperand_register h, fun hacc => locate_register hacc h, rfl⟩⟩
  have hn : (DataType.floating t).registers ≤ 15 := by cases t <;> decide
  exact readRegister_floating.trans (readRegs_writeRegs _ s r v hn (hv.trans_le (registers_size (.floating t))))

section Literals

/-- The three fraction bits of a literal are the first of its datum, next to the exponent. -/
theorem pack_literal_sign_fraction (t : FType) {e f : Nat} (he : e ≤ t.maxExponent) (hf : f < 8) :
    t.sign (t.pack 0 e (f * 2 ^ (t.precision - 4))) = 0 ∧
      t.fraction (t.pack 0 e (f * 2 ^ (t.precision - 4))) = f * 2 ^ (t.precision - 4) := by
  cases t with
  | f | d | g =>
    simp only [FType.pack, FType.sign, FType.fraction, FType.maxExponent, FType.precision, bitField] at *
    norm_num at *
    omega
  | h =>
    have hpack : FType.h.pack 0 e (f * 2 ^ 109) = e + f * 2 ^ 29 := by
      interval_cases f <;> simp [FType.pack, bitField]
    simp only [FType.sign, FType.fraction, FType.maxExponent, FType.precision, hpack, bitField] at *
    norm_num at *
    omega

variable {t : FType} {lit : BitVec 6}

theorem expandLiteral_floating : expandLiteral (.floating t) lit
    = t.pack 0 (t.bias + lit.toNat / 8) (lit.toNat % 8 * 2 ^ (t.precision - 4)) := by
  have he : bitField lit.toNat 5 3 = lit.toNat / 8 := by
    have := lit.isLt
    simp only [bitField]
    omega
  have hf : bitField lit.toNat 2 0 = lit.toNat % 8 := by simp [bitField]
  simp only [expandLiteral, he, hf]

theorem bias_add_literal_le : t.bias + lit.toNat / 8 ≤ t.maxExponent := by
  have := lit.isLt
  cases t <;> simp only [FType.bias, FType.maxExponent] <;> omega

/-- A literal's datum has the exponent `bias + e`, no sign, and the fraction `f` in its first bits (R65, R101). -/
theorem expandLiteral_fields : t.sign (expandLiteral (.floating t) lit) = 0 ∧
    t.exponent (expandLiteral (.floating t) lit) = t.bias + lit.toNat / 8 ∧
    t.fraction (expandLiteral (.floating t) lit) = lit.toNat % 8 * 2 ^ (t.precision - 4) := by
  obtain ⟨hsign, hfraction⟩ := pack_literal_sign_fraction t (bias_add_literal_le (lit := lit))
    (Nat.mod_lt lit.toNat (show 0 < 8 by norm_num))
  rw [expandLiteral_floating]
  exact ⟨hsign, (pack_exponent t zero_le_one bias_add_literal_le).2, hfraction⟩

theorem isDatum_expandLiteral : isDatum t (expandLiteral (.floating t) lit) := by
  refine ⟨?_, by simp [FType.isReserved, expandLiteral_fields.1]⟩
  rw [expandLiteral_floating]
  exact (pack_exponent t zero_le_one bias_add_literal_le).1

theorem value_expandLiteral : value t (expandLiteral (.floating t) lit)
    = (8 + (lit.toNat % 8 : Nat)) / 16 * 2 ^ (lit.toNat / 8) := by
  obtain ⟨hsign, hexponent, hfraction⟩ := expandLiteral_fields (t := t) (lit := lit)
  have hbias : t.bias + lit.toNat / 8 ≠ 0 := by
    cases t <;> simp [FType.bias]
  obtain ⟨q, hq⟩ : ∃ q, t.precision = q + 4 := ⟨t.precision - 4, by cases t <;> rfl⟩
  rw [value, hsign, hexponent, hfraction, if_neg hbias, if_neg zero_ne_one, hq, Nat.cast_add, add_sub_cancel_left,
    zpow_natCast]
  push_cast [show q + 4 - 1 = q + 3 from rfl, pow_add]
  field_simp
  ring

end Literals

/-- Settles O29: a floating literal by the fields of its datum; the operand is the literal itself. -/
theorem shortLiteralsHaveTheirValue : Obligations.ShortLiteralsHaveTheirValue :=
  fun _ => ⟨fun _ => ⟨isDatum_expandLiteral, value_expandLiteral⟩, rfl, rfl, fun _ _ _ => rfl⟩

end Sys2Proof.Proofs
end

section
/-! Floating data and their subtraction: the layout of a datum by words, what rounding gives in units of the last
significant bit, and what that says of values (40_floating_sub_tst.md R101 to R104, R114). -/

open Sys2Proof Sys2Proof.Machine Sys2Proof.Claims

namespace Sys2Proof.Proofs

section Layout

variable {t : FType}

/-- The `n` low words of 16 bits of a number in reverse order: a datum holds those of its fraction so, the most
significant one at the lowest address (R101). -/
def reverseWords : Nat → Nat → Nat
  | 0, _ => 0
  | n + 1, v => v % 2 ^ 16 * 2 ^ (16 * n) + reverseWords n (v / 2 ^ 16)

theorem reverseWords_lt : ∀ n v : Nat, reverseWords n v < 2 ^ (16 * n)
  | 0, _ => Nat.one_pos
  | n + 1, v => by
    have hlow : v % 2 ^ 16 < 2 ^ 16 := Nat.mod_lt _ (by decide)
    calc reverseWords (n + 1) v < v % 2 ^ 16 * 2 ^ (16 * n) + 2 ^ (16 * n) :=
        Nat.add_lt_add_left (reverseWords_lt n _) _
      _ = (v % 2 ^ 16 + 1) * 2 ^ (16 * n) := by ring
      _ ≤ 2 ^ 16 * 2 ^ (16 * n) := Nat.mul_le_mul_right _ hlow
      _ = 2 ^ (16 * (n + 1)) := by ring

/-- The word reversed last is the highest one. -/
theorem reverseWords_succ_high : ∀ n v : Nat,
    reverseWords (n + 1) v = reverseWords n v * 2 ^ 16 + v / 2 ^ (16 * n) % 2 ^ 16
  | 0, v => by simp [reverseWords]
  | n + 1, v => by
    rw [reverseWords, reverseWords_succ_high n, reverseWords, Nat.div_div_eq_div_mul, ← Nat.pow_add,
      show 16 + 16 * n = 16 * (n + 1) by ring]
    ring

theorem reverseWords_add_mul : ∀ n v w : Nat, reverseWords n (v + w * 2 ^ (16 * n)) = reverseWords n v
  | 0, _, _ => rfl
  | n + 1, v, w => by
    have hw : w * 2 ^ (16 * (n + 1)) = w * 2 ^ (16 * n) * 2 ^ 16 := by ring
    rw [reverseWords, reverseWords, hw, Nat.add_mul_mod_self_right, Nat.add_mul_div_right _ _ (by decide),
      reverseWords_add_mul n]

theorem reverseWords_reverseWords : ∀ n v : Nat, reverseWords n (reverseWords n v) = v % 2 ^ (16 * n)
  | 0, v => (Nat.mod_one v).symm
  | n + 1, v => by
    have hsplit : v % 2 ^ (16 * (n + 1)) = v % 2 ^ 16 + 2 ^ 16 * (v / 2 ^ 16 % 2 ^ (16 * n)) := by
      rw [Nat.mul_succ, Nat.add_comm (16 * n), Nat.pow_add, Nat.mod_mul]
    have hlow : reverseWords (n + 1) v = reverseWords n (v / 2 ^ 16) + v % 2 ^ 16 * 2 ^ (16 * n) := Nat.add_comm _ _
    rw [reverseWords_succ_high, hlow, reverseWords_add_mul, reverseWords_reverseWords n,
      Nat.add_mul_div_right _ _ (by positivity), Nat.div_eq_of_lt (reverseWords_lt _ _), Nat.zero_add, Nat.mod_mod,
      hsplit]
    ring

/-- The bits of the fraction in the first word of a datum, below the exponent (R101). -/
def headBits : FType → Nat
  | .f => 7
  | .d => 7
  | .g => 4
  | .h => 0

/-- The number of words of a datum after the first; they hold the rest of the fraction (R101). -/
def tailWords : FType → Nat
  | .f => 1
  | .d => 3
  | .g => 3
  | .h => 7

theorem precision_sub_one (t : FType) : t.precision - 1 = headBits t + 16 * tailWords t := by
  cases t <;> rfl

theorem size_pow (t : FType) : 256 ^ t.size = 2 ^ 16 * 2 ^ (16 * tailWords t) := by
  cases t <;> rfl

theorem fraction_eq_words (t : FType) (B : Nat) : t.fraction B =
    B % 2 ^ headBits t * 2 ^ (16 * tailWords t) + reverseWords (tailWords t) (B / 2 ^ 16) := by
  cases t <;>
    simp [FType.fraction, bitField, headBits, tailWords, reverseWords, Nat.div_div_eq_div_mul, Nat.mod_one,
      Nat.add_assoc]

theorem pack_eq_words (t : FType) (s e f : Nat) : t.pack s e f = s * 2 ^ 15 + e * 2 ^ headBits t
    + f / 2 ^ (16 * tailWords t) % 2 ^ headBits t + reverseWords (tailWords t) f * 2 ^ 16 := by
  cases t <;>
    simp [FType.pack, bitField, headBits, tailWords, reverseWords, Nat.div_div_eq_div_mul, Nat.mod_one] <;>
    ring

/-- The first word of a datum is its sign, its exponent and the first bits of its fraction (R101). -/
theorem head_word (t : FType) (B : Nat) :
    t.sign B * 2 ^ 15 + t.exponent B * 2 ^ headBits t + B % 2 ^ headBits t = B % 2 ^ 16 := by
  cases t <;> simp only [FType.sign, FType.exponent, bitField, headBits] <;> omega

theorem head_word_fields {s e x r : Nat} (hs : s ≤ 1) (he : e ≤ t.maxExponent) (hx : x < 2 ^ headBits t) :
    t.sign (s * 2 ^ 15 + e * 2 ^ headBits t + x + r * 2 ^ 16) = s ∧
      (s * 2 ^ 15 + e * 2 ^ headBits t + x + r * 2 ^ 16) % 2 ^ headBits t = x ∧
      (s * 2 ^ 15 + e * 2 ^ headBits t + x + r * 2 ^ 16) / 2 ^ 16 = r := by
  cases t <;> simp only [FType.sign, FType.maxExponent, bitField, headBits] at * <;> omega

theorem sign_le_one (t : FType) (B : Nat) : t.sign B ≤ 1 := Nat.le_of_lt_succ (bitField_lt B 15 15)

theorem exponent_le (t : FType) (B : Nat) : t.exponent B ≤ t.maxExponent := by
  cases t <;> exact Nat.le_of_lt_succ (bitField_lt B _ _)

theorem fraction_lt (t : FType) (B : Nat) : t.fraction B < 2 ^ (t.precision - 1) := by
  have hhead : B % 2 ^ headBits t < 2 ^ headBits t := Nat.mod_lt _ (by positivity)
  rw [fraction_eq_words, precision_sub_one, Nat.pow_add]
  calc _ < B % 2 ^ headBits t * 2 ^ (16 * tailWords t) + 2 ^ (16 * tailWords t) :=
      Nat.add_lt_add_left (reverseWords_lt _ _) _
    _ = (B % 2 ^ headBits t + 1) * 2 ^ (16 * tailWords t) := by ring
    _ ≤ _ := Nat.mul_le_mul_right _ hhead

theorem pack_sign_fraction {s e f : Nat} (hs : s ≤ 1) (he : e ≤ t.maxExponent) (hf : f < 2 ^ (t.precision - 1)) :
    t.sign (t.pack s e f) = s ∧ t.fraction (t.pack s e f) = f := by
  have hhead : f / 2 ^ (16 * tailWords t) < 2 ^ headBits t := by
    rwa [Nat.div_lt_iff_lt_mul (by positivity), ← Nat.pow_add, ← precision_sub_one]
  obtain ⟨hsign, hlow, htail⟩ := head_word_fields (r := reverseWords (tailWords t) f) hs he hhead
  rw [pack_eq_words, Nat.mod_eq_of_lt hhead, fraction_eq_words, hlow, htail, reverseWords_reverseWords]
  exact ⟨hsign, Nat.div_add_mod' _ _⟩

theorem pack_of_fields {B : Nat} (h : B < 256 ^ t.size) : t.pack (t.sign B) (t.exponent B) (t.fraction B) = B := by
  have hhead : B % 2 ^ headBits t < 2 ^ headBits t := Nat.mod_lt _ (by positivity)
  have htail : B / 2 ^ 16 < 2 ^ (16 * tailWords t) := by
    rwa [Nat.div_lt_iff_lt_mul (by positivity), Nat.mul_comm, ← size_pow]
  have hhigh : t.fraction B / 2 ^ (16 * tailWords t) = B % 2 ^ headBits t := by
    rw [fraction_eq_words, Nat.add_comm, Nat.add_mul_div_right _ _ (by positivity),
      Nat.div_eq_of_lt (reverseWords_lt _ _), Nat.zero_add]
  have hreverse : reverseWords (tailWords t) (t.fraction B) = B / 2 ^ 16 := by
    rw [fraction_eq_words, Nat.add_comm, reverseWords_add_mul, reverseWords_reverseWords, Nat.mod_eq_of_lt htail]
  rw [pack_eq_words, hhigh, hreverse, Nat.mod_eq_of_lt hhead, head_word, Nat.mod_add_div']

end Layout

/-- Settles O31: the tail of a datum is that of its fraction with the words reversed, and reversing undoes itself. -/
theorem packIsInverseOfTheLayout : Obligations.PackIsInverseOfTheLayout := by
  refine fun t => ⟨fun sg e f hs he hf => ?_, fun B hB => ⟨pack_of_fields hB, exponent_le t B, fraction_lt t B⟩⟩
  obtain ⟨hsize, hexponent⟩ := pack_exponent t (f := f) hs he
  obtain ⟨hsign, hfraction⟩ := pack_sign_fraction hs he hf
  exact ⟨hsize, hsign, hexponent, hfraction⟩

section Scaled

variable {t : FType} {s e f d : Nat}

theorem scaled_of_exponent_zero (h : t.exponent d = 0) : t.scaled d = 0 := if_pos h

theorem exponent_zeroDatum (t : FType) : t.exponent zeroDatum = 0 := by cases t <;> rfl

theorem scaled_zeroDatum (t : FType) : t.scaled zeroDatum = 0 := scaled_of_exponent_zero (exponent_zeroDatum t)

theorem precision_pos (t : FType) : 0 < t.precision := by cases t <;> decide

theorem two_pow_precision (t : FType) : 2 ^ t.precision = 2 * 2 ^ (t.precision - 1) :=
  (mul_pow_sub_one (precision_pos t).ne' 2).symm

theorem scaled_pack (hs : s ≤ 1) (he : e ≤ t.maxExponent) (he0 : e ≠ 0) (hf : f < 2 ^ (t.precision - 1)) :
    t.scaled (t.pack s e f) = (if s = 1 then -1 else 1) * ((2 ^ (t.precision - 1) + f) * 2 ^ e : Nat) := by
  obtain ⟨hsign, hfraction⟩ := pack_sign_fraction hs he hf
  rw [FType.scaled, (pack_exponent t hs he).2, hsign, hfraction, if_neg he0]

/-- The magnitude of a datum other than zero has `p` significant bits (R101, R102). -/
theorem natAbs_scaled (h : t.exponent d ≠ 0) :
    (t.scaled d).natAbs = (2 ^ (t.precision - 1) + t.fraction d) * 2 ^ t.exponent d := by
  rw [FType.scaled, if_neg h, Int.natAbs_mul, Int.natAbs_natCast]
  split <;> simp

theorem significand_lt (t : FType) (d : Nat) : 2 ^ (t.precision - 1) + t.fraction d < 2 ^ t.precision := by
  have hp := two_pow_precision t
  have hfraction := fraction_lt t d
  omega

theorem scaled_neg_iff (h : t.exponent d ≠ 0) : t.scaled d < 0 ↔ t.sign d = 1 := by
  have hpos : (0 : ℤ) < ((2 ^ (t.precision - 1) + t.fraction d) * 2 ^ t.exponent d : Nat) := by positivity
  rw [FType.scaled, if_neg h]
  split <;> simp_all

theorem scaled_ne_zero (h : t.exponent d ≠ 0) : t.scaled d ≠ 0 := by
  rw [← Int.natAbs_ne_zero, natAbs_scaled h]
  positivity

/-- In units of `2 ^ m` a datum is an integer, or it has a smaller exponent and is less than `2 ^ (p - 1)` units. -/
theorem scaled_dvd_or_lt (t : FType) (d m : Nat) :
    (2 ^ m : ℤ) ∣ t.scaled d ∨ (t.scaled d).natAbs < 2 ^ (t.precision - 1) * 2 ^ m := by
  by_cases h0 : t.exponent d = 0
  · exact .inl (by simp [scaled_of_exponent_zero h0])
  by_cases hm : m ≤ t.exponent d
  · refine .inl ?_
    rw [← Int.natAbs_dvd_natAbs, natAbs_scaled h0, Int.natAbs_pow]
    exact Dvd.dvd.mul_left (Nat.pow_dvd_pow 2 hm) _
  · refine .inr ?_
    have hp := precision_pos t
    rw [natAbs_scaled h0]
    calc _ < 2 ^ t.precision * 2 ^ t.exponent d := Nat.mul_lt_mul_of_pos_right (significand_lt t d) (by positivity)
      _ ≤ _ := by
        rw [← Nat.pow_add, ← Nat.pow_add]
        exact Nat.pow_le_pow_right (by decide) (by omega)

end Scaled

section Rounded

variable {t : FType} {q : ℤ} {r n : Nat}

/-- The exponent field of a rounded magnitude, before its range is tested (R104). -/
def roundedExponent (p n : Nat) : ℤ :=
  if roundSignificand p n = 2 ^ p then (bitLength n : ℤ) - p + 1 else (bitLength n : ℤ) - p

/-- The significand of a rounded magnitude, after a carry out (R104). -/
def roundedSignificand (p n : Nat) : Nat :=
  if roundSignificand p n = 2 ^ p then 2 ^ (p - 1) else roundSignificand p n

@[simp] theorem round_zero (t : FType) : t.round 0 = .value zeroDatum := rfl

theorem round_eq (hq : q ≠ 0) : t.round q =
    if roundedExponent t.precision q.natAbs > t.maxExponent then .overflow
    else if roundedExponent t.precision q.natAbs < 1 then .underflow
    else .value (t.pack (if q < 0 then 1 else 0) (roundedExponent t.precision q.natAbs).toNat
      (roundedSignificand t.precision q.natAbs - 2 ^ (t.precision - 1))) :=
  if_neg hq

theorem round_eq_overflow_iff (hq : q ≠ 0) :
    t.round q = .overflow ↔ (t.maxExponent : ℤ) < roundedExponent t.precision q.natAbs := by
  rw [round_eq hq]
  split
  · simpa
  · split <;> simp_all

theorem round_eq_underflow_iff (hq : q ≠ 0) :
    t.round q = .underflow ↔ roundedExponent t.precision q.natAbs < 1 := by
  rw [round_eq hq]
  split
  · simp only [reduceCtorEq, false_iff]; omega
  · split <;> simp_all

theorem round_eq_value_iff (hq : q ≠ 0) : t.round q = .value r ↔
    1 ≤ roundedExponent t.precision q.natAbs ∧ roundedExponent t.precision q.natAbs ≤ t.maxExponent ∧
      r = t.pack (if q < 0 then 1 else 0) (roundedExponent t.precision q.natAbs).toNat
        (roundedSignificand t.precision q.natAbs - 2 ^ (t.precision - 1)) := by
  rw [round_eq hq]
  split
  · simp only [reduceCtorEq, false_iff]; omega
  · split
    · simp only [reduceCtorEq, false_iff]; omega
    · simp only [FSubResult.value.injEq]
      constructor
      · rintro rfl; exact ⟨by omega, by omega, rfl⟩
      · rintro ⟨-, -, rfl⟩; rfl

/-- In units of its last significant bit, a rounded magnitude is within half a unit, a tie going up (R104). -/
theorem roundSignificand_units {p n : Nat} (h : p ≤ bitLength n) :
    2 * (roundSignificand p n * 2 ^ (bitLength n - p)) ≤ 2 * n + 2 ^ (bitLength n - p) ∧
      2 * n < 2 * (roundSignificand p n * 2 ^ (bitLength n - p)) + 2 ^ (bitLength n - p) := by
  obtain ⟨h1, h2⟩ := roundSignificand_spec p n
  obtain ⟨m, hm⟩ := Nat.exists_eq_add_of_le h
  generalize roundSignificand p n = M at *
  rw [hm, Nat.add_sub_cancel_left]
  rw [hm] at h1 h2
  have hpos : 0 < 2 ^ p := by positivity
  constructor
  · refine Nat.le_of_mul_le_mul_left ?_ hpos
    calc _ = M * 2 ^ (p + m + 1) := by ring
      _ ≤ _ := h1
      _ = _ := by ring
  · have : 2 ^ p * (2 * n + 2 ^ m) < 2 ^ p * (2 * (M * 2 ^ m) + 2 * 2 ^ m) := by
      calc _ = n * 2 ^ (p + 1) + 2 ^ (p + m) := by ring
        _ < _ := h2
        _ = _ := by ring
    have := Nat.lt_of_mul_lt_mul_left this
    omega

/-- The carry out moves one bit from the significand to the exponent. -/
theorem roundedSignificand_mul {p n : Nat} (hp : 0 < p) (h : 1 ≤ roundedExponent p n) :
    p ≤ bitLength n ∧ roundedSignificand p n * 2 ^ (roundedExponent p n).toNat
      = roundSignificand p n * 2 ^ (bitLength n - p) := by
  unfold roundedSignificand roundedExponent at *
  split at h
  · next hM =>
    rw [if_pos hM, if_pos hM, hM]
    refine ⟨by omega, ?_⟩
    rw [← Nat.pow_add, ← Nat.pow_add]
    congr 1
    omega
  · next hM =>
    rw [if_neg hM, if_neg hM]
    refine ⟨by omega, ?_⟩
    congr 2
    omega

theorem roundedSignificand_bounds {p n : Nat} (hp : 0 < p) (h : n ≠ 0) :
    2 ^ (p - 1) ≤ roundedSignificand p n ∧ roundedSignificand p n < 2 ^ p := by
  obtain ⟨h1, h2⟩ := roundSignificand_bounds hp h
  unfold roundedSignificand
  split
  · exact ⟨le_rfl, Nat.pow_lt_pow_right (by decide) (by omega)⟩
  · next hM => exact ⟨h1, lt_of_le_of_ne h2 hM⟩

/-- A rounded value is the significand in units of `2 ^ (L - p)`, with the sign of the exact one (R104). -/
theorem round_value (hq : q ≠ 0) (h : t.round q = .value r) :
    t.precision ≤ bitLength q.natAbs ∧
      t.scaled r = q.sign * (roundSignificand t.precision q.natAbs * 2 ^ (bitLength q.natAbs - t.precision) : Nat) := by
  obtain ⟨he1, he2, rfl⟩ := (round_eq_value_iff hq).mp h
  obtain ⟨hM1, hM2⟩ := roundedSignificand_bounds (precision_pos t) (Int.natAbs_ne_zero.mpr hq)
  obtain ⟨hL, hM⟩ := roundedSignificand_mul (precision_pos t) he1
  have hp := two_pow_precision t
  have hs : (if q < 0 then 1 else 0) ≤ 1 := by split <;> decide
  have he : (roundedExponent t.precision q.natAbs).toNat ≤ t.maxExponent := by omega
  refine ⟨hL, ?_⟩
  rw [scaled_pack hs he (by omega) (by omega), Nat.add_sub_cancel' hM1, hM]
  congr 1
  rcases lt_or_gt_of_ne hq with h | h
  · simp [h, Int.sign_eq_neg_one_of_neg h]
  · simp [h.le, Int.sign_eq_one_of_pos h]

/-- A datum other than zero is rounded to itself (R104). -/
theorem round_scaled {d : Nat} (hd : d < 256 ^ t.size) (h : t.exponent d ≠ 0) : t.round (t.scaled d) = .value d := by
  have hlt := significand_lt t d
  obtain ⟨p, hp⟩ : ∃ p, t.precision = p + 1 := ⟨t.precision - 1, (Nat.sub_add_cancel (precision_pos t)).symm⟩
  obtain ⟨hL, hM⟩ := roundSignificand_exact (e := t.exponent d) (p := p) (m := 2 ^ (t.precision - 1) + t.fraction d)
    (by simp [hp]) (by rwa [← hp])
  rw [← natAbs_scaled h] at hL hM
  rw [← hp] at hL hM
  have hE : roundedExponent t.precision (t.scaled d).natAbs = t.exponent d := by
    rw [roundedExponent, hM, if_neg hlt.ne, hL, hp]; push_cast; ring
  have hS : roundedSignificand t.precision (t.scaled d).natAbs - 2 ^ (t.precision - 1) = t.fraction d := by
    rw [roundedSignificand, hM, if_neg hlt.ne, Nat.add_sub_cancel_left]
  have hsign : (if t.scaled d < 0 then 1 else 0) = t.sign d := by
    have := sign_le_one t d
    simp only [scaled_neg_iff h]
    split <;> omega
  rw [round_eq_value_iff (scaled_ne_zero h), hE, hS, hsign, Int.toNat_natCast, pack_of_fields hd]
  exact ⟨by omega, by exact_mod_cast exponent_le t d, rfl⟩

end Rounded

section Thresholds

variable {t : FType} {q : ℤ} {p n : Nat}

theorem lt_bitLength_of_le {m : Nat} (h : 2 ^ m ≤ n) : m < bitLength n := by
  have hn : n ≠ 0 := ((Nat.two_pow_pos m).trans_le h).ne'
  exact (Nat.pow_lt_pow_iff_right (by decide)).mp (h.trans_lt (bitLength_spec hn).2)

theorem bitLength_le_of_lt {m : Nat} (hn : n ≠ 0) (h : n < 2 ^ m) : bitLength n ≤ m := by
  have := (Nat.pow_lt_pow_iff_right (a := 2) (by decide)).mp ((bitLength_spec hn).1.trans_lt h)
  omega

theorem roundedExponent_bounds (p n : Nat) :
    (bitLength n : ℤ) - p ≤ roundedExponent p n ∧ roundedExponent p n ≤ (bitLength n : ℤ) - p + 1 := by
  unfold roundedExponent
  split <;> omega

/-- A magnitude below `2 ^ p` has at most `p` bits, so that no rounding raises its exponent. -/
theorem roundedExponent_lt_one_iff (hn : n ≠ 0) : roundedExponent p n < 1 ↔ n < 2 ^ p := by
  obtain ⟨hlow, hhigh⟩ := roundedExponent_bounds p n
  constructor
  · intro h
    by_contra hp
    have := lt_bitLength_of_le (not_lt.mp hp)
    omega
  · intro h
    obtain hL | hL := (bitLength_le_of_lt hn h).lt_or_eq
    · omega
    · obtain ⟨hround, -⟩ := roundSignificand_units (n := n) hL.ge
      rw [hL, Nat.sub_self, Nat.pow_zero, Nat.mul_one] at hround
      have hM : roundSignificand p n ≠ 2 ^ p := by omega
      rw [roundedExponent, if_neg hM]
      omega

/-- The exponent exceeds `m` from half a unit below `2 ^ (p + m)` on: there the significand carries out. -/
theorem lt_roundedExponent_iff {m : Nat} (hp : 0 < p) (hm : 0 < m) (hn : n ≠ 0) :
    (m : ℤ) < roundedExponent p n ↔ 2 ^ (p + m) - 2 ^ (m - 1) ≤ n := by
  obtain ⟨hlow, hhigh⟩ := roundedExponent_bounds p n
  have hhalf : 2 ^ m = 2 * 2 ^ (m - 1) := (mul_pow_sub_one hm.ne' 2).symm
  have hunit : 2 ^ (p + m) = 2 ^ p * 2 ^ m := Nat.pow_add 2 p m
  obtain hL | hL | hL := lt_trichotomy (bitLength n) (p + m)
  · -- the magnitude is below `2 ^ (p + m - 1)`
    have hlt : n < 2 ^ (p + m - 1) :=
      (bitLength_spec hn).2.trans_le (Nat.pow_le_pow_right (by decide) (by omega))
    have hdouble : 2 ^ (p + m) = 2 * 2 ^ (p + m - 1) := (mul_pow_sub_one (by omega) 2).symm
    have hle : 2 ^ (m - 1) ≤ 2 ^ (p + m - 1) := Nat.pow_le_pow_right (by decide) (by omega)
    exact iff_of_false (by omega) (by omega)
  · -- the exponent is `m + 1` where the significand carries out
    obtain ⟨hround, hround'⟩ := roundSignificand_units (p := p) (n := n) (by omega)
    rw [hL, Nat.add_sub_cancel_left] at hround hround'
    have hcarry : (m : ℤ) < roundedExponent p n ↔ roundSignificand p n = 2 ^ p := by
      unfold roundedExponent
      split <;> simp_all
    rw [hcarry]
    constructor
    · intro hM
      rw [hM] at hround
      omega
    · intro hle
      refine le_antisymm (roundSignificand_bounds hp hn).2 (Nat.le_of_lt_succ ?_)
      refine Nat.lt_of_mul_lt_mul_right (a := 2 ^ m) ?_
      rw [Nat.succ_mul]
      omega
  · have hge : 2 ^ (p + m) ≤ n :=
      (Nat.pow_le_pow_right (by decide) (by omega)).trans (bitLength_spec hn).1
    exact iff_of_true (by omega) (by omega)

theorem maxExponent_pos (t : FType) : 0 < t.maxExponent := by cases t <;> decide

theorem round_eq_underflow_iff_natAbs : t.round q = .underflow ↔ q ≠ 0 ∧ q.natAbs < 2 ^ t.precision := by
  by_cases hq : q = 0
  · simp [hq]
  · simp [round_eq_underflow_iff hq, roundedExponent_lt_one_iff (Int.natAbs_ne_zero.mpr hq), hq]

theorem round_eq_overflow_iff_natAbs : t.round q = .overflow ↔
    2 ^ (t.precision + t.maxExponent) - 2 ^ (t.maxExponent - 1) ≤ q.natAbs := by
  by_cases hq : q = 0
  · have : 2 ^ (t.maxExponent - 1) < 2 ^ (t.precision + t.maxExponent) :=
      Nat.pow_lt_pow_right (by decide) (by have := maxExponent_pos t; omega)
    simp [hq, Nat.sub_eq_zero_iff_le, this]
  · rw [round_eq_overflow_iff hq,
      lt_roundedExponent_iff (precision_pos t) (maxExponent_pos t) (Int.natAbs_ne_zero.mpr hq)]

end Thresholds

section Nearest

/-- `R` is as near to `n` as `D` is, or nearer, and where both are equally near no smaller in magnitude (R104). -/
def AsNear (n R D : ℤ) : Prop :=
  (R - n).natAbs ≤ (D - n).natAbs ∧ ((R - n).natAbs = (D - n).natAbs → D.natAbs ≤ R.natAbs)

theorem asNear_self (n R : ℤ) : AsNear n R R := ⟨le_rfl, fun _ => le_rfl⟩

theorem asNear_neg {n R D : ℤ} (h : AsNear n R D) : AsNear (-n) (-R) (-D) := by
  unfold AsNear at *
  omega

/-- A multiple of the unit within half a unit of `n`, a tie going up, is as near to `n` as every multiple. -/
theorem asNear_of_dvd {n u R D : ℤ} (hn : 0 ≤ n) (h1 : 2 * R ≤ 2 * n + u) (h2 : 2 * n < 2 * R + u) (hR : u ∣ R)
    (hD : u ∣ D) : AsNear n R D := by
  obtain ⟨M, rfl⟩ := hR
  obtain ⟨k, rfl⟩ := hD
  have hu : 0 < u := by omega
  obtain hk | rfl | hk := lt_trichotomy k M
  · have : u * k ≤ u * M - u := by nlinarith
    unfold AsNear
    omega
  · exact asNear_self _ _
  · have : u * M + u ≤ u * k := by nlinarith
    unfold AsNear
    omega

/-- A magnitude of at least `p` bits, rounded to `p` bits, is as near to it as every datum (R104). -/
theorem asNear_roundSignificand (t : FType) (d : Nat) {n : Nat} {D : ℤ} (hn : n ≠ 0) (hp : t.precision ≤ bitLength n)
    (hD : D.natAbs = (t.scaled d).natAbs) :
    AsNear n (roundSignificand t.precision n * 2 ^ (bitLength n - t.precision) : Nat) D := by
  obtain ⟨h1, h2⟩ := roundSignificand_units hp
  set u := 2 ^ (bitLength n - t.precision) with hu
  have hnear : ∀ D : ℤ, (u : ℤ) ∣ D → AsNear n (roundSignificand t.precision n * u : Nat) D := fun D hdvd =>
    asNear_of_dvd (Int.natCast_nonneg n) (by omega) (by omega) (Int.natCast_dvd_natCast.mpr (Nat.dvd_mul_left _ _)) hdvd
  obtain hdvd | hlt := scaled_dvd_or_lt t d (bitLength n - t.precision)
  · refine hnear D ?_
    rw [← Int.natAbs_dvd_natAbs, hD, Int.natAbs_dvd_natAbs, hu]
    exact_mod_cast hdvd
  · -- `2 ^ (L - 1)` lies between this datum and the magnitude, and is a multiple of the unit
    have hbound : 2 ^ (t.precision - 1) * u = 2 ^ (bitLength n - 1) := by
      rw [hu, ← Nat.pow_add]
      congr 1
      have := precision_pos t
      omega
    have hle := (bitLength_spec hn).1
    obtain ⟨hB, -⟩ := hnear (2 ^ (t.precision - 1) * u : Nat) (Int.natCast_dvd_natCast.mpr (Nat.dvd_mul_left _ _))
    rw [← hD, ← hu, hbound] at hlt
    rw [hbound] at hB
    unfold AsNear
    omega

theorem asNear_round {t : FType} {q : ℤ} {r : Nat} (h : t.round q = .value r) (d : Nat) :
    AsNear q (t.scaled r) (t.scaled d) := by
  by_cases hq : q = 0
  · obtain rfl : zeroDatum = r := by simpa [hq] using h
    rw [scaled_zeroDatum, hq]
    unfold AsNear
    omega
  obtain ⟨hp, hr⟩ := round_value hq h
  have hn : q.natAbs ≠ 0 := Int.natAbs_ne_zero.mpr hq
  obtain hneg | hpos := lt_or_gt_of_ne hq
  · have hnear := asNear_neg (asNear_roundSignificand t d hn hp (Int.natAbs_neg (t.scaled d)))
    rw [Int.sign_eq_neg_one_of_neg hneg, neg_one_mul] at hr
    rwa [← hr, neg_neg, ← Int.eq_neg_natAbs_of_nonpos hneg.le] at hnear
  · have hnear := asNear_roundSignificand t d hn hp (D := t.scaled d) rfl
    rw [Int.sign_eq_one_of_pos hpos, one_mul] at hr
    rwa [← hr, Int.natAbs_of_nonneg hpos.le] at hnear

end Nearest

section Values

variable {t : FType} {a b r : Nat} {p : Platform}

/-- Values are compared in magnitude as the model's integers for them. -/
theorem abs_le_abs_iff_scaled (t : FType) {x y : ℚ} {m n : ℤ} (hx : (m : ℚ) = x * 2 ^ (t.bias + t.precision))
    (hy : (n : ℚ) = y * 2 ^ (t.bias + t.precision)) : |x| ≤ |y| ↔ m.natAbs ≤ n.natAbs := by
  have hpos : (0 : ℚ) < 2 ^ (t.bias + t.precision) := by positivity
  have hcast : ∀ {x : ℚ} {m : ℤ}, (m : ℚ) = x * 2 ^ (t.bias + t.precision) →
      |x| * 2 ^ (t.bias + t.precision) = (m.natAbs : ℚ) := fun h => by
    rw [Nat.cast_natAbs, Int.cast_abs, h, abs_mul, abs_of_pos hpos]
  rw [← mul_le_mul_iff_left₀ hpos, hcast hx, hcast hy, Nat.cast_le]

theorem scaled_sub_eq_value_mul (t : FType) (a b : Nat) :
    ((t.scaled a - t.scaled b : ℤ) : ℚ) = (value t a - value t b) * 2 ^ (t.bias + t.precision) := by
  rw [Int.cast_sub, scaled_eq_value_mul, scaled_eq_value_mul, sub_mul]

theorem scaled_error_eq_value_mul (t : FType) (d a b : Nat) :
    ((t.scaled d - (t.scaled a - t.scaled b) : ℤ) : ℚ)
      = (value t d - (value t a - value t b)) * 2 ^ (t.bias + t.precision) := by
  rw [Int.cast_sub, scaled_sub_eq_value_mul, scaled_eq_value_mul, ← sub_mul]

/-- A bound on a value in magnitude is one on the model's integer for it. -/
theorem le_abs_iff_scaled (t : FType) {x y : ℚ} {m : Nat} {n : ℤ} (hx : (m : ℚ) = x * 2 ^ (t.bias + t.precision))
    (hy : (n : ℚ) = y * 2 ^ (t.bias + t.precision)) : x ≤ |y| ↔ m ≤ n.natAbs := by
  have hx0 : 0 ≤ x := nonneg_of_mul_nonneg_left (hx ▸ m.cast_nonneg) (by positivity)
  have hle := abs_le_abs_iff_scaled (m := m) t (by exact_mod_cast hx) hy
  rwa [abs_of_nonneg hx0, Int.natAbs_natCast] at hle

/-- A power of 2 in the model's integers. -/
theorem two_pow_eq_zpow_mul (t : FType) (m : Nat) {e : ℤ} (h : e + t.bias + t.precision = m) :
    ((2 ^ m : Nat) : ℚ) = 2 ^ e * 2 ^ (t.bias + t.precision) := by
  rw [← zpow_natCast (2 : ℚ) (t.bias + t.precision), ← zpow_add₀ two_ne_zero, Nat.cast_add, ← add_assoc, h,
    zpow_natCast]
  norm_cast

/-- Every platform answers as the default where that is exact (R104). -/
theorem platform_fsub_of_exact (h : t.fsub a b = .value r) (hr : t.scaled r = t.scaled a - t.scaled b) :
    p.fsub t a b = .value r := by
  simp [Platform.fsub, FType.isExact, h, hr]

theorem isDatum_zeroDatum (t : FType) : isDatum t zeroDatum := ⟨Nat.pow_pos (by decide), by cases t <;> rfl⟩

theorem value_of_exponent_zero (h : t.exponent a = 0) : value t a = 0 := if_pos h

theorem platform_fsub_of_scaled_eq (h : t.scaled a = t.scaled b) : p.fsub t a b = .value zeroDatum := by
  have hq : t.scaled a - t.scaled b = 0 := sub_eq_zero.mpr h
  exact platform_fsub_of_exact (by rw [FType.fsub, hq, round_zero]) (by rw [scaled_zeroDatum, hq])

/-- A difference that is the value of a datum other than zero is that datum on every platform (R104). -/
theorem platform_fsub_of_datum {d : Nat} (hd : d < 256 ^ t.size) (he : t.exponent d ≠ 0)
    (h : t.scaled d = t.scaled a - t.scaled b) : p.fsub t a b = .value d :=
  platform_fsub_of_exact (by rw [FType.fsub, ← h, round_scaled hd he]) h

end Values

/-- Settles O32: a datum is rounded to itself, and a zero of any fraction to the zero of all bits 0. -/
theorem subtractionIsExactWhenRepresentable : Obligations.SubtractionIsExactWhenRepresentable := by
  intro p t a b d _ _ hd hval
  have hscaled := value_sub_eq_iff_scaled.mp hval
  by_cases he : t.exponent d = 0
  · rw [scaled_of_exponent_zero he] at hscaled
    refine ⟨zeroDatum, platform_fsub_of_scaled_eq (sub_eq_zero.mp hscaled.symm), isDatum_zeroDatum t, ?_⟩
    rw [value_of_exponent_zero (exponent_zeroDatum t), value_of_exponent_zero he]
  · exact ⟨d, platform_fsub_of_datum hd.1 he hscaled, hd, rfl⟩

/-- Settles O33: nearness and magnitude are those of the model's integers. -/
theorem subtractionRoundsToNearestTiesAway : Obligations.SubtractionRoundsToNearestTiesAway := by
  intro t a b r _ _ h
  refine ⟨(isResult_value_iff.mp (h ▸ fsub_isResult t a b)).1, fun d _ => ?_⟩
  have hle := fun d d' =>
    abs_le_abs_iff_scaled t (scaled_error_eq_value_mul t d a b) (scaled_error_eq_value_mul t d' a b)
  rw [le_antisymm_iff (a := |value t r - _|), hle, hle, ← le_antisymm_iff,
    abs_le_abs_iff_scaled t (scaled_eq_value_mul t d) (scaled_eq_value_mul t r)]
  exact asNear_round h d

/-- Settles O34: the bounds are those on the model's integers at which the rounded exponent leaves its range. -/
theorem subtractionRangeIsTestedOnTheRoundedResult : Obligations.SubtractionRangeIsTestedOnTheRoundedResult := by
  intro t a b _ _ q p small large
  have hq : ((t.scaled a - t.scaled b : ℤ) : ℚ) = q * 2 ^ (t.bias + t.precision) := scaled_sub_eq_value_mul t a b
  have hzero : t.scaled a - t.scaled b = 0 ↔ q = 0 := by
    rw [← @Int.cast_eq_zero ℚ, hq, mul_eq_zero, or_iff_left (by positivity)]
  constructor
  · have hle := le_abs_iff_scaled t (two_pow_eq_zpow_mul t t.precision (e := small) (by omega)) hq
    rw [FType.fsub, round_eq_underflow_iff_natAbs, ← not_le, ← not_le, hle, Ne, hzero]
  · have hpow : 2 ^ (t.maxExponent - 1) ≤ 2 ^ (t.precision + t.maxExponent) :=
      Nat.pow_le_pow_right (by decide) (by omega)
    have hbound : ((2 ^ (t.precision + t.maxExponent) - 2 ^ (t.maxExponent - 1) : Nat) : ℚ)
        = (2 ^ large - 2 ^ (large - p - 1)) * 2 ^ (t.bias + t.precision) := by
      have hm := maxExponent_pos t
      rw [Nat.cast_sub hpow, two_pow_eq_zpow_mul t (t.precision + t.maxExponent) (e := large) (by omega),
        two_pow_eq_zpow_mul t (t.maxExponent - 1) (e := large - p - 1) (by omega), sub_mul]
    rw [FType.fsub, round_eq_overflow_iff_natAbs, le_abs_iff_scaled t hbound hq]

section Negation

variable {t : FType} {a : Nat}

/-- Flipping bit 15 of a datum flips its sign field (R101, R114 (b)). -/
theorem flip_eq_pack (ha : a < 256 ^ t.size) : (if t.sign a = 1 then a - 2 ^ 15 else a + 2 ^ 15)
    = t.pack (1 - t.sign a) (t.exponent a) (t.fraction a) := by
  have hpack := pack_of_fields ha
  have hsign := sign_le_one t a
  rw [pack_eq_words] at hpack ⊢
  split <;> omega

theorem scaled_flip (he : t.exponent a ≠ 0) :
    t.scaled (t.pack (1 - t.sign a) (t.exponent a) (t.fraction a)) = -t.scaled a := by
  rw [scaled_pack (Nat.sub_le _ _) (exponent_le t a) he (fraction_lt t a), FType.scaled, if_neg he]
  obtain h | h := Nat.le_one_iff_eq_zero_or_eq_one.mp (sign_le_one t a)
  · simp [h]
  · simp [h]

end Negation

theorem exponent_eq_zero_of_isZero {t : FType} {z : Nat} (h : t.isZero z = true) : t.exponent z = 0 := by
  simp only [FType.isZero, Bool.and_eq_true, beq_iff_eq] at h
  exact h.1

theorem exponent_ne_zero_of_isDatum {t : FType} {a : Nat} (ha : isDatum t a) (h : t.isZero a = false) :
    t.exponent a ≠ 0 := by
  have hsign := sign_le_one t a
  have hres := ha.2
  simp [FType.isZero, FType.isReserved] at h hres
  omega

/-- Settles O35: each difference is zero or the value of the datum named, so that no platform rounds it. -/
theorem subtractionOfZeroAndOfItself : Obligations.SubtractionOfZeroAndOfItself := by
  intro p t a z ha _ hz
  have hz0 := scaled_of_exponent_zero (exponent_eq_zero_of_isZero hz)
  refine ⟨platform_fsub_of_scaled_eq rfl, fun h => ?_, fun h => ?_⟩
  · have ha0 := scaled_of_exponent_zero (exponent_eq_zero_of_isZero h)
    exact ⟨platform_fsub_of_scaled_eq (ha0.trans hz0.symm), platform_fsub_of_scaled_eq (hz0.trans ha0.symm)⟩
  · have he := exponent_ne_zero_of_isDatum ha h
    have hs : 1 - t.sign a ≤ 1 := Nat.sub_le _ _
    refine ⟨platform_fsub_of_datum ha.1 he (by rw [hz0, sub_zero]), ?_⟩
    obtain ⟨hsize, hexponent⟩ := pack_exponent t (f := t.fraction a) hs (exponent_le t a)
    rw [flip_eq_pack ha.1]
    exact platform_fsub_of_datum hsize (by rwa [hexponent]) (by rw [scaled_flip he, hz0, zero_sub])

end Sys2Proof.Proofs
end

section
/-! SUB and TST: what they store, test and raise once their operands are read, and reserved operands among these
(40_floating_sub_tst.md R105 to R119; 60_exceptions.md R201, R204). -/

open Sys2Proof Sys2Proof.Machine Sys2Proof.Claims

namespace Sys2Proof.Proofs

section SubTst

variable {s : State} {k k' : Cursor} {t : FType} {l : Location} {sub min dif src : Specifier} {a b r x : Nat}
  {i : Instr} {e : Stop}

/-- The condition codes of a datum by its fields (R102, R105, R115). -/
theorem floatingCC_eq (t : FType) (x : Nat) : floatingCC t x =
    { n := t.sign x == 1 && t.exponent x != 0, z := t.sign x == 0 && t.exponent x == 0, v := false, c := false } := by
  simp only [floatingCC, FType.isNegative, FType.isZero, Bool.and_comm]

theorem exec_tstInstr (t : FType) (src : Specifier) (s : State) :
    exec (tstInstr t src) s = tst t (tstInstr t src).opcode src s := by
  cases t <;> rfl

theorem isReserved_iff : t.isReserved x = true ↔ t.sign x = 1 ∧ t.exponent x = 0 := by
  simp [FType.isReserved, and_comm]

/-- Floating overflow faults, and leaves all but the condition codes as before (R105; 60_exceptions.md R201). -/
theorem exec_sub_overflow (h : SubResolves t sub min dif s b a l k i)
    (ha : ∀ x ∈ l.addrs (.floating t), s.admits .write x = true) (hover : s.platform.fsub t a b = .overflow) :
    exec i s = .fault (.floatingOverflow s.drawCC) := by
  obtain ⟨⟨rs, hk⟩, -⟩ := subResolves_frame h
  have hcheck : l.checkWrite (.floating t) k.state = .ok () := checkWrite_ok.mpr (by rwa [hk.admits])
  have hsub : subtract t a b l k = .error (.raise .floatingOverflow) := by
    simp [subtract, hcheck, hk.platform, hover, bind, Except.bind]
  rw [exec_sub h, hsub]
  rfl

/-- A store to `dif` stops at its lowest-offset byte that is not admitted (20_memory.md R42). -/
theorem checkWrite_denied {ty : DataType} {addr : Word} {j : Nat} (hj : j < ty.size)
    (h1 : admitted s .write addr j) (h2 : s.admits .write (offset addr j) = false) :
    (Location.memory addr).checkWrite ty s = .error (.raise (.access (offset addr j) .write)) := by
  simp only [Location.checkWrite, firstDenied_some hj h1 h2]

theorem readFloating_eq_ok_iff : readFloating t src k = .ok (x, k') ↔
    readOperand (.floating t) src k = .ok (x, k') ∧ t.isReserved x = false := by
  refine ⟨readFloating_ok, fun ⟨hread, hx⟩ => ?_⟩
  exact except_bind_ok.mpr ⟨_, hread, except_bind_ok.mpr ⟨(), checkReserved_ok.mpr hx, rfl⟩⟩

theorem checkReserved_reserved (h : t.isReserved x = true) : checkReserved t x = .error (.raise .reservedOperand) :=
  if_pos h

/-- A reserved operand stops its own evaluation (60_exceptions.md R204). -/
theorem readFloating_reserved (h : readOperand (.floating t) src k = .ok (x, k')) (hx : t.isReserved x = true) :
    readFloating t src k = .error (.raise .reservedOperand) :=
  except_bind_error.mpr (.inr ⟨_, h, except_bind_error.mpr (.inl (checkReserved_reserved hx))⟩)

theorem modifyFloating_reserved (h : locate .modify (.floating t) dif k = .ok (l, k'))
    (hread : l.read (.floating t) k'.state = .ok a) (ha : t.isReserved a = true) :
    modifyFloating t dif k = .error (.raise .reservedOperand) :=
  except_bind_error.mpr (.inr ⟨_, h, except_bind_error.mpr (.inr ⟨_, hread,
    except_bind_error.mpr (.inl (checkReserved_reserved ha))⟩)⟩)

/-- A computation that stops ends its instruction with the stop. -/
theorem conclude_bind_error {α : Type} {y : Except Stop α} {f : α → Except Stop State} (h : y = .error e) :
    conclude s (y >>= f) = conclude s (.error e) := by
  rw [h]; rfl

theorem exec_sub2_stop (h : sub2Operands t (subInstr2 t sub dif).opcode sub dif s = .error e) :
    exec (subInstr2 t sub dif) s = conclude s (.error e) := by
  rw [exec_subInstr2, sub2, conclude_bind_error h]

theorem exec_sub3_stop (h : sub3Operands t (subInstr3 t sub min dif).opcode sub min dif s = .error e) :
    exec (subInstr3 t sub min dif) s = conclude s (.error e) := by
  rw [exec_subInstr3, sub3, conclude_bind_error h]

end SubTst

/-- Settles O36: the frame of a subtraction that stores its value. -/
theorem subtractionStoresTheDifference : Obligations.SubtractionStoresTheDifference := by
  intro t sub min dif s b a r l k i h ha hr hm
  rw [← floatingCC_eq]
  exact exec_sub_stores h ha (.inl hr) hm

/-- Settles O38: once the store is admitted, the platform's answer decides. -/
theorem overflowAndUnderflowFault : Obligations.OverflowAndUnderflowFault :=
  fun _ _ _ _ _ _ _ _ _ _ h ha => ⟨exec_sub_overflow h ha, exec_sub_underflow h ha⟩

/-- Settles O41: the minuend stops the evaluation of the operands after the subtrahend. -/
theorem reservedMinuendFaults : Obligations.ReservedMinuendFaults := by
  refine ⟨fun t sub dif s b a k k' l hsub hloc hread hs he => ?_, fun t sub min dif s b a k k' hsub hmin hs he => ?_⟩
  · have hstop := modifyFloating_reserved hloc hread (isReserved_iff.mpr ⟨hs, he⟩)
    exact exec_sub2_stop (except_bind_error.mpr (.inr ⟨_, hsub, except_bind_error.mpr (.inl hstop)⟩))
  · have hstop := readFloating_reserved hmin (isReserved_iff.mpr ⟨hs, he⟩)
    exact exec_sub3_stop (except_bind_error.mpr (.inr ⟨_, hsub, except_bind_error.mpr (.inl hstop)⟩))

/-- Settles O42: the operand steps registers only, and the test writes the condition codes and the PC. -/
theorem testSetsConditionCodesFromTheOperand : Obligations.TestSetsConditionCodesFromTheOperand := by
  intro t src s x k hread hx
  have hk := (readOperand_ok hread).2.1
  have hfloat := readFloating_eq_ok_iff.mpr ⟨hread, Bool.eq_false_iff.mpr fun h => hx (isReserved_iff.mp h)⟩
  rw [← floatingCC_eq]
  refine ⟨(k.state.setCC (floatingCC t x)).setPc k.addr, ?_, congrArg (Psl.setCC · _) hk.psl, State.pc_setPc _ _,
    fun n h15 => by simp [Ne.symm h15], hk.mem, hk.written, hk.platform, hk.draws⟩
  rw [exec_tstInstr, tst, hfloat]
  rfl

/-- Settles O39: `subtract` checks the store first. -/
theorem destinationIsCheckedBeforeArithmetic : Obligations.DestinationIsCheckedBeforeArithmetic := by
  intro t sub min dif s b a addr k i j h hj hadmitted hdenied
  obtain ⟨⟨rs, hk⟩, -⟩ := subResolves_frame h
  have hcheck : (Location.memory addr).checkWrite (.floating t) k.state
      = .error (.raise (.access (offset addr j) .write)) :=
    checkWrite_denied hj (by rwa [admitted, hk.admits]) (by rwa [hk.admits])
  rw [exec_sub h, subtract, conclude_bind_error hcheck]
  rfl

/-- Settles O40: the first operand stops the evaluation of the operands. -/
theorem reservedOperandsFault : Obligations.ReservedOperandsFault := by
  intro t src o2 o3 s x k i hi hread hs he
  have hstop := readFloating_reserved hread (isReserved_iff.mpr ⟨hs, he⟩)
  obtain rfl | rfl | rfl := hi
  · rw [exec_tstInstr, tst, conclude_bind_error hstop]
    rfl
  · exact exec_sub2_stop (except_bind_error.mpr (.inl hstop))
  · exact exec_sub3_stop (except_bind_error.mpr (.inl hstop))

end Sys2Proof.Proofs
end

section
/-! What the string instructions that store nothing reach: the first difference, the lowest byte, the lowest match
(41_character_string.md R136 to R139, R143 to R148). -/

open Sys2Proof Sys2Proof.Machine Sys2Proof.Safety Sys2Proof.Claims

namespace Sys2Proof.Proofs

/-- Settles O18: `exec_withPsl`, of which an instruction that is no subtraction needs no FU. -/
theorem onlySubtractionReadsFu : Obligations.OnlySubtractionReadsFu :=
  fun _ _ _ _ hi h => exec_withPsl (fun hsub => absurd (hi.symm.trans hsub) Bool.false_ne_true) h

/-- Settles O20: of the ways to finish, only a subtraction and a move store, and operands step registers only. -/
theorem nonStoringInstructionsKeepMemory : Obligations.NonStoringInstructionsKeepMemory := by
  intro i s u hsub hmove h
  obtain ⟨k, ⟨hk, -⟩, hfin, -⟩ := exec_next h
  cases hfin with
  | difference _ _ _ group => simp [hsub] at group
  | test _ _ _ state => exact state ▸ ⟨hk.mem, hk.written, hk.draws⟩
  | string v _ _ _ _ _ stored state =>
    obtain rfl | ⟨group, -⟩ := stored
    · subst state
      simp [hk.mem, hk.written, hk.draws]
    · simp [hmove] at group

theorem undescribed_of_legal {name : String} {os : List ((Access × DataType) × Specifier)}
    (h : (os.all fun o => o.2.legal o.1.1 o.1.2) = true) :
    undescribed name os = .refused (.noSemanticsInSource name) := if_pos h

/-- Settles O25: `undescribed` tests the operand forms and nothing else. -/
theorem undescribedInstructionsAreRefused : Obligations.UndescribedInstructionsAreRefused := by
  intro i s name hname hlegal
  cases i with
  | movtuc _ _ _ _ _ _ | scanc _ _ _ _ | skpc _ _ _ | spanc _ _ _ _ =>
    obtain rfl := Option.some.inj hname
    exact undescribed_of_legal hlegal
  | _ => cases hname

section Compare

variable {s : State} {k : Cursor} {l l1 l2 : BitVec 16} {a1 a2 : Word} {f : Byte} {o1 o2 o3 o4 o5 : Specifier}

theorem byteCC_of_ne {b1 b2 : Byte} (h : b1 ≠ b2) :
    byteCC b1 b2 = { n := b1.slt b2, z := false, v := false, c := b1.ult b2 } := by
  rw [byteCC, beq_eq_false_iff_ne.mpr h]

theorem finishComparison_completes {t : Comparison} {n1 n2 : Nat} {cc : CC}
    (h : t = { l1 := n1, a1 := a1, l2 := n2, a2 := a2, cc := cc }) : Completes k
      [(0, BitVec.ofNat 32 n1), (1, a1), (2, BitVec.ofNat 32 n2), (3, a2)] cc (finishComparison t k) :=
  h ▸ completes_of_onlyStores .cmpc3 rfl (onlyStores_refl _)

theorem exec_cmpc3 (hops : operands3 .cmpc3 o1 o2 o3 s = .ok (l, a1, a2, k)) (h1 : admitted s .read a1 l.toNat)
    (h2 : admitted s .read a2 l.toNat) : exec (.cmpc3 o1 o2 o3) s =
      .next (finishComparison (compareEqualLength k.state l.toNat a1 a2 equalCC) k) := by
  have hk := (operands3_ok hops).1
  exact string_next hops (compare3_ok.mpr ⟨⟨admits_of_admitted hk h1, admits_of_admitted hk h2⟩, rfl⟩)

theorem exec_cmpc5 (hops : operands5 .cmpc5 o1 o2 o3 o4 o5 s = .ok (l1, a1, f, l2, a2, k))
    (h1 : admitted s .read a1 l1.toNat) (h2 : admitted s .read a2 l2.toNat) : exec (.cmpc5 o1 o2 o3 o4 o5) s =
      .next (finishComparison (compareFilled k.state f (max l1.toNat l2.toNat)
        { l1 := l1.toNat, a1 := a1, l2 := l2.toNat, a2 := a2, cc := equalCC }) k) := by
  have hk := (operands5_ok hops).1
  exact string_next hops (compare5_ok.mpr ⟨⟨admits_of_admitted hk h1, admits_of_admitted hk h2⟩, rfl⟩)

/-- The filled byte of the statements is the loop's. -/
theorem filledByte_eq_filled {rs : List Reg} (hk : OnlyRegs rs s k.state) : filledByte s = filled k.state := by
  funext f l a i
  rw [filledByte, ← byteOf_of_onlyRegs hk]
  rfl

/-- Strings of one length run out together, so that the loop of CMPC5 fills neither and is that of CMPC3 (R137). -/
theorem compareFilled_equalLengths (s : State) (f : Byte) : ∀ (l : Nat) (a1 a2 : Word) (cc : CC),
    compareFilled s f l { l1 := l, a1 := a1, l2 := l, a2 := a2, cc := cc } = compareEqualLength s l a1 a2 cc
  | 0, _, _, _ => rfl
  | l + 1, a1, a2, cc => by
    simp only [compareFilled, compareEqualLength, if_neg l.succ_ne_zero, Nat.add_sub_cancel,
      compareFilled_equalLengths s f l]

end Compare

/-- Settles O43: the comparison loop runs to the end, or to the first difference. -/
theorem compareStopsAtTheFirstDifference : Obligations.CompareStopsAtTheFirstDifference := by
  intro o1 o2 o3 s l a1 a2 k hops h1 h2
  have hu := exec_cmpc3 hops h1 h2
  obtain ⟨hmem, hwritten, hdraws⟩ := nonStoringInstructionsKeepMemory _ _ _ rfl rfl hu
  refine ⟨_, hu, hmem, hwritten, hdraws, ?_⟩
  rw [← byteOf_of_onlyRegs (operands3_ok hops).1]
  refine ⟨fun heq => ?_, fun j hj heq hne => ?_⟩
  · exact finishComparison_completes (compareEqualLength_equal _ _ _ _ heq)
  · rw [← byteCC_of_ne hne]
    exact finishComparison_completes (compareEqualLength_differ _ _ _ _ _ _ hj heq hne)

/-- Settles O44: the comparison loop runs to the end, or to the first difference of the filled strings. -/
theorem filledCompareStopsAtTheFirstDifference : Obligations.FilledCompareStopsAtTheFirstDifference := by
  intro o1 o2 o3 o4 o5 s l1 l2 a1 a2 f k hops h1 h2 c1 c2
  have hu := exec_cmpc5 hops h1 h2
  obtain ⟨hmem, hwritten, hdraws⟩ := nonStoringInstructionsKeepMemory _ _ _ rfl rfl hu
  refine ⟨_, hu, hmem, hwritten, hdraws, ?_⟩
  simp only [c1, c2, filledByte_eq_filled (operands5_ok hops).1]
  refine ⟨fun heq => ?_, fun j hj heq hne => ?_⟩
  · exact finishComparison_completes (compareFilled_equal _ _ _ ⟨_, a1, _, a2, _⟩ rfl rfl heq)
  · rw [← byteCC_of_ne hne]
    exact finishComparison_completes (compareFilled_differ _ _ _ _ ⟨_, a1, _, a2, _⟩ hj heq hne)

/-- Settles O45: the checks are the same, and so are the loops. -/
theorem filledCompareOfEqualLengthsIsCompare : Obligations.FilledCompareOfEqualLengthsIsCompare := by
  intro l a1 a2 f k
  simp only [compare5, compare3, max_self, compareFilled_equalLengths]

section Search

variable {s : State} {k : Cursor} {l ol sl : BitVec 16} {a oa sa : Word} {c : Byte} {o1 o2 o3 o4 : Specifier} {n : Nat}

/-- A count of bytes left does not wrap to zero in its register. -/
theorem zeroCC_of_pos (h0 : 0 < n) (hn : n < 2 ^ 16) :
    zeroCC (BitVec.ofNat 32 n) = { n := false, z := false, v := false, c := false } := by
  have hne : BitVec.ofNat 32 n ≠ 0 := fun h => by
    have := congrArg BitVec.toNat h
    simp at this
    omega
  rw [zeroCC, beq_eq_false_iff_ne.mpr hne]

/-- The final state of LOCC, `r` being the bytes left and the address reached (R138). -/
def locateResult (k : Cursor) (r : Nat × Word) : State :=
  k.state.complete [(0, BitVec.ofNat 32 r.1), (1, r.2)] (zeroCC (BitVec.ofNat 32 r.1)) k.addr

theorem locateResult_completes {r : Nat × Word} (h : r = (n, a)) :
    Completes k [(0, BitVec.ofNat 32 n), (1, a)] (zeroCC (BitVec.ofNat 32 n)) (locateResult k r) :=
  h ▸ completes_of_onlyStores .locc rfl (onlyStores_refl _)

theorem exec_locc (hops : loccOperands o1 o2 o3 s = .ok (c, l, a, k)) (h : admitted s .read a l.toNat) :
    exec (.locc o1 o2 o3) s = .next (locateResult k (locateByte k.state c l.toNat a)) :=
  string_next hops (locateCharacter_ok.mpr ⟨admits_of_admitted (loccOperands_ok hops).1 h, rfl⟩)

theorem matchResult_some_completes {m : Option Nat} {ol sl p : Nat} (h : m = some p) : Completes k
    [(0, 0), (1, offset oa ol), (2, BitVec.ofNat 32 (sl - (p + ol))), (3, offset sa (p + ol))] (zeroCC 0)
    (matchResult ol oa sl sa k m) :=
  h ▸ completes_of_onlyStores .matchc rfl (onlyStores_refl _)

theorem matchResult_none_completes {m : Option Nat} {ol sl : Nat} (h : m = none) : Completes k
    [(0, BitVec.ofNat 32 ol), (1, oa), (2, 0), (3, offset sa sl)] (zeroCC (BitVec.ofNat 32 ol))
    (matchResult ol oa sl sa k m) :=
  h ▸ completes_of_onlyStores .matchc rfl (onlyStores_refl _)

theorem exec_matchc (hops : matchcOperands o1 o2 o3 o4 s = .ok (ol, oa, sl, sa, k))
    (h : 0 < ol.toNat → 0 < sl.toNat → admitted s .read oa ol.toNat ∧ admitted s .read sa sl.toNat) :
    exec (.matchc o1 o2 o3 o4) s =
      .next (matchResult ol.toNat oa sl.toNat sa k (findMatch k.state ol.toNat oa sl.toNat sa)) := by
  have hk := (matchcOperands_ok hops).1
  refine string_next hops (matchCharacters_ok.mpr ⟨fun ho hs => ?_, rfl⟩)
  obtain ⟨hobj, hsrc⟩ := h (Nat.pos_of_ne_zero ho) (Nat.pos_of_ne_zero hs)
  exact ⟨admits_of_admitted hk hobj, admits_of_admitted hk hsrc⟩

/-- The object stands in the source of the statements where the model's test says so. -/
theorem matchesAt_iff_standsAt {rs : List Reg} {ol p : Nat} (hk : OnlyRegs rs s k.state) :
    matchesAt k.state ol oa sa p = true ↔ standsAt s ol oa sa p := by
  rw [matchesAt_iff, hk.readByte]
  rfl

end Search

/-- Settles O46: the search loop runs to the lowest byte equal to the character, or to the end. -/
theorem locateFindsTheLowestByte : Obligations.LocateFindsTheLowestByte := by
  intro o1 o2 o3 s c l a k hops h
  have hu := exec_locc hops h
  obtain ⟨hmem, hwritten, hdraws⟩ := nonStoringInstructionsKeepMemory _ _ _ rfl rfl hu
  refine ⟨_, hu, hmem, hwritten, hdraws, ?_⟩
  rw [← byteOf_of_onlyRegs (loccOperands_ok hops).1]
  refine ⟨fun j hj hne heq => ?_, fun hne => ?_⟩
  · rw [← zeroCC_of_pos (n := l.toNat - j) (Nat.sub_pos_of_lt hj) ((Nat.sub_le _ _).trans_lt l.isLt)]
    exact locateResult_completes (locateByte_found _ _ _ _ _ hj hne heq)
  · exact locateResult_completes (locateByte_none _ _ _ _ hne)

/-- Settles O47: the search finds the lowest match, if there is one. -/
theorem matchFindsTheLowestSubstring : Obligations.MatchFindsTheLowestSubstring := by
  intro o1 o2 o3 o4 s ol sl oa sa k hops h
  have hu := exec_matchc hops h
  obtain ⟨hmem, hwritten, hdraws⟩ := nonStoringInstructionsKeepMemory _ _ _ rfl rfl hu
  refine ⟨_, hu, hmem, hwritten, hdraws, ?_⟩
  simp only [← matchesAt_iff_standsAt (matchcOperands_ok hops).1, Bool.not_eq_true]
  refine ⟨fun p hp hmatch hlow => ?_, fun hpos hno => ?_⟩
  · exact matchResult_some_completes (findMatch_some hp hmatch hlow)
  · rw [← zeroCC_of_pos hpos ol.isLt]
    exact matchResult_none_completes (findMatch_none hpos hno)

end Sys2Proof.Proofs
end

section
/-! The moves: what they store and the control block they leave, a table that is stored to, and the order in which
operands are read (30_encoding.md R75; 41_character_string.md R140 to R142, R147, R148). -/

open Sys2Proof Sys2Proof.Machine Sys2Proof.Safety Sys2Proof.Claims

namespace Sys2Proof.Proofs

/-- Settles O48: `movc3_moves`, whose condition codes are those of equal strings. -/
theorem moveCopiesTheOriginalSource : Obligations.MoveCopiesTheOriginalSource :=
  fun _ _ _ _ _ _ _ _ => movc3_moves

/-- Settles O49: `movc5_moves`, whose condition codes are those of the lengths. -/
theorem moveFillsTheRestOfTheDestination : Obligations.MoveFillsTheRestOfTheDestination :=
  fun _ _ _ _ _ _ _ _ _ _ _ _ => movc5_moves

/-- Settles O51: `movtc_moves`, whose condition codes are those of the lengths. -/
theorem translationStoresTheTableEntries : Obligations.TranslationStoresTheTableEntries :=
  fun _ _ _ _ _ _ _ _ _ _ _ _ _ _ => movtc_moves

section EqualLengths

theorem readLength_self (l : Nat) : readLength l l = l := by
  unfold readLength
  split
  · next h => exact h.symm
  · rfl

theorem lengthCC_self (l : BitVec 16) : lengthCC l l = equalCC := by
  simp [lengthCC, equalCC, BitVec.slt, BitVec.ult]

end EqualLengths

/-- Settles O50: all of the source fits, nothing is filled, and equal lengths compare as equal. -/
theorem fillingMoveOfEqualLengthsIsMove : Obligations.FillingMoveOfEqualLengthsIsMove := by
  intro l a d f k
  simp only [moveCharacter5, moveCharacter3, readLength_self, min_self, Nat.sub_self, List.replicate_zero,
    List.append_nil, lengthCC_self]
  rfl

section Overlap

variable {s : State} {k : Cursor} {sl dl : BitVec 16} {a ta d : Word} {f : Byte} {i j : Nat}

/-- The destination overlaps the table when one of its bytes is a table entry (R142). -/
theorem overlapsTable_of_offset_eq {dl : Nat} (hi : i < dl) (hj : j < 256) (h : offset d i = offset ta j) :
    overlapsTable ta d dl = true := by
  rw [← Bool.not_eq_false, overlapsTable_eq_false]
  exact fun hclear => hclear i j hi hj h

/-- MOVTC, its strings and its table admitted, stores its destination and then writes its control block (R142). -/
theorem moveTranslated_of_admits {rs : List Reg} (hk : OnlyRegs rs s k.state) (hr : admitted s .read a sl.toNat)
    (hw : admitted s .write d dl.toNat) (ht : 0 < sl.toNat → admitted s .read ta 256) :
    moveTranslated sl a f ta dl d k =
      storeTranslated k.state ta d dl.toNat (translatedBytes k.state sl.toNat dl.toNat a ta f) >>= fun v =>
        .ok (v.complete [(0, BitVec.ofNat 32 (sl.toNat - dl.toNat)), (1, offset a (min sl.toNat dl.toNat)), (2, 0),
          (3, ta), (4, 0), (5, offset d dl.toNat)] (lengthCC sl dl) k.addr) := by
  have htable : admitted s .read ta (if min sl.toNat dl.toNat = 0 then 0 else 256) := by
    split
    · exact admitted_zero
    · exact ht (by omega)
  have hadmit : admitStrings k.state d dl.toNat [(.read, a, readLength sl.toNat dl.toNat), (.write, d, dl.toNat),
      (.read, ta, if min sl.toNat dl.toNat = 0 then 0 else 256)] = .ok () := by
    refine admitStrings_ok.mpr (List.forall_mem_cons.mpr ⟨?_, List.forall_mem_cons.mpr ⟨?_, ?_⟩⟩)
    · exact admits_of_admitted hk (admitted_readLength fun _ => hr)
    · exact admits_of_admitted hk hw
    · exact List.forall_mem_singleton.mpr (admits_of_admitted hk htable)
  simp only [moveTranslated, hadmit, tsub_min]
  rfl

theorem storeTranslated_draw {t : State} {dl : Nat} {bs : List Byte} (h : overlapsTable ta d dl = true)
    (hp : t.platform.movtcOverlap = .draw) :
    storeTranslated t ta d dl bs = .ok (t.drawBytes (stringAddrs d dl)) :=
  storeTranslated_ok.mpr (.inr ⟨h, hp, rfl⟩)

theorem storeTranslated_refuse {t : State} {dl : Nat} {bs : List Byte} (h : overlapsTable ta d dl = true)
    (hp : t.platform.movtcOverlap = .refuse) :
    storeTranslated t ta d dl bs = .error (.refuse .movtcOverlap) := by
  simp only [storeTranslated, if_pos h, hp]

/-- A string instruction whose operands resolve and whose operation refuses is refused. -/
theorem string_refused {α : Type} {ops : Except Stop α} {op : α → Except Stop State} {x : α} {r : Refusal}
    (hops : ops = .ok x) (hop : op x = .error (.refuse r)) : concludeString s (ops >>= op) = .refused r := by
  rw [except_bind_error.mpr (.inr ⟨x, hops, hop⟩)]
  rfl

/-- Free values stored at `d` leave every byte outside the string alone. -/
theorem readByte_drawBytes_of_ne {t : State} {n : Nat} {x : Word} (h : ∀ i, i < n → x ≠ offset d i) :
    (t.drawBytes (stringAddrs d n)).readByte x = t.readByte x :=
  drawBytes_readByte _ _ fun hx => by
    obtain ⟨i, hi, he⟩ := mem_stringAddrs.mp hx
    exact h i hi he.symm

end Overlap

/-- Settles O52: the check passes, and the platform's policy decides what is stored. -/
theorem translationOntoTheTableIsUnpredictable : Obligations.TranslationOntoTheTableIsUnpredictable := by
  intro o1 o2 o3 o4 o5 o6 s sl dl a ta d f k i0 j0 hops hr hw ht hi hj he hm
  have hk := (movtcOperands_ok hops).1
  have hover := overlapsTable_of_offset_eq hi hj he
  have hmove := moveTranslated_of_admits (f := f) hk hr hw ht
  rw [← hk.platform]
  refine ⟨fun hp => ?_, fun hp => ?_⟩
  · rw [storeTranslated_refuse hover hp] at hmove
    exact string_refused hops hmove
  · rw [storeTranslated_draw hover hp] at hmove
    refine ⟨_, string_next hops hmove, ?_, fun i hi => ?_, fun x hx => ?_,
      completes_of_onlyStores .movtc rfl (onlyStores_drawBytes _ _)⟩
    · rw [State.complete_draws, State.drawBytes_draws, stringAddrs_length, hk.draws]
    · have hdl := dl.isLt
      rw [byteOf, readByte_complete, readByte_drawBytes dl.toNat d (hk.mem ▸ hm) (by omega) i hi, hk.draws]
    · rw [readByte_complete, readByte_drawBytes_of_ne hx, hk.readByte]

section OperandLists

variable {op : Opcode} {o1 o2 o3 : Specifier} {s : State} {k : Cursor}

theorem operands3_iff {l : BitVec 16} {a1 a2 : Word} : operands3 op o1 o2 o3 s = .ok (l, a1, a2, k) ↔
    ∃ k1 k2, readOperand .word o1 (Cursor.start s op) = .ok (l.toNat, k1) ∧ addressOperand o2 k1 = .ok (a1, k2) ∧
      addressOperand o3 k2 = .ok (a2, k) := by
  simp [operands3, except_bind_ok, readWordOperand_iff]

theorem modifyFloating_eq_ok_iff {t : FType} {dif : Specifier} {k' : Cursor} {l : Location} {a : Nat} :
    modifyFloating t dif k = .ok (l, a, k') ↔ locate .modify (.floating t) dif k = .ok (l, k') ∧
      l.read (.floating t) k'.state = .ok a ∧ t.isReserved a = false := by
  simp [modifyFloating, except_bind_ok, checkReserved_ok]

/-- The length of `MOVC3 R0, (R1), (R3)` is the low word of R0, and its addresses are R1 and R3 (R148 (a)). -/
theorem operands3_movc3_registers (s : State) :
    operands3 .movc3 (.plain (.register 0)) (.plain (.deferred 1)) (.plain (.deferred 3)) s =
      .ok ((s.getReg 0).setWidth 16, s.getReg 1, s.getReg 3, ⟨s, s.pc + 4⟩) := by
  have hlen : readRegister s .word 0 = ((s.getReg 0).setWidth 16).toNat := by
    rw [BitVec.toNat_setWidth, ← readRegs_one]
    rfl
  have hpc : s.pc + 4 = s.pc + 1 + 1 + 1 + 1 := by
    simp only [BitVec.add_assoc]
    rfl
  rw [hpc]
  exact operands3_iff.mpr ⟨⟨s, s.pc + 1 + 1⟩, ⟨s, s.pc + 1 + 1 + 1⟩, hlen ▸ readOperand_register (by decide), rfl, rfl⟩

end OperandLists

/-- Settles O56: `movc3_moves` from the registers before it, and every list reads its operands one after another. -/
theorem operandsAreReadBeforeTheControlBlock : Obligations.OperandsAreReadBeforeTheControlBlock := by
  refine ⟨fun s hr hw hm => ?_, fun op o1 o2 o3 s l a1 a2 k => operands3_iff, ?_, ?_, ?_, ?_, ?_, ?_⟩
  · obtain ⟨u, hu, -, hbytes, -, hc⟩ := movc3_moves (operands3_movc3_registers s) hr hw hm
    have hvalues := hc.values
    simp only [List.forall_mem_cons] at hvalues
    obtain ⟨h0, h1, -, h3, -, h5, -⟩ := hvalues
    rw [BitVec.toNat_setWidth] at hbytes h1 h3
    exact ⟨u, hu, hbytes, h1, h3, h0, h5, hc.pc⟩
  · intro op o1 o2 o3 o4 o5 s l1 l2 a1 a2 f k
    simp [operands5, except_bind_ok, readWordOperand_iff, readByteOperand_iff]
  · intro o1 o2 o3 s c l a k
    simp [loccOperands, except_bind_ok, readWordOperand_iff, readByteOperand_iff]
  · intro o1 o2 o3 o4 s ol sl oa sa k
    simp [matchcOperands, except_bind_ok, readWordOperand_iff]
  · intro o1 o2 o3 o4 o5 o6 s sl dl a ta d f k
    simp [movtcOperands, except_bind_ok, readWordOperand_iff, readByteOperand_iff]
  · intro t sub dif s b a l k
    simp [resolved2, sub2Operands, except_bind_ok, readFloating_eq_ok_iff, modifyFloating_eq_ok_iff, and_assoc]
  · intro t sub min dif s b a l k
    simp [resolved3, sub3Operands, except_bind_ok, readFloating_eq_ok_iff, writeFloating, and_assoc]

end Sys2Proof.Proofs
end

section
/-! Exceptions: which instruction raises which and the state that it leaves, and instructions that run
(60_exceptions.md R200 to R204; 20_memory.md R46). -/

open Sys2Proof Sys2Proof.Machine Sys2Proof.Safety Sys2Proof.Claims

namespace Sys2Proof.Proofs

/-- The faults that an instruction can end in, each with the state it leaves: which instructions raise it
(60_exceptions.md R200), and the access that was not admitted (20_memory.md R46). -/
inductive Faults (i : Instr) (s : State) : Fault → Prop where
  | reservedOperand (h : isSub i = true ∨ isTst i = true) : Faults i s (.reservedOperand s.drawCC)
  | overflow (h : isSub i = true) : Faults i s (.floatingOverflow s.drawCC)
  | underflow (h : isSub i = true) (hfu : s.psl.fu = true) : Faults i s (.floatingUnderflow s.drawCC)
  | access (x : Word) (kind : AccessKind) (h : isSub i = true ∨ isTst i = true) (hx : s.admits kind x = false) :
      Faults i s (.accessFault x kind s)
  | stringAccess (x : Word) (kind : AccessKind) (d : Word) (n : Nat) (h : isSub i = false ∧ isTst i = false)
      (hx : s.admits kind x = false) (hn : isMove i = false → n = 0) :
      Faults i s (.accessFault x kind (s.stringFaulted d n))

section Inversion

variable {i : Instr} {s : State} {f : Fault} {r : Refusal} {x : Word}

theorem isString_eq_false : i.opcode.isString = false ↔ isSub i = true ∨ isTst i = true := by
  rw [isString_eq, Bool.not_eq_false', Bool.or_eq_true]

theorem isString_eq_true : i.opcode.isString = true ↔ isSub i = false ∧ isTst i = false := by
  simp [isString_eq]

/-- A read of an operand that is not admitted faults as its instruction's kind does (20_memory.md R46). -/
theorem faults_operandRead (hx : s.admits .read x = false)
    (h : conclude s (.error ((Stop.raise (.access x .read)).during i.opcode)) = .fault f) : Faults i s f := by
  rw [Stop.during_access] at h
  cases hi : i.opcode.isString with
  | true => rw [hi] at h; cases h; exact .stringAccess x .read 0 0 (isString_eq_true.mp hi) hx fun _ => rfl
  | false => rw [hi] at h; cases h; exact .access x .read (isString_eq_false.mp hi) hx

/-- Every fault of an instruction is one of these. -/
theorem exec_fault (h : exec i s = .fault f) : Faults i s f := by
  obtain ⟨u, hu⟩ | ⟨e, hstop, he⟩ := exec_outcome i s
  · cases hu.symm.trans h
  · rw [he] at h
    cases hstop with
    | operand hop =>
      obtain ⟨-, rfl⟩ | ⟨x, hx, rfl⟩ := hop
      · rw [Stop.during_refuse] at h; cases h
      · exact faults_operandRead hx h
    | reserved hi => cases h; exact .reservedOperand hi
    | store x hi hx => cases h; exact .access x .write (.inl hi) hx
    | overflow hi _ => cases h; exact .overflow hi
    | underflow hi hfu _ => cases h; exact .underflow hi hfu
    | string x kind d n hi hx hn => cases h; exact .stringAccess x kind d n hi hx hn
    | overlap _ _ | undescribed _ _ _ => cases h

/-- An instruction is refused for an operand form, for its overlap with the table, or because nothing describes it
(30_encoding.md R68; 00_scope.md R6; 41_character_string.md R143 to R146). -/
theorem exec_refused (h : exec i s = .refused r) :
    i.formsLegal = false ∨ s.platform.movtcOverlap = .refuse ∨ ∃ m, undescribedName i = some m := by
  obtain ⟨u, hu⟩ | ⟨e, hstop, he⟩ := exec_outcome i s
  · cases hu.symm.trans h
  · rw [he] at h
    cases hstop with
    | operand hop =>
      obtain ⟨hl, -⟩ | ⟨x, -, rfl⟩ := hop
      · exact .inl hl
      · rw [Stop.during_access] at h
        cases hi : i.opcode.isString <;> (rw [hi] at h; cases h)
    | overlap hp _ => exact .inr (.inl hp)
    | undescribed m hm _ => exact .inr (.inr ⟨m, hm⟩)
    | reserved _ | store _ _ _ | overflow _ _ | underflow _ _ _ | string _ _ _ _ _ _ _ => cases h

end Inversion

section FaultedStates

variable {i : Instr} {s : State} {f : Fault}

/-- `u` is `s` but for R0 to R5, the condition codes, memory with its marks, and the count of draws. -/
structure KeptAtFault (s u : State) : Prop where
  regs : ∀ r : Reg, 6 ≤ r.val → u.getReg r = s.getReg r
  psl : u.psl = s.psl.setCC u.cc
  platform : u.platform = s.platform

theorem keptAtFault_refl (s : State) : KeptAtFault s s := ⟨fun _ _ => rfl, rfl, rfl⟩

theorem keptAtFault_drawCC (s : State) : KeptAtFault s s.drawCC := ⟨fun _ _ => rfl, rfl, rfl⟩

theorem not_mem_controlBlock : ∀ r : Reg, 6 ≤ r.val → r ∉ controlBlock := by decide

theorem keptAtFault_stringFaulted (s : State) (d : Word) (n : Nat) : KeptAtFault s (s.stringFaulted d n) := by
  obtain ⟨hpsl, -, hplatform, -, hregs⟩ := drawRegs_ok controlBlock s
  refine ⟨fun r hr => ?_, ?_, ?_⟩
  · rw [stringFaulted_getReg, hregs r (not_mem_controlBlock r hr)]
  · rw [State.cc, State.stringFaulted, State.drawBytes_psl, ← hpsl]
    rfl
  · rw [State.stringFaulted, State.drawBytes_platform, State.drawCC_platform, hplatform]

/-- Without a destination string, a string fault stores nothing. -/
theorem stringFaulted_zero_mem (s : State) (d : Word) : (s.stringFaulted d 0).mem = s.mem :=
  (drawRegs_ok controlBlock s).2.1

theorem Faults.kept (h : Faults i s f) : KeptAtFault s (faulted f) := by
  cases h with
  | reservedOperand _ | overflow _ | underflow _ _ => exact keptAtFault_drawCC s
  | access _ _ _ _ => exact keptAtFault_refl s
  | stringAccess _ _ d n _ _ _ => exact keptAtFault_stringFaulted s d n

/-- SUB and TST store nothing before they fault, in registers or in memory (60_exceptions.md R201). -/
theorem Faults.floating (h : Faults i s f) (hi : isSub i = true ∨ isTst i = true) :
    (faulted f).regs = s.regs ∧ (faulted f).mem = s.mem ∧ (faulted f).written = s.written := by
  cases h with
  | reservedOperand _ | overflow _ | underflow _ _ | access _ _ _ _ => exact ⟨rfl, rfl, rfl⟩
  | stringAccess _ _ _ _ hstring _ _ => simp [hstring] at hi

/-- Only the moves have a destination string, whose bytes a fault leaves open (20_memory.md R46). -/
theorem Faults.mem (h : Faults i s f) (hi : isMove i = false) : (faulted f).mem = s.mem := by
  cases h with
  | reservedOperand _ | overflow _ | underflow _ _ | access _ _ _ _ => rfl
  | stringAccess _ _ d n _ _ hn =>
    obtain rfl := hn hi
    exact stringFaulted_zero_mem s d

end FaultedStates

/-- Settles O21: the state of each fault that an instruction can end in. -/
theorem faultLeavesTheStateBefore : Obligations.FaultLeavesTheStateBefore := by
  intro i s f h
  have hf := exec_fault h
  obtain ⟨hregs, hpsl, hplatform⟩ := hf.kept
  exact ⟨hregs 15 (by decide), hregs, hpsl, hplatform, hf.floating, hf.mem⟩

/-- Settles O22: the instructions of each fault. -/
theorem onlyTheListedInstructionsRaise : Obligations.OnlyTheListedInstructionsRaise := by
  intro i s u
  refine ⟨fun h => ?_, fun h => ?_, fun h => ?_⟩
  · cases exec_fault h with | overflow hi => exact hi
  · cases exec_fault h with | underflow hi hfu => exact ⟨hi, hfu⟩
  · cases exec_fault h with | reservedOperand hi => exact hi

/-- Settles O23: no reason for a refusal is left, and no access that is not admitted. -/
theorem admittedWellFormedInstructionsRun : Obligations.AdmittedWellFormedInstructionsRun := by
  intro i s hw hd ha hp
  obtain ⟨-, hl⟩ := Bool.and_eq_true_iff.mp hw
  cases h : exec i s with
  | next u => exact .inl ⟨u, rfl⟩
  | refused r =>
    obtain hforms | hoverlap | ⟨m, hm⟩ := exec_refused h
    · cases hl.symm.trans hforms
    · cases hp.symm.trans hoverlap
    · cases hd.symm.trans hm
  | fault f =>
    cases exec_fault h with
    | reservedOperand hi => exact .inr (.inl ⟨hi, _, rfl⟩)
    | overflow hi => exact .inr (.inr ⟨hi, _, .inl rfl⟩)
    | underflow hi _ => exact .inr (.inr ⟨hi, _, .inr rfl⟩)
    | access x kind _ hx | stringAccess x kind _ _ _ hx _ => cases (ha kind x).symm.trans hx

end Sys2Proof.Proofs
end
